-- ==== Sys2Proof/Word.lean ====
section
/-! DEFINITION. The plainest names of the machine: the byte, the formats of a stream element, the phases of the
block state machine and the error kinds. No function here computes anything a test could show wrong. -/

namespace Sys2Proof

/-- A byte of the input, of the window or of the output (spec 00_scope.md R7: bit 0 is the least significant). -/
abbrev Byte := BitVec 8

/-- The formats of 30_encoding.md R116. Which one comes next is decided by the phase, not by any bit pattern. -/
inductive Format where
  /-- block header (R102) -/
  | bh
  /-- PAD, LEN and NLEN of a stored block (R103) -/
  | stHdr
  /-- one data byte of a stored block (R103) -/
  | stData
  /-- HLIT, HDIST, HCLEN (R104) -/
  | dhCounts
  /-- one code-length-code length (R104) -/
  | dhCllen
  /-- one code-length symbol (R105) -/
  | cls
  /-- one literal/length symbol (R106) -/
  | ll
  /-- one distance code (R107) -/
  | d
  deriving DecidableEq, Repr

/-- The ten phases of the block state machine (10_state.md R27). -/
inductive Phase where
  | header
  | storedLen
  | storedCopy
  | dynCounts
  | dynCllens
  | dynLens
  | symbol
  | copy
  | done
  | error
  deriving DecidableEq, Repr

/-- The nine fault kinds of 60_exceptions.md R371. They are exceptions the machine TAKES (R377), not stops of the
model. -/
inductive ErrKind where
  | wrongUncompressedBlockLengths
  | wrongBlockType
  | wrongSymbol
  | symbolNotFound
  | truncatedInput
  | distanceTooFar
  | noPreviousLength
  | codeLengthOverrun
  | oversubscribedCode
  deriving DecidableEq, Repr

end Sys2Proof
end

