-- ==== Sys2Proof/Machine/Bits.lean ====
section
/-! DEFINITION. Bits, fields and bytes: the two ways a group of stream bits becomes a number (00_scope.md R8, R9),
and their inverses for the encoder. -/

namespace Sys2Proof.Machine

/-- The stream-order bits of one byte: bit 0 first (00_scope.md R8, 20_memory.md R69). -/
def byteBits (b : Byte) : List Bool :=
  [b.getLsbD 0, b.getLsbD 1, b.getLsbD 2, b.getLsbD 3, b.getLsbD 4, b.getLsbD 5, b.getLsbD 6, b.getLsbD 7]

/-- The stream-order bits of a byte sequence: bytes in increasing index (20_memory.md R69). -/
def streamBits : List Byte → List Bool
  | [] => []
  | b :: bs => byteBits b ++ streamBits bs

/-- The value of a bit string read least significant bit first (00_scope.md R9 (a)). -/
def bitsVal : List Bool → Nat
  | [] => 0
  | b :: bs => b.toNat + 2 * bitsVal bs

/-- An integer field: the value of the first `n` bits, or none when fewer are there (40_bitreader.md R143). -/
def fieldVal : Nat → List Bool → Option Nat
  | 0, _ => some 0
  | _ + 1, [] => none
  | n + 1, b :: bs => (fieldVal n bs).map (fun v => b.toNat + 2 * v)

/-- The `n` bits of an integer field, least significant first: what `fieldVal n` reads back. -/
def fieldBits : Nat → Nat → List Bool
  | 0, _ => []
  | n + 1, v => v.testBit 0 :: fieldBits n (v / 2)

/-- The bits of a Huffman code of `n` bits, most significant first (00_scope.md R9 (b), 20_memory.md R71). -/
def codeBits : Nat → Nat → List Bool
  | 0, _ => []
  | n + 1, c => c.testBit n :: codeBits n c

/-- `n` bytes packed from stream-order bits, missing bits 0: the inverse of `streamBits`. -/
def packBytes : Nat → List Bool → List Byte
  | 0, _ => []
  | n + 1, bs => BitVec.ofNat 8 (bitsVal (bs.take 8)) :: packBytes n (bs.drop 8)

end Sys2Proof.Machine
end

