-- ==== Sys2Proof/Machine/Huffman.lean ====
section
/-! DEFINITION. The code-length-to-canonical-codes circuit and the Huffman decoder engine (41_huffman.md). A code table
IS its length vector (10_state.md R36), here a list of natural numbers indexed by symbol. -/

namespace Sys2Proof.Machine

/-- bl_count[len] of BuildCode step 1 (R162). -/
def blCount (L : List Nat) (len : Nat) : Nat := L.countP (fun l => l == len)

/-- next_code[len] as BuildCode step 2 leaves it (R162): next_code[1] = 0 and
next_code[len] = (next_code[len-1] + bl_count[len-1]) << 1. -/
def nextCode (L : List Nat) : Nat → Nat
  | 0 => 0
  | 1 => 0
  | len + 2 => 2 * (nextCode L (len + 1) + blCount L (len + 1))

/-- code[s] as BuildCode step 3 assigns it (R162): next_code[L[s]]++ in ascending s, so the initial next_code of the
length plus the number of smaller symbols of that length. -/
def codeOf (L : List Nat) (s : Nat) : Nat :=
  nextCode L (L.getD s 0) + blCount (L.take s) (L.getD s 0)

/-- K of the over-subscription check (R165): the sum over len in 1..15 of bl_count[len] * 2^(15 - len). -/
def kraft (L : List Nat) : Nat :=
  ((List.range 15).map (fun i => blCount L (i + 1) * 2 ^ (14 - i))).sum

/-- BuildCode accepts L (R165): K is at most 2^15. -/
def buildable (L : List Nat) : Bool := decide (kraft L ≤ 32768)

/-- maxlen(T): the largest L[s], 0 for an empty table (R170). -/
def maxLen (L : List Nat) : Nat := L.foldr max 0

/-- The symbol s with L[s] = len and code[s] = target, if any (R170). It walks the vector in ascending s, running
next_code[len] as step 3 of BuildCode does (R162): `s` is the symbol at the head and `next` its code if its length is
`len`. -/
def findCode (len target : Nat) : Nat → Nat → List Nat → Option Nat
  | _, _, [] => none
  | s, next, l :: L =>
    if l = len then
      if next = target then some s else findCode len target (s + 1) (next + 1) L
    else findCode len target (s + 1) next L

/-- What HuffDecode can answer (R170 to R172). -/
inductive HuffResult where
  /-- the symbol and the number of bits its code has -/
  | symbol (s len : Nat)
  /-- the bits end inside a code -/
  | short
  /-- `read` bits, maxlen(T) of them, hold no code of the table -/
  | absent (read : Nat)
  deriving DecidableEq, Repr

/-- The loop of HuffDecode (R170): `fuel` lengths are left, `len` bits have been read and `acc` is their value, each new
bit becoming the least significant one. -/
def huffWalk (L : List Nat) : Nat → Nat → Nat → List Bool → HuffResult
  | 0, len, _, _ => .absent len
  | _ + 1, _, _, [] => .short
  | fuel + 1, len, acc, b :: bs =>
    match findCode (len + 1) (2 * acc + b.toNat) 0 (nextCode L (len + 1)) L with
    | some s => .symbol s (len + 1)
    | none => huffWalk L fuel (len + 1) (2 * acc + b.toNat) bs

/-- HuffDecode(T) for the table with length vector L (R170, R171: an empty table reads no bit). -/
def huffDecode (L : List Nat) (bits : List Bool) : HuffResult := huffWalk L (maxLen L) 0 0 bits

/-- The stream bits of symbol s under L, or none where s has no code (R162: length 0, or s at or above n). -/
def encodeSymbol (L : List Nat) (s : Nat) : Option (List Bool) :=
  if L.getD s 0 = 0 then none else some (codeBits (L.getD s 0) (codeOf L s))

end Sys2Proof.Machine
end

