-- ==== Sys2Proof/Machine/State.lean ====
section
/-! DEFINITION. The state of the machine as plain data (10_state.md), why a step can stop, and the state after reset. -/

namespace Sys2Proof.Machine

/-- Why the MODEL stops with a fault. These are preconditions the spec states for a step; no run from reset breaks one
(Safety.lean, `State.Inv`). Every one is SAFE: the model stops where nothing is said of the hardware. The nine error
kinds of the spec are not here: they are taken as next states (60_exceptions.md R377). -/
inductive Fault where
  /-- Raised by the COPY step when it reads a window cell nothing has written (45_window_copy.md R344: no such cell is
  read). Safe. -/
  | windowUnwritten
  /-- Raised by the fetch of a stored data byte when br_bit is not 0 (20_memory.md R74, 40_bitreader.md R146: a
  modelling error). Safe. -/
  | unalignedByteRead
  /-- Raised by CLLEN and by the code-length elements when an index lies outside `cl_lens` or `lens` (10_state.md R34,
  R35). Safe. -/
  | tableIndex
  /-- Raised by STORED_BYTE when stored_rem is 0 and by the COPY step when copy_rem is 0 (42_block_control.md R204 and
  45_window_copy.md R345 state the contrary as a precondition). Safe. -/
  | counterUnderflow
  deriving DecidableEq, Repr

/-- Why a meaning, or a move of the environment, is refused. -/
inductive Refusal where
  /-- Raised by an arm of `exec` for an instruction without a meaning. Safe. -/
  | notModelled (mnemonic : String)
  /-- Raised by every meaning when the phase does not ask for the element's format, or in ERROR: the format of the next
  element is decided by the phase (30_encoding.md R116), so such an element cannot occur and `step` never runs one.
  Safe. -/
  | wrongPhase
  /-- Raised by the environment moves of Machine/Ops.lean when a neighbour would break the port protocol
  (20_memory.md R84, U11). `step` never raises it. Safe. -/
  | protocolViolation
  deriving DecidableEq, Repr

/-- A byte-addressed memory: (address, byte) cells in the canonical form of `Memory.wf` (Machine/Ops.lean). -/
abbrev Memory := List Host.Cell

/-- The bit reader and the input port in front of it (10_state.md R21 to R25, R40). -/
structure Reader where
  /-- IN: every byte the upstream has put on the input port since reset, taken or not, in order (R43, R64) -/
  input : List Byte
  /-- the upstream will offer no byte after those of `input`; in_eos is 1 once they are taken -/
  inEos : Bool
  /-- br_index (R21) -/
  brIndex : Nat
  /-- br_bit (R22) -/
  brBit : BitVec 3
  /-- br_byte (R23) -/
  brByte : Byte
  /-- br_have (R23) -/
  brHave : Bool
  /-- in_cnt (R25) -/
  inCnt : Nat
  /-- the MODEL's own: the bits the element in progress has consumed while its step holds (log 4) -/
  held : List Bool
  deriving DecidableEq, Repr

/-- The state (10_state.md R20). Widths are the spec's; counters of CNT_W bits are natural numbers (R6). -/
structure State where
  /-- the bit reader and the input port -/
  rd : Reader
  /-- phase (R27) -/
  phase : Phase
  /-- the MODEL's own: the SYMBOL step in progress has decoded its length, and goes on with the distance code (log 3) -/
  awaitDist : Bool
  /-- bfinal (R28) -/
  bfinal : Bool
  /-- btype (R28) -/
  btype : BitVec 2
  /-- stored_rem (R29) -/
  storedRem : BitVec 16
  /-- hlit (R30) -/
  hlit : BitVec 9
  /-- hdist (R30) -/
  hdist : BitVec 6
  /-- hclen (R30) -/
  hclen : BitVec 5
  /-- cl_idx (R31) -/
  clIdx : BitVec 5
  /-- len_idx (R31) -/
  lenIdx : BitVec 9
  /-- match_len (R32) -/
  matchLen : BitVec 9
  /-- match_dist (R32) -/
  matchDist : BitVec 16
  /-- copy_rem (R32) -/
  copyRem : BitVec 9
  /-- cl_lens[0..18] (R34) -/
  clLens : List (BitVec 3)
  /-- lens[0..319] (R35) -/
  lens : List (BitVec 4)
  /-- T_CL, as its length vector (R36) -/
  tCL : List (BitVec 3)
  /-- T_LL, as its length vector (R36) -/
  tLL : List (BitVec 4)
  /-- T_D, as its length vector (R36) -/
  tD : List (BitVec 4)
  /-- WIN[0..32767] (R37) -/
  win : Memory
  /-- wr_ptr (R37) -/
  wrPtr : BitVec 15
  /-- hist_cnt (R37) -/
  histCnt : BitVec 16
  /-- out_len (R38) -/
  outLen : Nat
  /-- OUT: every byte emitted since reset, in order (R38) -/
  out : List Byte
  /-- out_data (R40) -/
  outData : Byte
  /-- out_valid (R40): the byte on out_data has not been taken -/
  outValid : Bool
  /-- out_ready (R40): the level the downstream drives -/
  outReady : Bool
  /-- busy (R39) -/
  busy : Bool
  /-- done (R39) -/
  done : Bool
  /-- error (R39) -/
  error : Bool
  /-- err_code (R39, 60_exceptions.md R371) -/
  errCode : BitVec 4
  /-- rst (R40): the level the host drives -/
  rst : Bool
  /-- the MODEL's own: an edge has passed since rst rose, so the host may lower it (60_exceptions.md R390; log 16) -/
  rstEdge : Bool
  /-- the MODEL's own: index of the next free value (log 9) -/
  freeCtr : Nat
  deriving DecidableEq, Repr

/-- The bit reader after reset (R44): cursor at 0, no byte held. The environment has offered nothing yet (log 15). -/
def Reader.reset : Reader where
  input := []
  inEos := false
  brIndex := 0
  brBit := 0
  brByte := 0
  brHave := false
  inCnt := 0
  held := []

/-- The machine right after reset (10_state.md R44, 70_reset_and_hazards.md R410). Registers the spec leaves
unspecified hold the values of logs 6 and 7; no window cell has a value (log 8); the levels the neighbours drive are
those of log 15. -/
def State.reset : State where
  rd := Reader.reset
  phase := .header
  awaitDist := false
  bfinal := false
  btype := 0
  storedRem := 0
  hlit := 0
  hdist := 0
  hclen := 0
  clIdx := 0
  lenIdx := 0
  matchLen := 0
  matchDist := 0
  copyRem := 0
  clLens := List.replicate 19 0
  lens := List.replicate 320 0
  tCL := []
  tLL := []
  tD := []
  win := []
  wrPtr := 0
  histCnt := 0
  outLen := 0
  out := []
  outData := 0
  outValid := false
  outReady := true
  busy := true
  done := false
  error := false
  errCode := 0
  rst := false
  rstEdge := false
  freeCtr := 0

end Sys2Proof.Machine
end

