-- ==== Sys2Proof/Config.lean ====
section
/-! DEFINITION. What an implementation fixes (00_scope.md R6) and the free values (93_implementation_defined.md). -/

namespace Sys2Proof.Config

/-- The two readings of the stored-block length check (90_conflicts.md C1, 00_scope.md R6 STORED_CHECK). -/
inductive StoredCheck where
  /-- LEN XOR NLEN = 0xFFFF: the spec's choice (42_block_control.md R203) -/
  | complement
  /-- LEN AND NLEN = 0: the recorded alternative -/
  | andZero
  deriving DecidableEq, Repr

/-- STORED_CHECK has the value the spec decides (R203, D4); log 13. -/
def storedCheck : StoredCheck := .complement

/-- WINDOW_SIZE (R6). -/
def windowSize : Nat := 32768

/-- MAX_CODE_LEN of the literal/length and distance codes (R6). -/
def maxCodeLen : Nat := 15

/-- N_CL: code-length code lengths (R6). -/
def nCL : Nat := 19

/-- N_LL_MAX: literal/length code lengths at most (R6). -/
def nLLMax : Nat := 288

/-- N_D_MAX: distance code lengths at most (R6). -/
def nDMax : Nat := 32

/-- Free values: nothing constrains what this returns. The machine asks for one where the spec leaves a value open,
with a counter of State as argument (log 9: how many bits HuffDecode has read when it reports SymbolNotFound, R172,
U6). -/
opaque freeNat : Nat → Nat

end Sys2Proof.Config
end

