-- ==== Sys2Proof/Machine/Tables.lean ====
section
/-! DEFINITION. The constant tables of the block (10_state.md R43): length and distance bases, extra-bit counts, the
code-length order, and the two fixed length vectors, expanded from their bootstraps. -/

namespace Sys2Proof.Machine

/-- lengthBase, index sym - 257 (30_encoding.md R108). -/
def lengthBase : List Nat :=
  [3, 4, 5, 6, 7, 8, 9, 10, 11, 13, 15, 17, 19, 23, 27] ++
  [31, 35, 43, 51, 59, 67, 83, 99, 115, 131, 163, 195, 227, 258]

/-- distanceBase, index code (30_encoding.md R108). -/
def distanceBase : List Nat :=
  [1, 2, 3, 4, 5, 7, 9, 13, 17, 25, 33, 49, 65, 97, 129] ++
  [193, 257, 385, 513, 769, 1025, 1537, 2049, 3073, 4097, 6145, 8193, 12289, 16385, 24577]

/-- LenExtra(s) for a length symbol s in 257..285 (44_symbols.md R255). -/
def lenExtra (sym : Nat) : Nat :=
  if sym ≤ 260 ∨ sym = 285 then 0 else ((sym - 257) >>> 2) - 1

/-- DistExtra(c) for a distance code c in 0..29 (44_symbols.md R260). -/
def distExtra (code : Nat) : Nat :=
  if code = 0 ∨ code = 1 then 0 else (code >>> 1) - 1

/-- CL_ORDER (30_encoding.md R109). -/
def clOrder : List Nat := [16, 17, 18, 0, 8, 7, 9, 6, 10, 5, 11, 4, 12, 3, 13, 2, 14, 1, 15]

/-- Expansion of a bootstrap (41_huffman.md R166): each pair fills the symbols from its start up to the next pair's
start, the last one up to `stop`, which is the start of the source's end marker. -/
def expandBootstrap (stop : Nat) : List (Nat × Nat) → List Nat
  | [] => []
  | [(start, len)] => List.replicate (stop - start) len
  | (start, len) :: (start', len') :: rest =>
    List.replicate (start' - start) len ++ expandBootstrap stop ((start', len') :: rest)

/-- FIXED_LL (41_huffman.md R167). -/
def fixedLL : List (BitVec 4) :=
  (expandBootstrap 288 [(0, 8), (144, 9), (256, 7), (280, 8)]).map (BitVec.ofNat 4)

/-- FIXED_D (41_huffman.md R168). -/
def fixedD : List (BitVec 4) :=
  (expandBootstrap 32 [(0, 5)]).map (BitVec.ofNat 4)

end Sys2Proof.Machine
end

