-- ==== Sys2Proof/Machine/Operands.lean ====
section
/-! DEFINITION. How operands become register values (30_encoding.md R112): exact arithmetic on natural numbers, narrowed
at the end to the register's width (00_scope.md R12: no rule overflows its destination). -/

namespace Sys2Proof.Machine

/-- The match length of length symbol `sym` with extra value x (44_symbols.md R256), 9 bits. -/
def matchLength (sym : Nat) (x : BitVec 5) : BitVec 9 :=
  BitVec.ofNat 9 (lengthBase.getD (sym - 257) 0 + x.toNat)

/-- The match distance of distance code c with extra value y (44_symbols.md R321), 16 bits. -/
def matchDistance (c : Nat) (y : BitVec 13) : BitVec 16 :=
  BitVec.ofNat 16 (distanceBase.getD c 0 + y.toNat)

/-- The stored-block length check under a reading of it (42_block_control.md R203; the parameter STORED_CHECK of
00_scope.md R6). -/
def storedLengthsOk (check : Config.StoredCheck) (len nlen : BitVec 16) : Bool :=
  match check with
  | .complement => (len ^^^ nlen) == 0xFFFF#16
  | .andZero => (len &&& nlen) == 0#16

/-- The code lengths of a table as natural numbers, for the Huffman units. -/
def lengthsOf {w : Nat} (table : List (BitVec w)) : List Nat := table.map BitVec.toNat

/-- `lens` with `n` entries from `start` on set to v (43_dynamic_header.md R232, R236 to R238). -/
def fillLens (lens : List (BitVec 4)) (start n : Nat) (v : BitVec 4) : List (BitVec 4) :=
  lens.take start ++ List.replicate n v ++ lens.drop (start + n)

end Sys2Proof.Machine
end

