-- ==== Sys2Proof/Syntax.lean ====
section
/-! DEFINITION. The syntax: one constructor for each row of spec/opcode_table.json (30_encoding.md R115). -/

namespace Sys2Proof

/-- The stream elements. Operands are the values AFTER the additions of 30_encoding.md R112. -/
inductive Instr where
  /-- BLOCK_STORED f (R193) -/
  | blockStored (f : Bool)
  /-- BLOCK_FIXED f (R194) -/
  | blockFixed (f : Bool)
  /-- BLOCK_DYNAMIC f (R195) -/
  | blockDynamic (f : Bool)
  /-- BLOCK_RESERVED f (R196) -/
  | blockReserved (f : Bool)
  /-- STORED_HDR len, nlen (R200) -/
  | storedHdr (len nlen : BitVec 16)
  /-- STORED_BYTE b (R204) -/
  | storedByte (b : Byte)
  /-- DYN_COUNTS hlit, hdist, hclen (R221) -/
  | dynCounts (hlit : BitVec 9) (hdist : BitVec 6) (hclen : BitVec 5)
  /-- CLLEN v (R227) -/
  | cllen (v : BitVec 3)
  /-- CL_LEN n, code-length symbols 0 to 15 (R232) -/
  | clLen (n : BitVec 4)
  /-- CL_REP r, code-length symbol 16 (R236) -/
  | clRep (r : BitVec 8)
  /-- CL_ZERO3 r, code-length symbol 17 (R237) -/
  | clZero3 (r : BitVec 8)
  /-- CL_ZERO11 r, code-length symbol 18 (R238) -/
  | clZero11 (r : BitVec 8)
  /-- LIT b, literal/length symbols 0 to 255 (R252) -/
  | lit (b : Byte)
  /-- EOB, literal/length symbol 256 (R253) -/
  | eob
  /-- LEN_257 x (R261) -/
  | len257 (x : BitVec 5)
  /-- LEN_258 x (R262) -/
  | len258 (x : BitVec 5)
  /-- LEN_259 x (R263) -/
  | len259 (x : BitVec 5)
  /-- LEN_260 x (R264) -/
  | len260 (x : BitVec 5)
  /-- LEN_261 x (R265) -/
  | len261 (x : BitVec 5)
  /-- LEN_262 x (R266) -/
  | len262 (x : BitVec 5)
  /-- LEN_263 x (R267) -/
  | len263 (x : BitVec 5)
  /-- LEN_264 x (R268) -/
  | len264 (x : BitVec 5)
  /-- LEN_265 x (R269) -/
  | len265 (x : BitVec 5)
  /-- LEN_266 x (R270) -/
  | len266 (x : BitVec 5)
  /-- LEN_267 x (R271) -/
  | len267 (x : BitVec 5)
  /-- LEN_268 x (R272) -/
  | len268 (x : BitVec 5)
  /-- LEN_269 x (R273) -/
  | len269 (x : BitVec 5)
  /-- LEN_270 x (R274) -/
  | len270 (x : BitVec 5)
  /-- LEN_271 x (R275) -/
  | len271 (x : BitVec 5)
  /-- LEN_272 x (R276) -/
  | len272 (x : BitVec 5)
  /-- LEN_273 x (R277) -/
  | len273 (x : BitVec 5)
  /-- LEN_274 x (R278) -/
  | len274 (x : BitVec 5)
  /-- LEN_275 x (R279) -/
  | len275 (x : BitVec 5)
  /-- LEN_276 x (R280) -/
  | len276 (x : BitVec 5)
  /-- LEN_277 x (R281) -/
  | len277 (x : BitVec 5)
  /-- LEN_278 x (R282) -/
  | len278 (x : BitVec 5)
  /-- LEN_279 x (R283) -/
  | len279 (x : BitVec 5)
  /-- LEN_280 x (R284) -/
  | len280 (x : BitVec 5)
  /-- LEN_281 x (R285) -/
  | len281 (x : BitVec 5)
  /-- LEN_282 x (R286) -/
  | len282 (x : BitVec 5)
  /-- LEN_283 x (R287) -/
  | len283 (x : BitVec 5)
  /-- LEN_284 x (R288) -/
  | len284 (x : BitVec 5)
  /-- LEN_285 x (R289) -/
  | len285 (x : BitVec 5)
  /-- LL_INVALID s, literal/length symbols 286 and 287 (R257) -/
  | llInvalid (s : BitVec 9)
  /-- DIST_0 y (R290) -/
  | dist0 (y : BitVec 13)
  /-- DIST_1 y (R291) -/
  | dist1 (y : BitVec 13)
  /-- DIST_2 y (R292) -/
  | dist2 (y : BitVec 13)
  /-- DIST_3 y (R293) -/
  | dist3 (y : BitVec 13)
  /-- DIST_4 y (R294) -/
  | dist4 (y : BitVec 13)
  /-- DIST_5 y (R295) -/
  | dist5 (y : BitVec 13)
  /-- DIST_6 y (R296) -/
  | dist6 (y : BitVec 13)
  /-- DIST_7 y (R297) -/
  | dist7 (y : BitVec 13)
  /-- DIST_8 y (R298) -/
  | dist8 (y : BitVec 13)
  /-- DIST_9 y (R299) -/
  | dist9 (y : BitVec 13)
  /-- DIST_10 y (R300) -/
  | dist10 (y : BitVec 13)
  /-- DIST_11 y (R301) -/
  | dist11 (y : BitVec 13)
  /-- DIST_12 y (R302) -/
  | dist12 (y : BitVec 13)
  /-- DIST_13 y (R303) -/
  | dist13 (y : BitVec 13)
  /-- DIST_14 y (R304) -/
  | dist14 (y : BitVec 13)
  /-- DIST_15 y (R305) -/
  | dist15 (y : BitVec 13)
  /-- DIST_16 y (R306) -/
  | dist16 (y : BitVec 13)
  /-- DIST_17 y (R307) -/
  | dist17 (y : BitVec 13)
  /-- DIST_18 y (R308) -/
  | dist18 (y : BitVec 13)
  /-- DIST_19 y (R309) -/
  | dist19 (y : BitVec 13)
  /-- DIST_20 y (R310) -/
  | dist20 (y : BitVec 13)
  /-- DIST_21 y (R311) -/
  | dist21 (y : BitVec 13)
  /-- DIST_22 y (R312) -/
  | dist22 (y : BitVec 13)
  /-- DIST_23 y (R313) -/
  | dist23 (y : BitVec 13)
  /-- DIST_24 y (R314) -/
  | dist24 (y : BitVec 13)
  /-- DIST_25 y (R315) -/
  | dist25 (y : BitVec 13)
  /-- DIST_26 y (R316) -/
  | dist26 (y : BitVec 13)
  /-- DIST_27 y (R317) -/
  | dist27 (y : BitVec 13)
  /-- DIST_28 y (R318) -/
  | dist28 (y : BitVec 13)
  /-- DIST_29 y (R319) -/
  | dist29 (y : BitVec 13)
  /-- DIST_INVALID c, distance codes 30 and 31 (R320) -/
  | distInvalid (c : BitVec 5)
  deriving DecidableEq, Repr

end Sys2Proof
end

