-- ==== Sys2Proof/WellFormed.lean ====
section
/-! DEFINITION. Well-formed instructions: the operands lie in the ranges 30_encoding.md R112 and R115 give them. The
decoder answers well-formed instructions only. -/

namespace Sys2Proof

/-- `v` lies in `lo..hi` (both ends included). -/
def inRange (lo hi v : Nat) : Bool := decide (lo ≤ v) && decide (v ≤ hi)

/-- The operands are values the encoding can carry (R104, R105, R106, R107, R115). -/
def Instr.wellFormed : Instr → Bool
  | .blockStored _ => true
  | .blockFixed _ => true
  | .blockDynamic _ => true
  | .blockReserved _ => true
  | .storedHdr _ _ => true
  | .storedByte _ => true
  | .dynCounts hlit hdist hclen =>
    inRange 257 288 hlit.toNat && inRange 1 32 hdist.toNat && inRange 4 19 hclen.toNat
  | .cllen _ => true
  | .clLen _ => true
  | .clRep r => inRange 3 6 r.toNat
  | .clZero3 r => inRange 3 10 r.toNat
  | .clZero11 r => inRange 11 138 r.toNat
  | .lit _ => true
  | .eob => true
  | .len257 x => decide (x.toNat < 2 ^ Machine.lenExtra 257)
  | .len258 x => decide (x.toNat < 2 ^ Machine.lenExtra 258)
  | .len259 x => decide (x.toNat < 2 ^ Machine.lenExtra 259)
  | .len260 x => decide (x.toNat < 2 ^ Machine.lenExtra 260)
  | .len261 x => decide (x.toNat < 2 ^ Machine.lenExtra 261)
  | .len262 x => decide (x.toNat < 2 ^ Machine.lenExtra 262)
  | .len263 x => decide (x.toNat < 2 ^ Machine.lenExtra 263)
  | .len264 x => decide (x.toNat < 2 ^ Machine.lenExtra 264)
  | .len265 x => decide (x.toNat < 2 ^ Machine.lenExtra 265)
  | .len266 x => decide (x.toNat < 2 ^ Machine.lenExtra 266)
  | .len267 x => decide (x.toNat < 2 ^ Machine.lenExtra 267)
  | .len268 x => decide (x.toNat < 2 ^ Machine.lenExtra 268)
  | .len269 x => decide (x.toNat < 2 ^ Machine.lenExtra 269)
  | .len270 x => decide (x.toNat < 2 ^ Machine.lenExtra 270)
  | .len271 x => decide (x.toNat < 2 ^ Machine.lenExtra 271)
  | .len272 x => decide (x.toNat < 2 ^ Machine.lenExtra 272)
  | .len273 x => decide (x.toNat < 2 ^ Machine.lenExtra 273)
  | .len274 x => decide (x.toNat < 2 ^ Machine.lenExtra 274)
  | .len275 x => decide (x.toNat < 2 ^ Machine.lenExtra 275)
  | .len276 x => decide (x.toNat < 2 ^ Machine.lenExtra 276)
  | .len277 x => decide (x.toNat < 2 ^ Machine.lenExtra 277)
  | .len278 x => decide (x.toNat < 2 ^ Machine.lenExtra 278)
  | .len279 x => decide (x.toNat < 2 ^ Machine.lenExtra 279)
  | .len280 x => decide (x.toNat < 2 ^ Machine.lenExtra 280)
  | .len281 x => decide (x.toNat < 2 ^ Machine.lenExtra 281)
  | .len282 x => decide (x.toNat < 2 ^ Machine.lenExtra 282)
  | .len283 x => decide (x.toNat < 2 ^ Machine.lenExtra 283)
  | .len284 x => decide (x.toNat < 2 ^ Machine.lenExtra 284)
  | .len285 x => decide (x.toNat < 2 ^ Machine.lenExtra 285)
  | .llInvalid s => inRange 286 287 s.toNat
  | .dist0 y => decide (y.toNat < 2 ^ Machine.distExtra 0)
  | .dist1 y => decide (y.toNat < 2 ^ Machine.distExtra 1)
  | .dist2 y => decide (y.toNat < 2 ^ Machine.distExtra 2)
  | .dist3 y => decide (y.toNat < 2 ^ Machine.distExtra 3)
  | .dist4 y => decide (y.toNat < 2 ^ Machine.distExtra 4)
  | .dist5 y => decide (y.toNat < 2 ^ Machine.distExtra 5)
  | .dist6 y => decide (y.toNat < 2 ^ Machine.distExtra 6)
  | .dist7 y => decide (y.toNat < 2 ^ Machine.distExtra 7)
  | .dist8 y => decide (y.toNat < 2 ^ Machine.distExtra 8)
  | .dist9 y => decide (y.toNat < 2 ^ Machine.distExtra 9)
  | .dist10 y => decide (y.toNat < 2 ^ Machine.distExtra 10)
  | .dist11 y => decide (y.toNat < 2 ^ Machine.distExtra 11)
  | .dist12 y => decide (y.toNat < 2 ^ Machine.distExtra 12)
  | .dist13 y => decide (y.toNat < 2 ^ Machine.distExtra 13)
  | .dist14 y => decide (y.toNat < 2 ^ Machine.distExtra 14)
  | .dist15 y => decide (y.toNat < 2 ^ Machine.distExtra 15)
  | .dist16 y => decide (y.toNat < 2 ^ Machine.distExtra 16)
  | .dist17 y => decide (y.toNat < 2 ^ Machine.distExtra 17)
  | .dist18 y => decide (y.toNat < 2 ^ Machine.distExtra 18)
  | .dist19 y => decide (y.toNat < 2 ^ Machine.distExtra 19)
  | .dist20 y => decide (y.toNat < 2 ^ Machine.distExtra 20)
  | .dist21 y => decide (y.toNat < 2 ^ Machine.distExtra 21)
  | .dist22 y => decide (y.toNat < 2 ^ Machine.distExtra 22)
  | .dist23 y => decide (y.toNat < 2 ^ Machine.distExtra 23)
  | .dist24 y => decide (y.toNat < 2 ^ Machine.distExtra 24)
  | .dist25 y => decide (y.toNat < 2 ^ Machine.distExtra 25)
  | .dist26 y => decide (y.toNat < 2 ^ Machine.distExtra 26)
  | .dist27 y => decide (y.toNat < 2 ^ Machine.distExtra 27)
  | .dist28 y => decide (y.toNat < 2 ^ Machine.distExtra 28)
  | .dist29 y => decide (y.toNat < 2 ^ Machine.distExtra 29)
  | .distInvalid c => inRange 30 31 c.toNat

end Sys2Proof
end

