-- ==== Sys2Proof/Decode.lean ====
section
/-! DEFINITION. The decoder and, after it, the encoder: stream bits to a stream element and back (30_encoding.md). What
the bits mean depends on the format the phase asks for and on the code tables in force, gathered in `Ctx`. -/

namespace Sys2Proof

open Sys2Proof.Machine

/-- What decoding an element depends on besides its bits: the format the phase asks for (R116), the length vectors of
the three code tables (10_state.md R36), and whether a code length has been produced already in this header
(43_dynamic_header.md R233: code-length symbol 16 is a fault before its extra bits are read otherwise, R236). -/
structure Ctx where
  fmt : Format
  tCL : List Nat
  tLL : List Nat
  tD : List Nat
  hasPrev : Bool
  deriving DecidableEq, Repr

/-- What the decoder answers, on any bits. -/
inductive Decoded where
  /-- an element and how many bits it has -/
  | ok (i : Instr) (used : Nat)
  /-- the bits end inside the element; `k` is the fault to raise if the input has ended (R149) -/
  | short (k : ErrKind)
  /-- no element begins with these bits: the fault to raise, and how many bits the decoder has read then -/
  | reject (k : ErrKind) (used : Nat)
  deriving DecidableEq, Repr

/-- The format of an element (30_encoding.md R116). -/
def Instr.format : Instr → Format
  | .blockStored _ => .bh
  | .blockFixed _ => .bh
  | .blockDynamic _ => .bh
  | .blockReserved _ => .bh
  | .storedHdr _ _ => .stHdr
  | .storedByte _ => .stData
  | .dynCounts _ _ _ => .dhCounts
  | .cllen _ => .dhCllen
  | .clLen _ => .cls
  | .clRep _ => .cls
  | .clZero3 _ => .cls
  | .clZero11 _ => .cls
  | .lit _ => .ll
  | .eob => .ll
  | .len257 _ => .ll
  | .len258 _ => .ll
  | .len259 _ => .ll
  | .len260 _ => .ll
  | .len261 _ => .ll
  | .len262 _ => .ll
  | .len263 _ => .ll
  | .len264 _ => .ll
  | .len265 _ => .ll
  | .len266 _ => .ll
  | .len267 _ => .ll
  | .len268 _ => .ll
  | .len269 _ => .ll
  | .len270 _ => .ll
  | .len271 _ => .ll
  | .len272 _ => .ll
  | .len273 _ => .ll
  | .len274 _ => .ll
  | .len275 _ => .ll
  | .len276 _ => .ll
  | .len277 _ => .ll
  | .len278 _ => .ll
  | .len279 _ => .ll
  | .len280 _ => .ll
  | .len281 _ => .ll
  | .len282 _ => .ll
  | .len283 _ => .ll
  | .len284 _ => .ll
  | .len285 _ => .ll
  | .llInvalid _ => .ll
  | .dist0 _ => .d
  | .dist1 _ => .d
  | .dist2 _ => .d
  | .dist3 _ => .d
  | .dist4 _ => .d
  | .dist5 _ => .d
  | .dist6 _ => .d
  | .dist7 _ => .d
  | .dist8 _ => .d
  | .dist9 _ => .d
  | .dist10 _ => .d
  | .dist11 _ => .d
  | .dist12 _ => .d
  | .dist13 _ => .d
  | .dist14 _ => .d
  | .dist15 _ => .d
  | .dist16 _ => .d
  | .dist17 _ => .d
  | .dist18 _ => .d
  | .dist19 _ => .d
  | .dist20 _ => .d
  | .dist21 _ => .d
  | .dist22 _ => .d
  | .dist23 _ => .d
  | .dist24 _ => .d
  | .dist25 _ => .d
  | .dist26 _ => .d
  | .dist27 _ => .d
  | .dist28 _ => .d
  | .dist29 _ => .d
  | .distInvalid _ => .d

/-- The decoded selector of an element, as opcode_table.json matches it (R116): the 3-bit header integer for BH, the
decoded symbol for CLS, LL and D, and 0 for the formats that have one element each. -/
def Instr.selector : Instr → Nat
  | .blockStored f => f.toNat + 2 * 0
  | .blockFixed f => f.toNat + 2 * 1
  | .blockDynamic f => f.toNat + 2 * 2
  | .blockReserved f => f.toNat + 2 * 3
  | .storedHdr _ _ => 0
  | .storedByte _ => 0
  | .dynCounts _ _ _ => 0
  | .cllen _ => 0
  | .clLen n => n.toNat
  | .clRep _ => 16
  | .clZero3 _ => 17
  | .clZero11 _ => 18
  | .lit b => b.toNat
  | .eob => 256
  | .len257 _ => 257
  | .len258 _ => 258
  | .len259 _ => 259
  | .len260 _ => 260
  | .len261 _ => 261
  | .len262 _ => 262
  | .len263 _ => 263
  | .len264 _ => 264
  | .len265 _ => 265
  | .len266 _ => 266
  | .len267 _ => 267
  | .len268 _ => 268
  | .len269 _ => 269
  | .len270 _ => 270
  | .len271 _ => 271
  | .len272 _ => 272
  | .len273 _ => 273
  | .len274 _ => 274
  | .len275 _ => 275
  | .len276 _ => 276
  | .len277 _ => 277
  | .len278 _ => 278
  | .len279 _ => 279
  | .len280 _ => 280
  | .len281 _ => 281
  | .len282 _ => 282
  | .len283 _ => 283
  | .len284 _ => 284
  | .len285 _ => 285
  | .llInvalid s => s.toNat
  | .dist0 _ => 0
  | .dist1 _ => 1
  | .dist2 _ => 2
  | .dist3 _ => 3
  | .dist4 _ => 4
  | .dist5 _ => 5
  | .dist6 _ => 6
  | .dist7 _ => 7
  | .dist8 _ => 8
  | .dist9 _ => 9
  | .dist10 _ => 10
  | .dist11 _ => 11
  | .dist12 _ => 12
  | .dist13 _ => 13
  | .dist14 _ => 14
  | .dist15 _ => 15
  | .dist16 _ => 16
  | .dist17 _ => 17
  | .dist18 _ => 18
  | .dist19 _ => 19
  | .dist20 _ => 20
  | .dist21 _ => 21
  | .dist22 _ => 22
  | .dist23 _ => 23
  | .dist24 _ => 24
  | .dist25 _ => 25
  | .dist26 _ => 26
  | .dist27 _ => 27
  | .dist28 _ => 28
  | .dist29 _ => 29
  | .distInvalid c => c.toNat

/-- The plain integer fields of an element in stream order, each a width and a value: all of BH, ST and DH, the extra
bits of CLS, LL and D (30_encoding.md R102 to R107). The PAD bits of a stored header are not among them: they carry no
operand, and AlignByte skips them before the fields are read (R201). -/
def Instr.fields : Instr → List (Nat × Nat)
  | .blockStored f => [(1, f.toNat), (2, 0)]
  | .blockFixed f => [(1, f.toNat), (2, 1)]
  | .blockDynamic f => [(1, f.toNat), (2, 2)]
  | .blockReserved f => [(1, f.toNat), (2, 3)]
  | .storedHdr len nlen => [(16, len.toNat), (16, nlen.toNat)]
  | .storedByte b => [(8, b.toNat)]
  | .dynCounts hlit hdist hclen => [(5, hlit.toNat - 257), (5, hdist.toNat - 1), (4, hclen.toNat - 4)]
  | .cllen v => [(3, v.toNat)]
  | .clLen _ => []
  | .clRep r => [(2, r.toNat - 3)]
  | .clZero3 r => [(3, r.toNat - 3)]
  | .clZero11 r => [(7, r.toNat - 11)]
  | .lit _ => []
  | .eob => []
  | .len257 x => [(lenExtra 257, x.toNat)]
  | .len258 x => [(lenExtra 258, x.toNat)]
  | .len259 x => [(lenExtra 259, x.toNat)]
  | .len260 x => [(lenExtra 260, x.toNat)]
  | .len261 x => [(lenExtra 261, x.toNat)]
  | .len262 x => [(lenExtra 262, x.toNat)]
  | .len263 x => [(lenExtra 263, x.toNat)]
  | .len264 x => [(lenExtra 264, x.toNat)]
  | .len265 x => [(lenExtra 265, x.toNat)]
  | .len266 x => [(lenExtra 266, x.toNat)]
  | .len267 x => [(lenExtra 267, x.toNat)]
  | .len268 x => [(lenExtra 268, x.toNat)]
  | .len269 x => [(lenExtra 269, x.toNat)]
  | .len270 x => [(lenExtra 270, x.toNat)]
  | .len271 x => [(lenExtra 271, x.toNat)]
  | .len272 x => [(lenExtra 272, x.toNat)]
  | .len273 x => [(lenExtra 273, x.toNat)]
  | .len274 x => [(lenExtra 274, x.toNat)]
  | .len275 x => [(lenExtra 275, x.toNat)]
  | .len276 x => [(lenExtra 276, x.toNat)]
  | .len277 x => [(lenExtra 277, x.toNat)]
  | .len278 x => [(lenExtra 278, x.toNat)]
  | .len279 x => [(lenExtra 279, x.toNat)]
  | .len280 x => [(lenExtra 280, x.toNat)]
  | .len281 x => [(lenExtra 281, x.toNat)]
  | .len282 x => [(lenExtra 282, x.toNat)]
  | .len283 x => [(lenExtra 283, x.toNat)]
  | .len284 x => [(lenExtra 284, x.toNat)]
  | .len285 x => [(lenExtra 285, x.toNat)]
  | .llInvalid _ => []
  | .dist0 y => [(distExtra 0, y.toNat)]
  | .dist1 y => [(distExtra 1, y.toNat)]
  | .dist2 y => [(distExtra 2, y.toNat)]
  | .dist3 y => [(distExtra 3, y.toNat)]
  | .dist4 y => [(distExtra 4, y.toNat)]
  | .dist5 y => [(distExtra 5, y.toNat)]
  | .dist6 y => [(distExtra 6, y.toNat)]
  | .dist7 y => [(distExtra 7, y.toNat)]
  | .dist8 y => [(distExtra 8, y.toNat)]
  | .dist9 y => [(distExtra 9, y.toNat)]
  | .dist10 y => [(distExtra 10, y.toNat)]
  | .dist11 y => [(distExtra 11, y.toNat)]
  | .dist12 y => [(distExtra 12, y.toNat)]
  | .dist13 y => [(distExtra 13, y.toNat)]
  | .dist14 y => [(distExtra 14, y.toNat)]
  | .dist15 y => [(distExtra 15, y.toNat)]
  | .dist16 y => [(distExtra 16, y.toNat)]
  | .dist17 y => [(distExtra 17, y.toNat)]
  | .dist18 y => [(distExtra 18, y.toNat)]
  | .dist19 y => [(distExtra 19, y.toNat)]
  | .dist20 y => [(distExtra 20, y.toNat)]
  | .dist21 y => [(distExtra 21, y.toNat)]
  | .dist22 y => [(distExtra 22, y.toNat)]
  | .dist23 y => [(distExtra 23, y.toNat)]
  | .dist24 y => [(distExtra 24, y.toNat)]
  | .dist25 y => [(distExtra 25, y.toNat)]
  | .dist26 y => [(distExtra 26, y.toNat)]
  | .dist27 y => [(distExtra 27, y.toNat)]
  | .dist28 y => [(distExtra 28, y.toNat)]
  | .dist29 y => [(distExtra 29, y.toNat)]
  | .distInvalid _ => []

/-- The element emits an output byte (R382: only LIT and STORED_BYTE do; a COPY step is no element). -/
def Instr.emits : Instr → Bool
  | .lit _ => true
  | .storedByte _ => true
  | _ => false

/-- The 29 length elements, index sym - 257 (R106). -/
def lenCtors : List (BitVec 5 → Instr) :=
  [Instr.len257, Instr.len258, Instr.len259, Instr.len260, Instr.len261, Instr.len262, Instr.len263, Instr.len264, Instr.len265, Instr.len266] ++
  [Instr.len267, Instr.len268, Instr.len269, Instr.len270, Instr.len271, Instr.len272, Instr.len273, Instr.len274, Instr.len275, Instr.len276] ++
  [Instr.len277, Instr.len278, Instr.len279, Instr.len280, Instr.len281, Instr.len282, Instr.len283, Instr.len284, Instr.len285]

/-- The 30 distance elements, index code (R107). -/
def distCtors : List (BitVec 13 → Instr) :=
  [Instr.dist0, Instr.dist1, Instr.dist2, Instr.dist3, Instr.dist4, Instr.dist5, Instr.dist6, Instr.dist7, Instr.dist8, Instr.dist9] ++
  [Instr.dist10, Instr.dist11, Instr.dist12, Instr.dist13, Instr.dist14, Instr.dist15, Instr.dist16, Instr.dist17, Instr.dist18, Instr.dist19] ++
  [Instr.dist20, Instr.dist21, Instr.dist22, Instr.dist23, Instr.dist24, Instr.dist25, Instr.dist26, Instr.dist27, Instr.dist28, Instr.dist29]

/-- Read one integer field of `n` bits; the element ends inside it if fewer are there, which is TruncatedInput at the
end of the input (40_bitreader.md R149). -/
def withField (n : Nat) (bits : List Bool) (k : Nat → Decoded) : Decoded :=
  match fieldVal n bits with
  | none => .short .truncatedInput
  | some v => k v

/-- Read one Huffman symbol; the end of the bits inside a code and an absent code are both SymbolNotFound
(41_huffman.md R172). `k` gets the symbol and the length of its code. -/
def withSymbol (L : List Nat) (bits : List Bool) (k : Nat → Nat → Decoded) : Decoded :=
  match huffDecode L bits with
  | .symbol s n => k s n
  | .short => .short .symbolNotFound
  | .absent n => .reject .symbolNotFound n

/-- The block header element of BFINAL and BTYPE (42_block_control.md R192). -/
def blockOf (f : Bool) (btype : Nat) : Instr :=
  match btype with
  | 0 => .blockStored f
  | 1 => .blockFixed f
  | 2 => .blockDynamic f
  | _ => .blockReserved f

/-- Format BH (R102, R191). -/
def decodeHeader (bits : List Bool) : Decoded :=
  withField 1 bits fun f =>
  withField 2 (bits.drop 1) fun btype => .ok (blockOf (f == 1) btype) 3

/-- Format ST/HDR, from the first aligned bit on (R103, R200). -/
def decodeStoredHdr (bits : List Bool) : Decoded :=
  withField 16 bits fun len =>
  withField 16 (bits.drop 16) fun nlen => .ok (.storedHdr (BitVec.ofNat 16 len) (BitVec.ofNat 16 nlen)) 32

/-- Format ST/DATA (R103, R204). -/
def decodeStoredByte (bits : List Bool) : Decoded :=
  withField 8 bits fun b => .ok (.storedByte (BitVec.ofNat 8 b)) 8

/-- Format DH/COUNTS (R104, R221 to R224). -/
def decodeCounts (bits : List Bool) : Decoded :=
  withField 5 bits fun l =>
  withField 5 (bits.drop 5) fun d =>
  withField 4 (bits.drop 10) fun c =>
    .ok (.dynCounts (BitVec.ofNat 9 (l + 257)) (BitVec.ofNat 6 (d + 1)) (BitVec.ofNat 5 (c + 4))) 14

/-- Format DH/CLLEN (R104, R227). -/
def decodeCllen (bits : List Bool) : Decoded :=
  withField 3 bits fun v => .ok (.cllen (BitVec.ofNat 3 v)) 3

/-- What follows code-length symbol s, whose code had n bits; `rest` are the bits after the code (R105, R230, R232,
R235 to R238). -/
def decodeClsRest (hasPrev : Bool) (rest : List Bool) (s n : Nat) : Decoded :=
  if s ≤ 15 then .ok (.clLen (BitVec.ofNat 4 s)) n
  else if s = 16 then
    if hasPrev then withField 2 rest fun v => .ok (.clRep (BitVec.ofNat 8 (v + 3))) (n + 2)
    else .reject .noPreviousLength n
  else if s = 17 then withField 3 rest fun v => .ok (.clZero3 (BitVec.ofNat 8 (v + 3))) (n + 3)
  else if s = 18 then withField 7 rest fun v => .ok (.clZero11 (BitVec.ofNat 8 (v + 11))) (n + 7)
  else .reject .wrongSymbol n

/-- What follows literal/length symbol s (R106, R251). -/
def decodeLLRest (rest : List Bool) (s n : Nat) : Decoded :=
  if s ≤ 255 then .ok (.lit (BitVec.ofNat 8 s)) n
  else if s = 256 then .ok .eob n
  else
    match lenCtors[s - 257]? with
    | some mk => withField (lenExtra s) rest fun x => .ok (mk (BitVec.ofNat 5 x)) (n + lenExtra s)
    | none => if s ≤ 287 then .ok (.llInvalid (BitVec.ofNat 9 s)) n else .reject .wrongSymbol n

/-- What follows distance code c (R107, R251, R259). -/
def decodeDistRest (rest : List Bool) (c n : Nat) : Decoded :=
  match distCtors[c]? with
  | some mk => withField (distExtra c) rest fun y => .ok (mk (BitVec.ofNat 13 y)) (n + distExtra c)
  | none => if c ≤ 31 then .ok (.distInvalid (BitVec.ofNat 5 c)) n else .reject .wrongSymbol n

/-- The decoder: the element that the bits begin with, in the context c. Total on any bits. -/
def decode (c : Ctx) (bits : List Bool) : Decoded :=
  match c.fmt with
  | .bh => decodeHeader bits
  | .stHdr => decodeStoredHdr bits
  | .stData => decodeStoredByte bits
  | .dhCounts => decodeCounts bits
  | .dhCllen => decodeCllen bits
  | .cls => withSymbol c.tCL bits fun s n => decodeClsRest c.hasPrev (bits.drop n) s n
  | .ll => withSymbol c.tLL bits fun s n => decodeLLRest (bits.drop n) s n
  | .d => withSymbol c.tD bits fun s n => decodeDistRest (bits.drop n) s n

/-- The Huffman code in front of an element's fields: none of the three tables for BH, ST and DH, and none at all where
the symbol has no code in its table. -/
def encodeCode (c : Ctx) (i : Instr) : Option (List Bool) :=
  match i.format with
  | .bh => some []
  | .stHdr => some []
  | .stData => some []
  | .dhCounts => some []
  | .dhCllen => some []
  | .cls => encodeSymbol c.tCL i.selector
  | .ll => encodeSymbol c.tLL i.selector
  | .d => encodeSymbol c.tD i.selector

/-- The bits of a list of integer fields, in order. -/
def encodeFields : List (Nat × Nat) → List Bool
  | [] => []
  | (n, v) :: fs => fieldBits n v ++ encodeFields fs

/-- The encoder: the stream bits of an element under the tables of c, written from the same rules R102 to R107; none
where its symbol has no code in the table in force. -/
def encode (c : Ctx) (i : Instr) : Option (List Bool) :=
  (encodeCode c i).map (fun code => code ++ encodeFields i.fields)

/-- The rows of spec/opcode_table.json that give a selector: format, match and mask, in the table's order (R116). -/
def tableRows : List (Format × Nat × Nat) :=
  [(Format.bh, 0, 6), (Format.bh, 2, 6), (Format.bh, 4, 6), (Format.bh, 6, 6)] ++
  [(Format.cls, 0, 16), (Format.cls, 16, 31), (Format.cls, 17, 31), (Format.cls, 18, 31), (Format.ll, 0, 256)] ++
  (List.range' 256 30).map (fun s => (Format.ll, s, 511)) ++ [(Format.ll, 286, 510)] ++
  (List.range 30).map (fun c => (Format.d, c, 31)) ++ [(Format.d, 30, 30)]

/-- Bits the selector of a format has in the opcode table's numbering (R116). -/
def selectorWidth : Format → Nat
  | .bh => 3
  | .cls => 5
  | .ll => 9
  | .d => 5
  | _ => 0

/-- A table word of nbits bits can be a word of this format: a 9-bit literal/length selector needs more than one byte,
and no row of BH or CLS is given more than one (log 19). -/
def widthFits (nbits : Nat) : Format → Bool
  | .ll => decide (8 < nbits)
  | .d => true
  | _ => decide (nbits ≤ 8)

/-- The format and selector that a table word stands for (log 19). The table's numbering carries no format (R116: the
phase decides it), so rows of different formats share words. First the first row whose match value is the whole word
(operands zero), then the first row its low bits select. -/
def tableRowOf (nbits w : Nat) : Option (Format × Nat) :=
  match tableRows.find? (fun r => widthFits nbits r.1 && r.2.1 == w) with
  | some r => some (r.1, w)
  | none =>
    (tableRows.find? (fun r => widthFits nbits r.1 && (w % 2 ^ selectorWidth r.1) &&& r.2.2 == r.2.1)).map
      (fun r => (r.1, w % 2 ^ selectorWidth r.1))

/-- The tables under which a table word is laid out: the fixed ones, and for the code-length alphabet nineteen codes of
five bits, whose canonical code is the symbol itself (log 19). -/
def loaderCtx (fmt : Format) : Ctx where
  fmt := fmt
  tCL := List.replicate 19 5
  tLL := fixedLL.map BitVec.toNat
  tD := fixedD.map BitVec.toNat
  hasPrev := true

/-- The stream bits of a table word: the selector's code under `loaderCtx`, then the word's bits above the selector,
then zeros, `64` bits in all at least (no element is longer than 48 bits, R113). -/
def tableWordBits (fmt : Format) (sel w : Nat) : List Bool :=
  let above := fieldBits 16 (w / 2 ^ selectorWidth fmt) ++ List.replicate 48 false
  match fmt with
  | .bh => fieldBits 3 sel ++ above
  | .cls => (encodeSymbol (loaderCtx fmt).tCL sel).getD [] ++ above
  | .ll => (encodeSymbol (loaderCtx fmt).tLL sel).getD [] ++ above
  | .d => (encodeSymbol (loaderCtx fmt).tD sel).getD [] ++ above
  | _ => above

/-- The instruction the decoder reads from a word numbered as spec/opcode_table.json numbers it (log 19). -/
def decodeTableWord (nbits w : Nat) : Option Instr :=
  match tableRowOf nbits w with
  | none => none
  | some (fmt, sel) =>
    match decode (loaderCtx fmt) (tableWordBits fmt sel w) with
    | .ok i _ => some i
    | .short _ => none
    | .reject _ _ => none

end Sys2Proof
end

