-- ==== Sys2Proof/Machine/Flags.lean ====
section
/-! DEFINITION. The one-bit values and the status registers (10_state.md R33, R39). The block has no condition codes and
no flag that arithmetic sets (R33, 00_scope.md R12); what steers control is gathered here. -/

namespace Sys2Proof.Machine

/-- The error code of a fault kind on err_code[3:0] (60_exceptions.md R371). -/
def errCodeOf : ErrKind → BitVec 4
  | .wrongUncompressedBlockLengths => 1
  | .wrongBlockType => 2
  | .wrongSymbol => 3
  | .symbolNotFound => 4
  | .truncatedInput => 5
  | .distanceTooFar => 6
  | .noPreviousLength => 7
  | .codeLengthOverrun => 8
  | .oversubscribedCode => 9

/-- `phase` is one of the two terminal phases (R27). -/
def isTerminal : Phase → Bool
  | .done => true
  | .error => true
  | .header => false
  | .storedLen => false
  | .storedCopy => false
  | .dynCounts => false
  | .dynCllens => false
  | .dynLens => false
  | .symbol => false
  | .copy => false

/-- The value busy is to have (R39): a step is still to come, or an output byte waits to be taken. -/
def State.busyValue (s : State) : Bool := !isTerminal s.phase || s.outValid

/-- The value done is to have (R39, 42_block_control.md R198): DONE reached and every emitted byte taken. -/
def State.doneValue (s : State) : Bool := decide (s.phase = .done) && !s.outValid

/-- Bring busy and done up to date; every operation that changes the phase or the output port ends with it. -/
def State.settle (s : State) : State := { s with busy := s.busyValue, done := s.doneValue }

/-- have_prev (R33, 43_dynamic_header.md R233): a code length has been produced in this header. -/
def State.havePrev (s : State) : Bool := decide (0 < s.lenIdx.toNat)

end Sys2Proof.Machine
end

