-- ==== Sys2Proof/Machine/Reader.lean ====
section
/-! DEFINITION. The bit reader (40_bitreader.md): the only unit that touches the input. A primitive that finds no byte
answers none: the step then holds, or, where the upstream has declared the end of the stream, the input is exhausted
(R141, R149). -/

namespace Sys2Proof.Machine

/-- NeedByte (R141): make input byte br_index present in br_byte. -/
def Reader.needByte (r : Reader) : Option Reader :=
  if r.brHave then some r
  else
    match r.input[r.brIndex]? with
    | some b => some { r with brByte := b, brHave := true, inCnt := r.inCnt + 1 }
    | none => none

/-- The cursor one bit on (R142): the eighth bit of a byte drops the byte. -/
def Reader.bump (r : Reader) : Reader :=
  if r.brBit = 7 then { r with brBit := 0, brIndex := r.brIndex + 1, brHave := false }
  else { r with brBit := r.brBit + 1 }

/-- GetBit (R142). -/
def Reader.getBit (r : Reader) : Option (Bool × Reader) :=
  r.needByte.map (fun r => (r.brByte.getLsbD r.brBit.toNat, r.bump))

/-- GetBits(n) (R143): the first bit read becomes bit 0 of the result. -/
def Reader.getBits : Nat → Reader → Option (Nat × Reader)
  | 0, r => some (0, r)
  | n + 1, r =>
    match r.getBit with
    | none => none
    | some (b, r') => (r'.getBits n).map (fun vr => (b.toNat + 2 * vr.1, vr.2))

/-- Bits(n) (R144): the next n bits in stream order. -/
def Reader.bits : Nat → Reader → Option (List Bool × Reader)
  | 0, r => some ([], r)
  | n + 1, r =>
    match r.getBit with
    | none => none
    | some (b, r') => (r'.bits n).map (fun vr => (b :: vr.1, vr.2))

/-- AlignByte (R145): to the next byte boundary, nothing if already there. -/
def Reader.alignByte (r : Reader) : Reader :=
  if r.brBit = 0 then r else { r with brBit := 0, brIndex := r.brIndex + 1, brHave := false }

/-- GetByte (R146). Its precondition is br_bit = 0; the caller answers for it (log 18). -/
def Reader.getByte (r : Reader) : Option (Byte × Reader) :=
  r.needByte.map (fun r => (r.brByte, { r with brIndex := r.brIndex + 1, brHave := false }))

/-- GetU16LE (R147): two aligned bytes, low byte first. -/
def Reader.getU16LE (r : Reader) : Option (BitVec 16 × Reader) :=
  match r.getByte with
  | none => none
  | some (lo, r') => r'.getByte.map (fun hr => (hr.1 ++ lo, hr.2))

/-- The stream bits from the cursor on, as far as the upstream has offered bytes: the rest of the byte in the holding
register, then the bytes not taken yet (10_state.md R24, 20_memory.md R70). -/
def Reader.unread (r : Reader) : List Bool :=
  if r.brHave then (byteBits r.brByte).drop r.brBit.toNat ++ streamBits (r.input.drop (r.brIndex + 1))
  else (streamBits (r.input.drop r.brIndex)).drop r.brBit.toNat

/-- The reader after `n` calls of GetBit, or after as many as find a bit (R142). -/
def Reader.consume : Nat → Reader → Reader
  | 0, r => r
  | n + 1, r =>
    match r.getBit with
    | none => r
    | some (_, r') => r'.consume n

/-- pos, the stream-order number of the next bit (10_state.md R24). -/
def Reader.pos (r : Reader) : Nat := 8 * r.brIndex + r.brBit.toNat

end Sys2Proof.Machine
end

