-- ==== Sys2Proof/Machine/Ops.lean ====
section
/-! DEFINITION. The named operations: the window memory, Emit, taking a fault, the end of a block, reset, the ports and
the moves of the environment. -/

namespace Sys2Proof.Machine

/-- What a meaning answers. -/
abbrev Result := Host.Outcome State Fault Refusal

/-! ### The window memory (45_window_copy.md R341) -/

/-- The byte at an address, none where no byte has been written: what an unlisted address reads as is no value (log 8). -/
def Memory.read (m : Memory) (a : Nat) : Option Byte := m.lookup a

/-- Write one byte, keeping the cells in rising order of address. -/
def Memory.write (m : Memory) (a : Nat) (b : Byte) : Memory :=
  match m with
  | [] => [(a, b)]
  | c :: rest =>
    if a < c.1 then (a, b) :: c :: rest
    else if a = c.1 then (a, b) :: rest
    else c :: Memory.write rest a b

/-- The canonical form: addresses strictly rising from `lo` on and below WINDOW_SIZE. -/
def Memory.risingFrom (lo : Nat) : Memory → Bool
  | [] => true
  | c :: rest => decide (lo ≤ c.1) && decide (c.1 < Config.windowSize) && Memory.risingFrom (c.1 + 1) rest

/-- The memory has its canonical form: equal memories are equal lists. -/
def Memory.wf (m : Memory) : Bool := Memory.risingFrom 0 m

/-! ### Phase changes, the output port, faults -/

/-- phase <- p, with busy and done brought up to date. -/
def State.goto (p : Phase) (s : State) : State := State.settle { s with phase := p }

/-- Emit(b) once the output port can take a byte (45_window_copy.md R343): the write to the window and the offer on the
port are one event. -/
def State.emit (b : Byte) (s : State) : State :=
  State.settle
    { s with
      win := s.win.write s.wrPtr.toNat b
      wrPtr := s.wrPtr + 1
      histCnt := BitVec.ofNat 16 (min (s.histCnt.toNat + 1) Config.windowSize)
      outLen := s.outLen + 1
      out := s.out ++ [b]
      outData := b
      outValid := true }

/-- The read of a COPY step: the byte match_dist positions back, at 15-bit address wr_ptr - match_dist
(45_window_copy.md R345, R347). -/
def State.winBack (s : State) : Option Byte :=
  s.win.read (s.wrPtr - s.matchDist.setWidth 15).toNat

/-- raise K, fault entry (60_exceptions.md R377): err_code is written only if error = 0. There is no handler, no saved
state and no return (R384); only reset leaves ERROR. -/
def State.raise (k : ErrKind) (s : State) : State :=
  State.settle
    { s with
      errCode := if s.error then s.errCode else errCodeOf k
      error := true
      phase := .error }

/-- EndOfBlock (42_block_control.md R197). -/
def State.endOfBlock (s : State) : State := s.goto (if s.bfinal then .done else .header)

/-- The output port at the beginning of a step: a waiting byte is transferred when out_ready = 1 (20_memory.md R66). -/
def State.portTick (s : State) : State :=
  State.settle { s with outValid := s.outValid && !s.outReady }

/-! ### Which element comes next -/

/-- The format the phase asks for (30_encoding.md R116, 10_state.md R27); none where no element is consumed: COPY, DONE,
ERROR, and whenever error is set (R33). -/
def State.nextFormat (s : State) : Option Format :=
  if s.error then none
  else
    match s.phase with
    | .header => some .bh
    | .storedLen => some .stHdr
    | .storedCopy => some .stData
    | .dynCounts => some .dhCounts
    | .dynCllens => some .dhCllen
    | .dynLens => some .cls
    | .symbol => some (if s.awaitDist then .d else .ll)
    | .copy => none
    | .done => none
    | .error => none

/-- The decoding context of a state: its code tables, and whether a code length has been produced. -/
def State.ctx (s : State) (f : Format) : Ctx where
  fmt := f
  tCL := s.tCL.map BitVec.toNat
  tLL := s.tLL.map BitVec.toNat
  tD := s.tD.map BitVec.toNat
  hasPrev := s.havePrev

/-- A meaning runs only where the phase asks for its format (log 17). -/
def inFormat (f : Format) (s : State) (r : Result) : Result :=
  if s.nextFormat = some f then r else .refused .wrongPhase

/-- `act` on a state whose output port can take a byte; the step holds, with no state change, while the previous byte
has not been taken (R343, 20_memory.md R66). -/
def whenPortFree (s : State) (act : State → State) : Result :=
  if s.outValid then .next s else .next (act s)

/-! ### Reset (70_reset_and_hazards.md R410) -/

/-- The state after an edge with rst = 1: every register at its reset value, whatever the phase was. The levels the
neighbours drive are theirs; bytes they offer that were not taken are still offered, and are then the first bytes of the
next stream (log 14). The edge the host must wait for (60_exceptions.md R390) has passed. -/
def State.afterReset (s : State) : State :=
  { State.reset with
    rd := { Reader.reset with input := s.rd.input.drop s.rd.inCnt, inEos := s.rd.inEos }
    outReady := s.outReady
    rst := s.rst
    rstEdge := true
    freeCtr := s.freeCtr }

/-! ### The ports as the neighbours see them (10_state.md R40) -/

/-- in_valid: the upstream offers a byte. -/
def State.inValid (s : State) : Bool := decide (s.rd.inCnt < s.rd.input.length)

/-- in_data, none while in_valid = 0 (U9: any value, never sampled). -/
def State.inData (s : State) : Option Byte := s.rd.input[s.rd.inCnt]?

/-- in_eos: the upstream has no further byte; never 1 together with in_valid. -/
def State.inEosPort (s : State) : Bool := s.rd.inEos && !s.inValid

/-- in_ready (20_memory.md R63): the element in progress needs byte br_index and br_have = 0. What is held of it so far
decides that: it is decoded from the bits the step has consumed. While rst = 1 no step is in progress (R410), and no byte
is taken (log 14). -/
def State.inReady (s : State) : Bool :=
  !s.rst &&
  match s.nextFormat with
  | none => false
  | some f =>
    let rd := if f = .stHdr then s.rd.alignByte else s.rd
    !rd.brHave &&
      (match decode (s.ctx f) rd.held with
      | .short _ => true
      | .ok _ _ => false
      | .reject _ _ => false)

/-! ### The moves of the environment (60_exceptions.md R390), between steps -/

/-- The upstream offers one more byte. Refused after the end of the stream has been declared (20_memory.md R84). -/
def State.offerByte (b : Byte) (s : State) : Result :=
  if s.rd.inEos then .refused .protocolViolation
  else .next { s with rd := { s.rd with input := s.rd.input ++ [b] } }

/-- The upstream declares the end of the stream: in_eos rises once the bytes it has offered are taken. -/
def State.raiseEos (s : State) : Result := .next { s with rd := { s.rd with inEos := true } }

/-- The downstream drives out_ready. -/
def State.setOutReady (level : Bool) (s : State) : Result := .next { s with outReady := level }

/-- The host drives rst. It must hold rst for at least one edge (60_exceptions.md R390): lowering it before one has passed
is refused (log 16). -/
def State.setRst (level : Bool) (s : State) : Result :=
  if level then .next { s with rst := true, rstEdge := s.rst && s.rstEdge }
  else if s.rst && !s.rstEdge then .refused .protocolViolation
  else .next { s with rst := false, rstEdge := false }

/-- The host presents another stream from its first byte: `whole` says that it has no byte after these. Only under reset,
and only once an edge has reset the block (70_reset_and_hazards.md R412: reset, then bytes; R413): before that edge the
bytes offered may not be withdrawn and in_eos not lowered (20_memory.md R84; log 16). That they may between that edge and
the fall of rst is the model's choice (log 14). The registers of the block are the reset edge's to write: this changes the
input port alone. -/
def State.presentStream (bytes : List Byte) (whole : Bool) (s : State) : Result :=
  if s.rst && s.rstEdge then .next { s with rd := { s.rd with input := bytes, inEos := whole } }
  else .refused .protocolViolation

end Sys2Proof.Machine
end

