-- ==== Sys2Proof/Machine/Block.lean ====
section
/-! DEFINITION. Family BH: the HEADER step (42_block_control.md R191 to R196). -/

namespace Sys2Proof.Machine

/-- What every block header writes: bfinal and btype (R191). -/
def State.openBlock (f : Bool) (btype : BitVec 2) (s : State) : State := { s with bfinal := f, btype := btype }

/-- BLOCK_STORED f (R193). -/
def execBlockStored (f : Bool) (s : State) : Result :=
  inFormat .bh s (.next ((s.openBlock f 0).goto .storedLen))

/-- BLOCK_FIXED f (R194): the two fixed tables, which cannot fault (R165). -/
def execBlockFixed (f : Bool) (s : State) : Result :=
  inFormat .bh s (.next (State.goto .symbol { s.openBlock f 1 with tLL := fixedLL, tD := fixedD }))

/-- BLOCK_DYNAMIC f (R195). -/
def execBlockDynamic (f : Bool) (s : State) : Result :=
  inFormat .bh s (.next ((s.openBlock f 2).goto .dynCounts))

/-- BLOCK_RESERVED f (R196): raise WrongBlockType, whatever f is. -/
def execBlockReserved (f : Bool) (s : State) : Result :=
  inFormat .bh s (.next ((s.openBlock f 3).raise .wrongBlockType))

end Sys2Proof.Machine
end

