-- ==== Sys2Proof/Machine/Distance.lean ====
section
/-! DEFINITION. Family D: the distance code of a match (44_symbols.md R258 to R260, R290 to R323). -/

namespace Sys2Proof.Machine

/-- The second half of a match (R251): match_dist is written, the distance is checked against the output so far
(45_window_copy.md R344), and the copy starts. -/
def State.startCopy (dist : BitVec 16) (s : State) : State :=
  let t := { s with matchDist := dist, awaitDist := false }
  if dist.toNat > s.outLen then t.raise .distanceTooFar
  else State.goto .copy { t with copyRem := s.matchLen }

/-- A distance code 0..29 with its extra value (R321). -/
def distanceSymbol (c : Nat) (y : BitVec 13) (s : State) : Result :=
  inFormat .d s (.next (s.startCopy (matchDistance c y)))

/-- DIST_INVALID c, distance codes 30 and 31 (R259, R320): raise WrongSymbol; the length already decoded is discarded. -/
def execDistInvalid (_ : BitVec 5) (s : State) : Result :=
  inFormat .d s (.next (State.raise .wrongSymbol { s with awaitDist := false }))

/-- DIST_0 y (R290): match_dist <- 1 + y. -/
def execDist0 (y : BitVec 13) (s : State) : Result := distanceSymbol 0 y s

/-- DIST_1 y (R291): match_dist <- 2 + y. -/
def execDist1 (y : BitVec 13) (s : State) : Result := distanceSymbol 1 y s

/-- DIST_2 y (R292): match_dist <- 3 + y. -/
def execDist2 (y : BitVec 13) (s : State) : Result := distanceSymbol 2 y s

/-- DIST_3 y (R293): match_dist <- 4 + y. -/
def execDist3 (y : BitVec 13) (s : State) : Result := distanceSymbol 3 y s

/-- DIST_4 y (R294): match_dist <- 5 + y. -/
def execDist4 (y : BitVec 13) (s : State) : Result := distanceSymbol 4 y s

/-- DIST_5 y (R295): match_dist <- 7 + y. -/
def execDist5 (y : BitVec 13) (s : State) : Result := distanceSymbol 5 y s

/-- DIST_6 y (R296): match_dist <- 9 + y. -/
def execDist6 (y : BitVec 13) (s : State) : Result := distanceSymbol 6 y s

/-- DIST_7 y (R297): match_dist <- 13 + y. -/
def execDist7 (y : BitVec 13) (s : State) : Result := distanceSymbol 7 y s

/-- DIST_8 y (R298): match_dist <- 17 + y. -/
def execDist8 (y : BitVec 13) (s : State) : Result := distanceSymbol 8 y s

/-- DIST_9 y (R299): match_dist <- 25 + y. -/
def execDist9 (y : BitVec 13) (s : State) : Result := distanceSymbol 9 y s

/-- DIST_10 y (R300): match_dist <- 33 + y. -/
def execDist10 (y : BitVec 13) (s : State) : Result := distanceSymbol 10 y s

/-- DIST_11 y (R301): match_dist <- 49 + y. -/
def execDist11 (y : BitVec 13) (s : State) : Result := distanceSymbol 11 y s

/-- DIST_12 y (R302): match_dist <- 65 + y. -/
def execDist12 (y : BitVec 13) (s : State) : Result := distanceSymbol 12 y s

/-- DIST_13 y (R303): match_dist <- 97 + y. -/
def execDist13 (y : BitVec 13) (s : State) : Result := distanceSymbol 13 y s

/-- DIST_14 y (R304): match_dist <- 129 + y. -/
def execDist14 (y : BitVec 13) (s : State) : Result := distanceSymbol 14 y s

/-- DIST_15 y (R305): match_dist <- 193 + y. -/
def execDist15 (y : BitVec 13) (s : State) : Result := distanceSymbol 15 y s

/-- DIST_16 y (R306): match_dist <- 257 + y. -/
def execDist16 (y : BitVec 13) (s : State) : Result := distanceSymbol 16 y s

/-- DIST_17 y (R307): match_dist <- 385 + y. -/
def execDist17 (y : BitVec 13) (s : State) : Result := distanceSymbol 17 y s

/-- DIST_18 y (R308): match_dist <- 513 + y. -/
def execDist18 (y : BitVec 13) (s : State) : Result := distanceSymbol 18 y s

/-- DIST_19 y (R309): match_dist <- 769 + y. -/
def execDist19 (y : BitVec 13) (s : State) : Result := distanceSymbol 19 y s

/-- DIST_20 y (R310): match_dist <- 1025 + y. -/
def execDist20 (y : BitVec 13) (s : State) : Result := distanceSymbol 20 y s

/-- DIST_21 y (R311): match_dist <- 1537 + y. -/
def execDist21 (y : BitVec 13) (s : State) : Result := distanceSymbol 21 y s

/-- DIST_22 y (R312): match_dist <- 2049 + y. -/
def execDist22 (y : BitVec 13) (s : State) : Result := distanceSymbol 22 y s

/-- DIST_23 y (R313): match_dist <- 3073 + y. -/
def execDist23 (y : BitVec 13) (s : State) : Result := distanceSymbol 23 y s

/-- DIST_24 y (R314): match_dist <- 4097 + y. -/
def execDist24 (y : BitVec 13) (s : State) : Result := distanceSymbol 24 y s

/-- DIST_25 y (R315): match_dist <- 6145 + y. -/
def execDist25 (y : BitVec 13) (s : State) : Result := distanceSymbol 25 y s

/-- DIST_26 y (R316): match_dist <- 8193 + y. -/
def execDist26 (y : BitVec 13) (s : State) : Result := distanceSymbol 26 y s

/-- DIST_27 y (R317): match_dist <- 12289 + y. -/
def execDist27 (y : BitVec 13) (s : State) : Result := distanceSymbol 27 y s

/-- DIST_28 y (R318): match_dist <- 16385 + y. -/
def execDist28 (y : BitVec 13) (s : State) : Result := distanceSymbol 28 y s

/-- DIST_29 y (R319): match_dist <- 24577 + y. -/
def execDist29 (y : BitVec 13) (s : State) : Result := distanceSymbol 29 y s

end Sys2Proof.Machine
end

