-- ==== Sys2Proof/Machine/Dynamic.lean ====
section
/-! DEFINITION. Families DH and CLS: the dynamic block header (43_dynamic_header.md). -/

namespace Sys2Proof.Machine

/-- DYN_COUNTS hlit, hdist, hclen (R221): no range check (R225), all of cl_lens cleared (R226). -/
def execDynCounts (hlit : BitVec 9) (hdist : BitVec 6) (hclen : BitVec 5) (s : State) : Result :=
  inFormat .dhCounts s <|
    .next (State.goto .dynCllens
      { s with
        hlit := hlit
        hdist := hdist
        hclen := hclen
        clLens := List.replicate Config.nCL 0
        clIdx := 0
        lenIdx := 0 })

/-- The end of the code-length-code lengths (R227, R229): T_CL is built when cl_idx has become hclen. -/
def State.closeCllens (s : State) : State :=
  if s.clIdx = s.hclen then
    if buildable (lengthsOf s.clLens) then State.goto .dynLens { s with tCL := s.clLens }
    else s.raise .oversubscribedCode
  else s

/-- CLLEN v (R227): the next position of CL_ORDER gets v. -/
def execCllen (v : BitVec 3) (s : State) : Result :=
  inFormat .dhCllen s <|
    match clOrder[s.clIdx.toNat]? with
    | none => .fault .tableIndex
    | some p =>
      if p < s.clLens.length then
        .next (State.closeCllens { s with clLens := s.clLens.set p v, clIdx := s.clIdx + 1 })
      else .fault .tableIndex

/-- The literal/length part of `lens` (R239). -/
def State.litLens (s : State) : List (BitVec 4) := s.lens.take s.hlit.toNat

/-- The distance part of `lens` (R239): entry hlit + c is distance code c. -/
def State.distLens (s : State) : List (BitVec 4) := (s.lens.drop s.hlit.toNat).take s.hdist.toNat

/-- Completion of a dynamic header (R239): T_LL is built and checked first, then T_D. -/
def State.buildTables (s : State) : State :=
  if buildable (lengthsOf s.litLens) then
    if buildable (lengthsOf s.distLens) then State.goto .symbol { s with tLL := s.litLens, tD := s.distLens }
    else State.raise .oversubscribedCode { s with tLL := s.litLens }
  else s.raise .oversubscribedCode

/-- hlit + hdist: how many code lengths the header produces (R230). -/
def State.lensTotal (s : State) : Nat := s.hlit.toNat + s.hdist.toNat

/-- Append n code lengths v to the vector, and complete the header when it has all of them (R230, R232). -/
def State.putLens (n : Nat) (v : BitVec 4) (s : State) : Result :=
  if s.lenIdx.toNat + n ≤ s.lens.length then
    let t := { s with
      lens := fillLens s.lens s.lenIdx.toNat n v
      lenIdx := BitVec.ofNat 9 (s.lenIdx.toNat + n) }
    .next (if s.lenIdx.toNat + n = s.lensTotal then t.buildTables else t)
  else .fault .tableIndex

/-- A repeat of v, r times, with the overrun check common to the three repeats before anything is written (R234); v is
none where the previous length lies outside `lens`. -/
def State.repeatLens (r : BitVec 8) (v : Option (BitVec 4)) (s : State) : Result :=
  if s.lenIdx.toNat + r.toNat > s.lensTotal then .next (s.raise .codeLengthOverrun)
  else
    match v with
    | none => .fault .tableIndex
    | some p => s.putLens r.toNat p

/-- CL_LEN n (R232). -/
def execClLen (n : BitVec 4) (s : State) : Result :=
  inFormat .cls s (s.putLens 1 n)

/-- CL_REP r (R236): repeat the previous length, which is the last entry produced in this header (R233). -/
def execClRep (r : BitVec 8) (s : State) : Result :=
  inFormat .cls s <|
    if s.havePrev then s.repeatLens r s.lens[s.lenIdx.toNat - 1]?
    else .next (s.raise .noPreviousLength)

/-- CL_ZERO3 r (R237). -/
def execClZero3 (r : BitVec 8) (s : State) : Result :=
  inFormat .cls s (s.repeatLens r (some 0))

/-- CL_ZERO11 r (R238). -/
def execClZero11 (r : BitVec 8) (s : State) : Result :=
  inFormat .cls s (s.repeatLens r (some 0))

end Sys2Proof.Machine
end

