-- ==== Sys2Proof/Machine/Stored.lean ====
section
/-! DEFINITION. Family ST: the stored block (42_block_control.md R200 to R206). -/

namespace Sys2Proof.Machine

/-- STORED_HDR len, nlen (R200): the length check, then the count of data bytes; a block without data ends here. -/
def execStoredHdr (len nlen : BitVec 16) (s : State) : Result :=
  inFormat .stHdr s <|
    if storedLengthsOk Config.storedCheck len nlen then
      if len = 0 then .next (State.endOfBlock { s with storedRem := len })
      else .next (State.goto .storedCopy { s with storedRem := len })
    else .next (s.raise .wrongUncompressedBlockLengths)

/-- After the emit of a stored byte: stored_rem goes down and the block ends at 0 (R204). -/
def State.storedOne (s : State) : State :=
  if s.storedRem - 1 = 0 then State.endOfBlock { s with storedRem := s.storedRem - 1 }
  else { s with storedRem := s.storedRem - 1 }

/-- STORED_BYTE b (R204). -/
def execStoredByte (b : Byte) (s : State) : Result :=
  inFormat .stData s <|
    if s.storedRem = 0 then .fault .counterUnderflow
    else whenPortFree s (fun s => (s.emit b).storedOne)

end Sys2Proof.Machine
end

