-- ==== Sys2Proof/Machine/Symbol.lean ====
section
/-! DEFINITION. Family LL: literals, end of block, length symbols, invalid symbols (44_symbols.md R250 to R289). -/

namespace Sys2Proof.Machine

/-- A length symbol (R254, R256): match_len is written, and awaitDist says that the distance code follows, in the same SYMBOL
step (R258; `State.thenDistance` of Machine/Fetch.lean, log 3). -/
def lengthSymbol (sym : Nat) (x : BitVec 5) (s : State) : Result :=
  inFormat .ll s (.next { s with matchLen := matchLength sym x, awaitDist := true })

/-- LIT b (R252): one byte appended to the output and to the window. -/
def execLit (b : Byte) (s : State) : Result :=
  inFormat .ll s (whenPortFree s (State.emit b))

/-- EOB (R253). -/
def execEob (s : State) : Result :=
  inFormat .ll s (.next s.endOfBlock)

/-- LL_INVALID s, literal/length symbols 286 and 287 (R257): raise WrongSymbol at once. -/
def execLlInvalid (_ : BitVec 9) (s : State) : Result :=
  inFormat .ll s (.next (s.raise .wrongSymbol))

/-- LEN_257 x (R261): match_len <- 3 + x. -/
def execLen257 (x : BitVec 5) (s : State) : Result := lengthSymbol 257 x s

/-- LEN_258 x (R262): match_len <- 4 + x. -/
def execLen258 (x : BitVec 5) (s : State) : Result := lengthSymbol 258 x s

/-- LEN_259 x (R263): match_len <- 5 + x. -/
def execLen259 (x : BitVec 5) (s : State) : Result := lengthSymbol 259 x s

/-- LEN_260 x (R264): match_len <- 6 + x. -/
def execLen260 (x : BitVec 5) (s : State) : Result := lengthSymbol 260 x s

/-- LEN_261 x (R265): match_len <- 7 + x. -/
def execLen261 (x : BitVec 5) (s : State) : Result := lengthSymbol 261 x s

/-- LEN_262 x (R266): match_len <- 8 + x. -/
def execLen262 (x : BitVec 5) (s : State) : Result := lengthSymbol 262 x s

/-- LEN_263 x (R267): match_len <- 9 + x. -/
def execLen263 (x : BitVec 5) (s : State) : Result := lengthSymbol 263 x s

/-- LEN_264 x (R268): match_len <- 10 + x. -/
def execLen264 (x : BitVec 5) (s : State) : Result := lengthSymbol 264 x s

/-- LEN_265 x (R269): match_len <- 11 + x. -/
def execLen265 (x : BitVec 5) (s : State) : Result := lengthSymbol 265 x s

/-- LEN_266 x (R270): match_len <- 13 + x. -/
def execLen266 (x : BitVec 5) (s : State) : Result := lengthSymbol 266 x s

/-- LEN_267 x (R271): match_len <- 15 + x. -/
def execLen267 (x : BitVec 5) (s : State) : Result := lengthSymbol 267 x s

/-- LEN_268 x (R272): match_len <- 17 + x. -/
def execLen268 (x : BitVec 5) (s : State) : Result := lengthSymbol 268 x s

/-- LEN_269 x (R273): match_len <- 19 + x. -/
def execLen269 (x : BitVec 5) (s : State) : Result := lengthSymbol 269 x s

/-- LEN_270 x (R274): match_len <- 23 + x. -/
def execLen270 (x : BitVec 5) (s : State) : Result := lengthSymbol 270 x s

/-- LEN_271 x (R275): match_len <- 27 + x. -/
def execLen271 (x : BitVec 5) (s : State) : Result := lengthSymbol 271 x s

/-- LEN_272 x (R276): match_len <- 31 + x. -/
def execLen272 (x : BitVec 5) (s : State) : Result := lengthSymbol 272 x s

/-- LEN_273 x (R277): match_len <- 35 + x. -/
def execLen273 (x : BitVec 5) (s : State) : Result := lengthSymbol 273 x s

/-- LEN_274 x (R278): match_len <- 43 + x. -/
def execLen274 (x : BitVec 5) (s : State) : Result := lengthSymbol 274 x s

/-- LEN_275 x (R279): match_len <- 51 + x. -/
def execLen275 (x : BitVec 5) (s : State) : Result := lengthSymbol 275 x s

/-- LEN_276 x (R280): match_len <- 59 + x. -/
def execLen276 (x : BitVec 5) (s : State) : Result := lengthSymbol 276 x s

/-- LEN_277 x (R281): match_len <- 67 + x. -/
def execLen277 (x : BitVec 5) (s : State) : Result := lengthSymbol 277 x s

/-- LEN_278 x (R282): match_len <- 83 + x. -/
def execLen278 (x : BitVec 5) (s : State) : Result := lengthSymbol 278 x s

/-- LEN_279 x (R283): match_len <- 99 + x. -/
def execLen279 (x : BitVec 5) (s : State) : Result := lengthSymbol 279 x s

/-- LEN_280 x (R284): match_len <- 115 + x. -/
def execLen280 (x : BitVec 5) (s : State) : Result := lengthSymbol 280 x s

/-- LEN_281 x (R285): match_len <- 131 + x. -/
def execLen281 (x : BitVec 5) (s : State) : Result := lengthSymbol 281 x s

/-- LEN_282 x (R286): match_len <- 163 + x. -/
def execLen282 (x : BitVec 5) (s : State) : Result := lengthSymbol 282 x s

/-- LEN_283 x (R287): match_len <- 195 + x. -/
def execLen283 (x : BitVec 5) (s : State) : Result := lengthSymbol 283 x s

/-- LEN_284 x (R288): match_len <- 227 + x. -/
def execLen284 (x : BitVec 5) (s : State) : Result := lengthSymbol 284 x s

/-- LEN_285 x (R289): match_len <- 258 + x. -/
def execLen285 (x : BitVec 5) (s : State) : Result := lengthSymbol 285 x s

end Sys2Proof.Machine
end

