-- ==== Sys2Proof/Machine/Dispatch.lean ====
section
/-! DEFINITION. Dispatch: the meaning of each element of the stream. -/

namespace Sys2Proof.Machine

def exec (i : Instr) (s : State) : Host.Outcome State Fault Refusal :=
  match i with
  | .blockStored f => Sys2Proof.Machine.execBlockStored f s
  | .blockFixed f => Sys2Proof.Machine.execBlockFixed f s
  | .blockDynamic f => Sys2Proof.Machine.execBlockDynamic f s
  | .blockReserved f => Sys2Proof.Machine.execBlockReserved f s
  | .storedHdr len nlen => Sys2Proof.Machine.execStoredHdr len nlen s
  | .storedByte b => Sys2Proof.Machine.execStoredByte b s
  | .dynCounts hlit hdist hclen => Sys2Proof.Machine.execDynCounts hlit hdist hclen s
  | .cllen v => Sys2Proof.Machine.execCllen v s
  | .clLen n => Sys2Proof.Machine.execClLen n s
  | .clRep r => Sys2Proof.Machine.execClRep r s
  | .clZero3 r => Sys2Proof.Machine.execClZero3 r s
  | .clZero11 r => Sys2Proof.Machine.execClZero11 r s
  | .lit b => Sys2Proof.Machine.execLit b s
  | .eob => Sys2Proof.Machine.execEob s
  | .len257 x => Sys2Proof.Machine.execLen257 x s
  | .len258 x => Sys2Proof.Machine.execLen258 x s
  | .len259 x => Sys2Proof.Machine.execLen259 x s
  | .len260 x => Sys2Proof.Machine.execLen260 x s
  | .len261 x => Sys2Proof.Machine.execLen261 x s
  | .len262 x => Sys2Proof.Machine.execLen262 x s
  | .len263 x => Sys2Proof.Machine.execLen263 x s
  | .len264 x => Sys2Proof.Machine.execLen264 x s
  | .len265 x => Sys2Proof.Machine.execLen265 x s
  | .len266 x => Sys2Proof.Machine.execLen266 x s
  | .len267 x => Sys2Proof.Machine.execLen267 x s
  | .len268 x => Sys2Proof.Machine.execLen268 x s
  | .len269 x => Sys2Proof.Machine.execLen269 x s
  | .len270 x => Sys2Proof.Machine.execLen270 x s
  | .len271 x => Sys2Proof.Machine.execLen271 x s
  | .len272 x => Sys2Proof.Machine.execLen272 x s
  | .len273 x => Sys2Proof.Machine.execLen273 x s
  | .len274 x => Sys2Proof.Machine.execLen274 x s
  | .len275 x => Sys2Proof.Machine.execLen275 x s
  | .len276 x => Sys2Proof.Machine.execLen276 x s
  | .len277 x => Sys2Proof.Machine.execLen277 x s
  | .len278 x => Sys2Proof.Machine.execLen278 x s
  | .len279 x => Sys2Proof.Machine.execLen279 x s
  | .len280 x => Sys2Proof.Machine.execLen280 x s
  | .len281 x => Sys2Proof.Machine.execLen281 x s
  | .len282 x => Sys2Proof.Machine.execLen282 x s
  | .len283 x => Sys2Proof.Machine.execLen283 x s
  | .len284 x => Sys2Proof.Machine.execLen284 x s
  | .len285 x => Sys2Proof.Machine.execLen285 x s
  | .llInvalid sym => Sys2Proof.Machine.execLlInvalid sym s
  | .dist0 y => Sys2Proof.Machine.execDist0 y s
  | .dist1 y => Sys2Proof.Machine.execDist1 y s
  | .dist2 y => Sys2Proof.Machine.execDist2 y s
  | .dist3 y => Sys2Proof.Machine.execDist3 y s
  | .dist4 y => Sys2Proof.Machine.execDist4 y s
  | .dist5 y => Sys2Proof.Machine.execDist5 y s
  | .dist6 y => Sys2Proof.Machine.execDist6 y s
  | .dist7 y => Sys2Proof.Machine.execDist7 y s
  | .dist8 y => Sys2Proof.Machine.execDist8 y s
  | .dist9 y => Sys2Proof.Machine.execDist9 y s
  | .dist10 y => Sys2Proof.Machine.execDist10 y s
  | .dist11 y => Sys2Proof.Machine.execDist11 y s
  | .dist12 y => Sys2Proof.Machine.execDist12 y s
  | .dist13 y => Sys2Proof.Machine.execDist13 y s
  | .dist14 y => Sys2Proof.Machine.execDist14 y s
  | .dist15 y => Sys2Proof.Machine.execDist15 y s
  | .dist16 y => Sys2Proof.Machine.execDist16 y s
  | .dist17 y => Sys2Proof.Machine.execDist17 y s
  | .dist18 y => Sys2Proof.Machine.execDist18 y s
  | .dist19 y => Sys2Proof.Machine.execDist19 y s
  | .dist20 y => Sys2Proof.Machine.execDist20 y s
  | .dist21 y => Sys2Proof.Machine.execDist21 y s
  | .dist22 y => Sys2Proof.Machine.execDist22 y s
  | .dist23 y => Sys2Proof.Machine.execDist23 y s
  | .dist24 y => Sys2Proof.Machine.execDist24 y s
  | .dist25 y => Sys2Proof.Machine.execDist25 y s
  | .dist26 y => Sys2Proof.Machine.execDist26 y s
  | .dist27 y => Sys2Proof.Machine.execDist27 y s
  | .dist28 y => Sys2Proof.Machine.execDist28 y s
  | .dist29 y => Sys2Proof.Machine.execDist29 y s
  | .distInvalid c => Sys2Proof.Machine.execDistInvalid c s

end Sys2Proof.Machine
end

