-- ==== Sys2Proof/Machine/Window.lean ====
section
/-! DEFINITION. The LZ77 back-reference unit: the COPY step (45_window_copy.md R345). It consumes no stream bit and is no
element of the opcode table. -/

namespace Sys2Proof.Machine

/-- After the emit of a COPY step: copy_rem goes down and the copy ends at 0 (R345). -/
def State.copied (s : State) : State :=
  if s.copyRem - 1 = 0 then State.goto .symbol { s with copyRem := s.copyRem - 1 }
  else { s with copyRem := s.copyRem - 1 }

/-- The COPY step (R345): read the byte match_dist back, emit it, count it. The read comes before the write (R347). It
holds while the output port is occupied (R348). -/
def copyStep (s : State) : Result :=
  if s.copyRem = 0 then .fault .counterUnderflow
  else
    match s.winBack with
    | none => .fault .windowUnwritten
    | some b => whenPortFree s (fun s => (s.emit b).copied)

end Sys2Proof.Machine
end

