-- ==== Sys2Proof/Machine/Fetch.lean ====
section
/-! DEFINITION. One step of the machine (00_scope.md R11): reset, the output port, then the step the phase asks for. Also
how a table word is placed for the host's question (log 19). -/

namespace Sys2Proof.Machine

/-- SymbolNotFound leaves the cursor where the spec does not say (41_huffman.md R172, U6): a free number of the `most`
bits that R170 would read is consumed. -/
def State.giveUpAfter (most : Nat) (s : State) : State :=
  { s with
    rd := { s.rd.consume (Config.freeNat s.freeCtr % (most + 1)) with held := [] }
    freeCtr := s.freeCtr + 1 }

/-- The cursor when a fault is raised before an element is complete: free for SymbolNotFound (`most` bits may have been
read), and after the `most` bits that the step's rule reads otherwise (log 10). -/
def State.failCursor (k : ErrKind) (most : Nat) (s : State) : State :=
  match k with
  | .symbolNotFound => s.giveUpAfter most
  | _ => { s with rd := { s.rd.consume most with held := [] } }

/-- The bits an element has taken from the cursor, `held` counted in: what `used` bits of it take further. -/
def Reader.take (r : Reader) (used : Nat) : Reader := r.consume (used - r.held.length)

/-- A complete element: consume its bits and run it. An element that emits waits, its bits consumed, while the output
port is occupied (45_window_copy.md R343; log 5). -/
def State.runElement (i : Instr) (used : Nat) (bits : List Bool) (s : State) : Result :=
  if i.emits && s.outValid then .next { s with rd := { s.rd.take used with held := bits.take used } }
  else exec i { s with rd := { s.rd.take used with held := [] } }

/-- The bits of an element are not all there: the fault k at the end of the input, else the step holds with what is
there consumed (20_memory.md R63, 40_bitreader.md R149; log 4). -/
def State.runShort (k : ErrKind) (bits : List Bool) (s : State) : Result :=
  if s.rd.inEos then .next (State.raise k (s.failCursor k (bits.length - s.rd.held.length)))
  else .next { s with rd := { s.rd.take bits.length with held := bits } }

/-- The registers an incomplete element has written already: its fields are read one after the other, and what stands
before the read that finds no bits has been performed (42_block_control.md R191, 43_dynamic_header.md R221,
60_exceptions.md R377; log 4). The other formats write no register before their last read. -/
def State.fieldsRead (f : Format) (bits : List Bool) (s : State) : State :=
  { s with
    bfinal := if f = .bh then (fieldVal 1 bits).elim s.bfinal (fun v => v == 1) else s.bfinal
    hlit := if f = .dhCounts then (fieldVal 5 bits).elim s.hlit (fun v => BitVec.ofNat 9 (v + 257)) else s.hlit
    hdist :=
      if f = .dhCounts then (fieldVal 5 (bits.drop 5)).elim s.hdist (fun v => BitVec.ofNat 6 (v + 1)) else s.hdist }

/-- Decode at the cursor and do what comes out of it. -/
def State.fetchRun (f : Format) (s : State) : Result :=
  let bits := s.rd.held ++ s.rd.unread
  match decode (s.ctx f) bits with
  | .ok i used => s.runElement i used bits
  | .short k => (s.fieldsRead f bits).runShort k bits
  | .reject k used => .next (State.raise k (s.failCursor k (used - s.rd.held.length)))

/-- A length has been decoded: the same SYMBOL step goes on with the distance code, its extra bits and the distance check
(44_symbols.md R250, R251, R254). Anything else a symbol leaves is the end of its step. -/
def State.thenDistance (r : Result) : Result :=
  match r with
  | .next s => if s.nextFormat = some .d then s.fetchRun .d else .next s
  | .fault e => .fault e
  | .refused e => .refused e

/-- A step that consumes an element of format f. STORED_LEN first aligns the cursor (42_block_control.md R200, R201); a
stored data byte is an aligned read (R204); a SYMBOL step decodes a match whole (44_symbols.md R250), the format being that
of the distance code where the step was held after the length (R323). -/
def State.elementStep (f : Format) (s : State) : Result :=
  if f = .stHdr then State.fetchRun f { s with rd := s.rd.alignByte }
  else if f = .stData ∧ s.rd.brBit ≠ 0 then .fault .unalignedByteRead
  else if f = .ll then State.thenDistance (s.fetchRun .ll)
  else s.fetchRun f

/-- The block's part of a step: the element the phase asks for, a COPY step, or nothing in DONE and ERROR
(42_block_control.md R198, 60_exceptions.md R384; log 11). -/
def State.blockStep (s : State) : Result :=
  match s.nextFormat with
  | some f => s.elementStep f
  | none => if s.phase = .copy ∧ s.error = false then copyStep s else .next s

/-- One step: rst has priority (70_reset_and_hazards.md R410); else the output port moves, then the block (log 21). -/
def machineStep (s : State) : Result :=
  if s.rst then .next s.afterReset else s.portTick.blockStep

/-! ### Placing a table word (log 19) -/

/-- The reader with `bits` at the cursor: the input before the cursor is kept, what follows is replaced. -/
def Reader.place (bits : List Bool) (r : Reader) : Reader :=
  let start := (byteBits r.brByte).take r.brBit.toNat
  let bytes := packBytes 10 (start ++ bits)
  { r with
    input := r.input.take r.brIndex ++ List.replicate (r.brIndex - r.input.length) 0 ++ bytes
    brByte := if r.brBit = 0 then r.brByte else bytes.headD 0
    brHave := decide (r.brBit ≠ 0)
    inCnt := r.brIndex + (if r.brBit = 0 then 0 else 1)
    held := [] }

/-- The phase in which an element of a format is consumed (30_encoding.md R116). -/
def phaseOf : Format → Phase
  | .bh => .header
  | .stHdr => .storedLen
  | .stData => .storedCopy
  | .dhCounts => .dynCounts
  | .dhCllen => .dynCllens
  | .cls => .dynLens
  | .ll => .symbol
  | .d => .symbol

/-- What the format's phase needs besides the stream bits: for CLS the tables and counts of a header under way, for LL
and D the fixed tables. -/
def State.prepareFor (f : Format) (s : State) : State :=
  match f with
  | .cls => { s with tCL := List.replicate 19 5, hlit := 257, hdist := 1, lenIdx := 1 }
  | .ll => { s with tLL := fixedLL, tD := fixedD, awaitDist := false }
  | .d => { s with tLL := fixedLL, tD := fixedD, awaitDist := true }
  | .bh => s
  | .stHdr => s
  | .stData => s
  | .dhCounts => s
  | .dhCllen => s

/-- s made to run the element of a table word next: its bits at the cursor, its phase and tables selected, no fault, no
reset and no byte waiting on the output port. -/
def State.placeTableWord (nbits w : Nat) (s : State) : State :=
  match tableRowOf nbits w with
  | none => s
  | some (f, sel) =>
    { s.prepareFor f with
      rd := s.rd.place (tableWordBits f sel w)
      phase := phaseOf f
      error := false
      errCode := 0
      outValid := false
      rst := false
      rstEdge := false }

end Sys2Proof.Machine
end

