-- ==== Sys2Proof/Machine/Step.lean ====
section
/-! DEFINITION. The step function and the host's placing of one table word. Both only call Machine/Fetch.lean. -/

namespace Sys2Proof.Machine

/-- One step of the machine: a next state, a fault of the model, or a refusal. -/
def step (s : State) : Host.Outcome State Fault Refusal := machineStep s

/-- s with one opcode-table word placed where step reads its next element (log 19). -/
def State.withFetchWord (s : State) (nbits w : Nat) : State := s.placeTableWord nbits w

end Sys2Proof.Machine
end

