-- ==== Sys2Proof/Safety.lean ====
section
/-! DEFINITION. What counts as a safe run: the invariant that rules out the states no run reaches, and the two ends of a
run (70_reset_and_hazards.md R414). -/

namespace Sys2Proof.Machine

/-- The bit reader is consistent with the input (10_state.md R21 to R25). -/
structure Reader.Inv (r : Reader) : Prop where
  /-- a byte is in the holding register exactly when some but not all of its bits are consumed (R22, R142, R146) -/
  have_iff : r.brHave = decide (r.brBit ≠ 0)
  /-- in_cnt = br_index + br_have (R25) -/
  count : r.inCnt = r.brIndex + r.brHave.toNat
  /-- no byte is taken that was not offered (R21) -/
  bound : r.inCnt ≤ r.input.length
  /-- br_byte is input byte br_index (R23, R141) -/
  byte : r.brHave = true → r.input[r.brIndex]? = some r.brByte

/-- The window, its pointers and the output agree (10_state.md R37, R38; 45_window_copy.md R349). -/
structure State.WindowInv (s : State) : Prop where
  wf : s.win.wf = true
  ptr : s.wrPtr.toNat = s.outLen % 32768
  hist : s.histCnt.toNat = min s.outLen 32768
  len : s.out.length = s.outLen
  /-- for 1 <= d <= hist_cnt, WIN[(wr_ptr - d) mod 32768] is the output byte number out_len - d -/
  cells : ∀ d, 1 ≤ d → d ≤ min s.outLen 32768 →
    s.win.read ((s.wrPtr.toNat + 32768 - d) % 32768) = s.out[s.outLen - d]?

/-- The status registers say what the phase and the output port are (10_state.md R39, 60_exceptions.md R371, R377). -/
structure State.StatusInv (s : State) : Prop where
  error_iff : s.error = decide (s.phase = .error)
  code_none : s.error = false → s.errCode = 0
  code_some : s.error = true → 1 ≤ s.errCode.toNat ∧ s.errCode.toNat ≤ 9
  busy : s.busy = s.busyValue
  done : s.done = s.doneValue

/-- The tables have their sizes and none is over-subscribed (10_state.md R34 to R36, 41_huffman.md R165). -/
structure State.TablesInv (s : State) : Prop where
  clLens : s.clLens.length = 19
  lens : s.lens.length = 320
  tCL : buildable (lengthsOf s.tCL) = true
  tLL : buildable (lengthsOf s.tLL) = true
  tD : buildable (lengthsOf s.tD) = true

/-- What the registers of the phase in progress are (10_state.md R29 to R32, and the preconditions that
42_block_control.md R204, 43_dynamic_header.md R227, R230 and 45_window_copy.md R345 state). -/
structure State.PhaseInv (s : State) : Prop where
  storedLen : s.phase = .storedLen → s.rd.held.length % 8 = 0 ∧ (s.rd.held ≠ [] → s.rd.brBit = 0)
  storedCopy : s.phase = .storedCopy → s.storedRem ≠ 0 ∧ s.rd.brBit = 0 ∧ s.rd.held.length % 8 = 0
  counts : s.phase = .dynCllens ∨ s.phase = .dynLens →
    257 ≤ s.hlit.toNat ∧ s.hlit.toNat ≤ 288 ∧ 1 ≤ s.hdist.toNat ∧ s.hdist.toNat ≤ 32
  dynCllens : s.phase = .dynCllens → s.clIdx.toNat < s.hclen.toNat ∧ s.hclen.toNat ≤ 19 ∧ s.lenIdx = 0
  dynLens : s.phase = .dynLens → s.lenIdx.toNat < s.lensTotal
  await : s.awaitDist = true → s.phase = .symbol ∨ s.phase = .error
  length : s.awaitDist = true → 3 ≤ s.matchLen.toNat ∧ s.matchLen.toNat ≤ 258
  copy : s.phase = .copy → s.copyRem ≠ 0 ∧ s.copyRem.toNat ≤ 258 ∧
    1 ≤ s.matchDist.toNat ∧ s.matchDist.toNat ≤ 32768 ∧ s.matchDist.toNat ≤ s.outLen

/-- Once an edge has passed under rst, and until rst falls, the bit reader is as reset leaves it (10_state.md R44;
60_exceptions.md R390). -/
structure State.EdgeInv (s : State) : Prop where
  rst : s.rstEdge = true → s.rst = true
  reader : s.rstEdge = true → s.rd = { Reader.reset with input := s.rd.input, inEos := s.rd.inEos }

/-- The invariant of the machine. It holds at reset and every step keeps it; where it holds, no step stops. -/
structure State.Inv (s : State) : Prop where
  reader : s.rd.Inv
  window : s.WindowInv
  status : s.StatusInv
  tables : s.TablesInv
  phase : s.PhaseInv
  edge : s.EdgeInv

/-- A run has ended in success (R414): DONE, and the last byte taken. -/
def State.succeeded (s : State) : Bool := s.done

/-- A run has ended in failure (R414): ERROR with one err_code. -/
def State.failed (s : State) : Bool := s.error

/-- The step holds: it waits for a neighbour (20_memory.md R63, R66), and no run has ended. -/
def State.holds (s : State) : Prop := step s = .next s ∧ s.succeeded = false ∧ s.failed = false

end Sys2Proof.Machine
end

