-- ==== Sys2Proof/Certificates/Slice0/Obligations.lean ====
section
/-! DEFINITION. The statements for the provers, each a definition Obligations.<Name> : Prop. The words in which several of
them speak stand first, under Sys2Proof.Says; they are spelled out here, field by field, and not taken from the meanings. -/

open Sys2Proof
open Sys2Proof.Machine

namespace Sys2Proof.Says

/-- The fault `code` taken in state s, as 60_exceptions.md R377 and 10_state.md R39 say: err_code, error, phase, and busy
falling unless an output byte is pending. -/
def raised (code : BitVec 4) (s : State) : State :=
  { s with errCode := code, error := true, phase := .error, busy := s.outValid, done := false }

/-- EndOfBlock (42_block_control.md R197), with busy and done as 10_state.md R39 has them. -/
def blockEnd (s : State) : State :=
  { s with
    phase := if s.bfinal then .done else .header
    busy := !s.bfinal || s.outValid
    done := s.bfinal && !s.outValid }

/-- Emit(b) on a free output port (45_window_copy.md R343). -/
def emitted (b : Byte) (s : State) : State :=
  { s with
    win := s.win.write s.wrPtr.toNat b
    wrPtr := s.wrPtr + 1
    histCnt := BitVec.ofNat 16 (min (s.histCnt.toNat + 1) 32768)
    outLen := s.outLen + 1
    out := s.out ++ [b]
    outData := b
    outValid := true
    busy := true
    done := false }

/-- The phase changes to one that is not terminal: busy is 1 and done is 0 (10_state.md R39). -/
def entered (p : Phase) (s : State) : State := { s with phase := p, busy := true, done := false }

/-- The output port has moved and the phase is not terminal: a waiting byte is taken when out_ready = 1
(20_memory.md R66). -/
def portMoved (s : State) : State := { s with outValid := s.outValid && !s.outReady, busy := true, done := false }

/-- The reader a step of format f reads with: STORED_LEN aligns the cursor first (42_block_control.md R200). -/
def readerFor (f : Format) (s : State) : Reader := if f = .stHdr then s.rd.alignByte else s.rd

/-- The bits a step of format f decodes: those it has consumed while it held, then those at the cursor. -/
def bitsFor (f : Format) (s : State) : List Bool := (readerFor f s).held ++ (readerFor f s).unread

/-- The registers that an element which is not complete has written: BFINAL is the first header bit
(42_block_control.md R191), HLIT the first five bits of the counts and HDIST the next five (43_dynamic_header.md R221). -/
def fieldsWritten (f : Format) (bits : List Bool) (s : State) : State :=
  { s with
    bfinal := if f = .bh ∧ 1 ≤ bits.length then bits.headD false else s.bfinal
    hlit := if f = .dhCounts ∧ 5 ≤ bits.length then BitVec.ofNat 9 (bitsVal (bits.take 5) + 257) else s.hlit
    hdist :=
      if f = .dhCounts ∧ 10 ≤ bits.length then BitVec.ofNat 6 (bitsVal ((bits.drop 5).take 5) + 1) else s.hdist }

/-- The over-subscription check of 41_huffman.md R165 fails for a length vector. -/
def oversubscribed {w : Nat} (L : List (BitVec w)) : Prop := 2 ^ 15 < kraft (L.map BitVec.toNat)

/-- lens' is `lens` with n entries from len_idx on set to v, and every other entry as it was. -/
def fills (s : State) (n : Nat) (v : BitVec 4) (lens' : List (BitVec 4)) : Prop :=
  lens'.length = s.lens.length ∧
    ∀ j, lens'[j]? = if s.lenIdx.toNat ≤ j ∧ j < s.lenIdx.toNat + n then some v else s.lens[j]?

/-- t is s after the n code lengths of lens' from len_idx on: the header goes on, or is complete
(43_dynamic_header.md R239), T_LL being built and checked before T_D. -/
def lensDone (s : State) (n : Nat) (lens' : List (BitVec 4)) (t : State) : Prop :=
  let u := { s with lens := lens', lenIdx := BitVec.ofNat 9 (s.lenIdx.toNat + n) }
  let ll := lens'.take s.hlit.toNat
  let d := (lens'.drop s.hlit.toNat).take s.hdist.toNat
  (s.lenIdx.toNat + n ≠ s.hlit.toNat + s.hdist.toNat → t = u) ∧
    (s.lenIdx.toNat + n = s.hlit.toNat + s.hdist.toNat →
      (oversubscribed ll → t = raised 9 u) ∧
        (¬ oversubscribed ll → oversubscribed d → t = raised 9 { u with tLL := ll }) ∧
          (¬ oversubscribed ll → ¬ oversubscribed d → t = entered .symbol { u with tLL := ll, tD := d }))

/-- The number a bit string is when its first bit is the most significant (00_scope.md R9 (b)). -/
def msbVal (bits : List Bool) : Nat := bits.foldl (fun acc b => 2 * acc + b.toNat) 0

/-- The first `n` bits are the code of symbol s under L (41_huffman.md R170). -/
def spells (L : List Nat) (bits : List Bool) (n s : Nat) : Prop :=
  L[s]? = some n ∧ msbVal (bits.take n) = codeOf L s

/-- A length symbol (44_symbols.md R254 to R256): how it is decoded under any T_LL and under the fixed one, and what it
does in a SYMBOL step that has not decoded a length yet: match_len is written and awaitDist is set. That exec of a length
element alone is the part of the SYMBOL step up to the distance code is the model's choice (log 3); the same step goes on
with the distance code (MatchDecodedWhole, StepRunsDecoded). -/
def LengthRule (sym base extra width code : Nat) (mk : BitVec 5 → Instr) : Prop :=
  (∀ (c : Ctx) (bits : List Bool) (n v : Nat), c.fmt = .ll → huffDecode c.tLL bits = .symbol sym n →
    fieldVal extra (bits.drop n) = some v → decode c bits = .ok (mk (BitVec.ofNat 5 v)) (n + extra)) ∧
  (∀ (c : Ctx) (x : BitVec 5) (rest : List Bool), c.fmt = .ll → c.tLL = lengthsOf fixedLL → x.toNat < 2 ^ extra →
    decode c (codeBits width code ++ fieldBits extra x.toNat ++ rest) = .ok (mk x) (width + extra)) ∧
  (∀ (s : State) (x : BitVec 5), x.toNat < 2 ^ extra → s.nextFormat = some .ll →
    ∃ m : BitVec 9, m.toNat = base + x.toNat ∧
      exec (mk x) s = .next { s with matchLen := m, awaitDist := true })

/-- i is one of the 29 length elements (44_symbols.md R254). -/
def lengthElement (i : Instr) : Prop :=
  ∃ (k : Nat) (mk : BitVec 5 → Instr) (x : BitVec 5), lenCtors[k]? = some mk ∧ i = mk x

/-- The bits a step of format f has consumed and those at the cursor end inside an element of that step, k being the fault
if no more come: inside its first element, or, the first being a length, inside the distance that the same SYMBOL step
decodes (44_symbols.md R251). -/
def stepShort (f : Format) (k : ErrKind) (s : State) : Prop :=
  decode (s.ctx f) (bitsFor f s) = .short k ∨
    f = .ll ∧ ∃ i n, lengthElement i ∧ s.rd.held.length ≤ n ∧ decode (s.ctx .ll) (bitsFor .ll s) = .ok i n ∧
      decode (s.ctx .d) ((bitsFor .ll s).drop n) = .short k

/-- A distance code (44_symbols.md R258 to R260, R321): how it is decoded under any T_D and under the fixed one, and what it
does once a length has been decoded: the copy starts (R251), or too large a distance takes DistanceTooFar
(45_window_copy.md R344). That exec of a distance element alone is the rest of a SYMBOL step whose length is decoded, as
awaitDist says, is the model's choice (log 3); that match_dist stays written under DistanceTooFar is log 28. -/
def DistanceRule (code base extra fixedCode : Nat) (mk : BitVec 13 → Instr) : Prop :=
  (∀ (c : Ctx) (bits : List Bool) (n v : Nat), c.fmt = .d → huffDecode c.tD bits = .symbol code n →
    fieldVal extra (bits.drop n) = some v → decode c bits = .ok (mk (BitVec.ofNat 13 v)) (n + extra)) ∧
  (∀ (c : Ctx) (y : BitVec 13) (rest : List Bool), c.fmt = .d → c.tD = lengthsOf fixedD → y.toNat < 2 ^ extra →
    decode c (codeBits 5 fixedCode ++ fieldBits extra y.toNat ++ rest) = .ok (mk y) (5 + extra)) ∧
  (∀ (s : State) (y : BitVec 13), y.toNat < 2 ^ extra → s.nextFormat = some .d →
    ∃ d : BitVec 16, d.toNat = base + y.toNat ∧
      (d.toNat ≤ s.outLen →
        exec (mk y) s = .next (entered .copy { s with matchDist := d, awaitDist := false, copyRem := s.matchLen })) ∧
      (s.outLen < d.toNat →
        exec (mk y) s = .next (raised 6 { s with matchDist := d, awaitDist := false })))

end Sys2Proof.Says

open Sys2Proof.Says

/-! ### Encoding -/

/-- One word of every format, written out from the encodings of 30_encoding.md (R102 to R107, R110, R111), decodes to
its element. The padding before STORED_HDR is no part of its word (log 23). -/
def Obligations.FewWordsDecode : Prop :=
  let ctx (f : Format) : Ctx := ⟨f, [0, 0, 2, 2, 0, 0, 0, 0, 0, 0, 0, 0, 0, 0, 0, 0, 2, 2, 0], [0, 1, 2, 2], [1, 1], true⟩
  decode (ctx .bh) [true, false, true] = .ok (.blockDynamic true) 3 ∧
  decode (ctx .stHdr) (streamBits [0x05, 0x00, 0xFA, 0xFF]) = .ok (.storedHdr 0x0005 0xFFFA) 32 ∧
  decode (ctx .stData) (streamBits [0x48]) = .ok (.storedByte 0x48) 8 ∧
  decode (ctx .dhCounts) ([true, true, true, false, true] ++ [true, false, true, true, true] ++ [true, true, true, true]) =
    .ok (.dynCounts 280 30 19) 14 ∧
  decode (ctx .dhCllen) [false, true, false] = .ok (.cllen 2) 3 ∧
  decode (ctx .cls) [true, false, true, false] = .ok (.clRep 4) 4 ∧
  decode (ctx .ll) [true, false] = .ok (.lit 2) 2 ∧
  decode (ctx .d) [true] = .ok (.dist1 0) 1

/-- The encoder and the decoder agree: under tables that BuildCode accepts, with code lengths of at most 15 bits, every
well-formed element of the format asked for decodes from its encoding, whatever follows. CL_REP is in the stream only
where a previous length exists (43_dynamic_header.md R236). The padding before STORED_HDR is no part of its word (log
23). -/
def Obligations.DecodeOfEncode : Prop :=
  ∀ (c : Ctx) (i : Instr) (bits rest : List Bool),
    i.wellFormed = true → i.format = c.fmt →
    buildable c.tCL = true → buildable c.tLL = true → buildable c.tD = true →
    (∀ l ∈ c.tCL, l ≤ 15) → (∀ l ∈ c.tLL, l ≤ 15) → (∀ l ∈ c.tD, l ≤ 15) →
    ((∃ r, i = .clRep r) → c.hasPrev = true) →
    encode c i = some bits → decode c (bits ++ rest) = .ok i bits.length

/-- Every element the decoder answers is well-formed, of the format asked for, and its encoding is exactly the bits it
was read from: no bit of the stream is dropped. The padding before STORED_HDR is no part of its word (log 23). -/
def Obligations.EncodeOfDecode : Prop :=
  ∀ (c : Ctx) (bits : List Bool) (i : Instr) (n : Nat),
    decode c bits = .ok i n →
      i.wellFormed = true ∧ i.format = c.fmt ∧ n ≤ bits.length ∧ encode c i = some (bits.take n)

/-- What is decoded does not depend on the bits after the element, so no look-ahead is needed (41_huffman.md R170,
20_memory.md R62): an element or a rejection stays what it is when more bits follow. -/
def Obligations.DecodeNeedsNoLookAhead : Prop :=
  ∀ (c : Ctx) (bits : List Bool) (i : Instr) (n : Nat),
    decode c bits = .ok i n → ∀ rest, decode c (bits.take n ++ rest) = .ok i n

/-! ### The Huffman units -/

/-- BuildCode's properties (41_huffman.md R163 (a), (b), (c), which the spec infers from R162): when the check of R165 passes, every code fits its length, the
codes of one length are consecutive in ascending symbol order, and no code is a prefix of another. -/
def Obligations.CanonicalCode : Prop :=
  ∀ L : List Nat, kraft L ≤ 2 ^ 15 → (∀ l ∈ L, l ≤ 15) →
    (∀ s l, L[s]? = some l → 0 < l → codeOf L s < 2 ^ l) ∧
    (∀ s l, L[s]? = some l → 0 < l → codeOf L s = nextCode L l + blCount (L.take s) l) ∧
    (∀ s s' l l', L[s]? = some l → L[s']? = some l' → 0 < l → l ≤ l' → s ≠ s' →
      (codeBits l' (codeOf L s')).take l ≠ codeBits l (codeOf L s))

/-- The recurrence of BuildCode step 2 (R162) in closed form, an inference of the spec (R163): the initial next_code[len] is the sum over
l < len of bl_count[l] * 2^(len-l). -/
def Obligations.NextCodeSum : Prop :=
  ∀ (L : List Nat) (len : Nat), 1 ≤ len →
    nextCode L len = ((List.range (len - 1)).map (fun i => blCount L (i + 1) * 2 ^ (len - (i + 1)))).sum

/-- The worked examples of BuildCode and of the over-subscription check (41_huffman.md R162, R165, R164):
L = (3,3,3,3,3,2,4,4) with its counts, first codes and codes; and K of the vectors R165 names. -/
def Obligations.HuffmanExamples : Prop :=
  let L := [3, 3, 3, 3, 3, 2, 4, 4]
  (blCount L 2 = 1 ∧ blCount L 3 = 5 ∧ blCount L 4 = 2 ∧
    nextCode L 2 = 0 ∧ nextCode L 3 = 2 ∧ nextCode L 4 = 14 ∧
    (List.range 8).map (codeOf L) = [0b010, 0b011, 0b100, 0b101, 0b110, 0b00, 0b1110, 0b1111]) ∧
  kraft (lengthsOf fixedLL) = 32768 ∧ kraft (lengthsOf fixedD) = 32768 ∧
  kraft [1, 1, 1] = 49152 ∧ buildable [1, 1, 1] = false ∧ kraft [1, 2, 2] = 32768 ∧ buildable [1, 2, 2] = true ∧
  buildable [] = true ∧ buildable [0, 0, 0] = true ∧ buildable [1] = true

/-- The fixed length vectors (41_huffman.md R167, R168), entry by entry, and the fixed codes (30_encoding.md R110, R111):
the stream bits of every symbol. -/
def Obligations.FixedCodes : Prop :=
  (fixedLL.length = 288 ∧ fixedD.length = 32 ∧
    (∀ s, s ≤ 143 → fixedLL[s]? = some 8) ∧ (∀ s, 144 ≤ s → s ≤ 255 → fixedLL[s]? = some 9) ∧
    (∀ s, 256 ≤ s → s ≤ 279 → fixedLL[s]? = some 7) ∧ (∀ s, 280 ≤ s → s ≤ 287 → fixedLL[s]? = some 8) ∧
    (∀ s, s ≤ 31 → fixedD[s]? = some 5)) ∧
  (∀ s, s ≤ 143 → encodeSymbol (lengthsOf fixedLL) s = some (codeBits 8 (0x30 + s))) ∧
  (∀ s, 144 ≤ s → s ≤ 255 → encodeSymbol (lengthsOf fixedLL) s = some (codeBits 9 (0x190 + (s - 144)))) ∧
  (∀ s, 256 ≤ s → s ≤ 279 → encodeSymbol (lengthsOf fixedLL) s = some (codeBits 7 (s - 256))) ∧
  (∀ s, 280 ≤ s → s ≤ 287 → encodeSymbol (lengthsOf fixedLL) s = some (codeBits 8 (0xC0 + (s - 280)))) ∧
  (∀ s, 288 ≤ s → encodeSymbol (lengthsOf fixedLL) s = none) ∧
  (∀ c, c ≤ 31 → encodeSymbol (lengthsOf fixedD) c = some (codeBits 5 c)) ∧
  (∀ c, 32 ≤ c → encodeSymbol (lengthsOf fixedD) c = none)

/-- HuffDecode (41_huffman.md R170, R171) is the first code the bits spell: it returns symbol s after n bits exactly
when the first n bits are the code of s and no fewer bits are a code; it finds none exactly when maxlen(T) bits are
there and no prefix of them is a code (for an empty table at once, without a bit); else the bits end inside a code. The
table is one that BuildCode accepts. That absence is decided when maxlen(T) bits are there is the reference form of
R170, which the model takes where R172 lets an implementation give up earlier (log 26). -/
def Obligations.HuffDecodeSpec : Prop :=
  ∀ (L : List Nat) (bits : List Bool), kraft L ≤ 2 ^ 15 → (∀ l ∈ L, l ≤ 15) →
    (∀ s n, huffDecode L bits = .symbol s n ↔
      0 < n ∧ n ≤ bits.length ∧ spells L bits n s ∧ ∀ m s', 0 < m → m < n → ¬ spells L bits m s') ∧
    (∀ n, huffDecode L bits = .absent n ↔
      n = maxLen L ∧ maxLen L ≤ bits.length ∧ ∀ m s', 0 < m → m ≤ maxLen L → ¬ spells L bits m s') ∧
    (huffDecode L bits = .short ↔
      bits.length < maxLen L ∧ ∀ m s', 0 < m → m ≤ bits.length → ¬ spells L bits m s')

/-- A decoded symbol is below the size of its table, so a code-length symbol above 18 cannot arise from a table of 19
lengths, an inference of the spec (43_dynamic_header.md R235); where the arm is reached all the same, it is WrongSymbol. -/
def Obligations.CodeLengthSymbolRange : Prop :=
  (∀ (L : List Nat) (bits : List Bool) (s n : Nat), huffDecode L bits = .symbol s n → s < L.length) ∧
  (∀ (c : Ctx) (bits : List Bool) (s n : Nat), c.fmt = .cls → huffDecode c.tCL bits = .symbol s n → 18 < s →
    decode c bits = .reject .wrongSymbol n)

/-! ### The bit reader -/

/-- NeedByte (40_bitreader.md R141): a held byte is enough; else the offered byte br_index is taken; with none offered
nothing changes (the step holds or the input is exhausted). That the offered bytes stand in State as a list is the
model's form (logs 2 and 29). -/
def Obligations.NeedByteSpec : Prop :=
  ∀ r : Reader,
    (r.brHave = true → r.needByte = some r) ∧
    (∀ b, r.brHave = false → r.input[r.brIndex]? = some b →
      r.needByte = some { r with brByte := b, brHave := true, inCnt := r.inCnt + 1 }) ∧
    (r.brHave = false → r.input[r.brIndex]? = none → r.needByte = none)

/-- GetBit (40_bitreader.md R142): bit br_bit of the byte, and the cursor one bit on; its wrap to the next byte is an
inference of the spec. -/
def Obligations.GetBitSpec : Prop :=
  ∀ r : Reader,
    (r.needByte = none → r.getBit = none) ∧
    (∀ q, r.needByte = some q →
      (q.brBit = 7 →
        r.getBit = some (q.brByte.getLsbD q.brBit.toNat, { q with brBit := 0, brIndex := q.brIndex + 1, brHave := false })) ∧
      (q.brBit ≠ 7 → r.getBit = some (q.brByte.getLsbD q.brBit.toNat, { q with brBit := q.brBit + 1 }))) ∧
    (∀ b r', r.getBit = some (b, r') → r'.pos = r.pos + 1)

/-- GetBits(n) (40_bitreader.md R143): it completes exactly when n bits are there, its value is below 2^n and has the i-th
bit read as bit i, and pos has grown by n. -/
def Obligations.GetBitsSpec : Prop :=
  ∀ (n : Nat) (r : Reader),
    (r.unread.length < n → r.getBits n = none) ∧
    (n ≤ r.unread.length →
      ∃ v r', r.getBits n = some (v, r') ∧ v < 2 ^ n ∧ (∀ i, i < n → r.unread[i]? = some (v.testBit i)) ∧
        r'.pos = r.pos + n ∧ r'.unread = r.unread.drop n)

/-- AlignByte (40_bitreader.md R145): to 8 * ceil(pos / 8), nothing if already there; no input is read, and the cursor stays
within the input. -/
def Obligations.AlignByteSpec : Prop :=
  ∀ r : Reader,
    (r.brBit = 0 → r.alignByte = r) ∧
    (r.brBit ≠ 0 → r.alignByte = { r with brBit := 0, brIndex := r.brIndex + 1, brHave := false }) ∧
    r.alignByte.pos = 8 * ((r.pos + 7) / 8) ∧ r.alignByte.alignByte = r.alignByte ∧
    (r.Inv → r.alignByte.brIndex ≤ r.input.length)

/-- GetByte and GetU16LE (40_bitreader.md R146, R147) on an aligned cursor: the next byte; two bytes, low byte first; each
fails where a byte it needs is not there. -/
def Obligations.AlignedReads : Prop :=
  ∀ r : Reader, r.Inv → r.brBit = 0 →
    (∀ b, r.input[r.brIndex]? = some b →
      r.getByte = some (b, { r with brByte := b, brIndex := r.brIndex + 1, inCnt := r.inCnt + 1 })) ∧
    (r.input[r.brIndex]? = none → r.getByte = none) ∧
    (∀ lo hi, r.input[r.brIndex]? = some lo → r.input[r.brIndex + 1]? = some hi →
      ∃ v : BitVec 16, v.toNat = lo.toNat + 256 * hi.toNat ∧
        r.getU16LE = some (v, { r with brByte := hi, brIndex := r.brIndex + 2, inCnt := r.inCnt + 2 })) ∧
    (r.input[r.brIndex + 1]? = none → r.getU16LE = none)

/-- The number of bytes taken is ceil(pos / 8) at every step boundary (20_memory.md R62), and no byte that was not offered
is taken. After a step that faults the spec leaves pos and in_cnt any value (U6): that they agree there too is the model's
choice (logs 9 and 10), and so is that a step held part-way ends at such a boundary (log 4). -/
def Obligations.BytesTaken : Prop :=
  ∀ s t : State, s.Inv → step s = .next t →
    t.rd.inCnt = (t.rd.pos + 7) / 8 ∧ t.rd.inCnt ≤ t.rd.input.length

/-- pos never decreases, an inference of the spec (10_state.md R24), and the input is only read (20_memory.md R61): a
step that is no reset leaves the cursor where it was or further on, and the input sequence as it is. After a step that
faults the spec leaves the cursor any value (U6): that it does not go back there either is the model's choice (logs 9
and 10). That the input is held in State is the model's form (logs 2 and 29). -/
def Obligations.PosNeverDecreases : Prop :=
  ∀ s t : State, s.rst = false → step s = .next t →
    s.rd.pos ≤ t.rd.pos ∧ t.rd.input = s.rd.input ∧ t.rd.inEos = s.rd.inEos

/-! ### Block headers and stored blocks -/

/-- The four block headers (42_block_control.md R192 to R196): their bits in stream order, and what each does. -/
def Obligations.BlockHeaders : Prop :=
  (∀ (c : Ctx) (f : Bool) (rest : List Bool), c.fmt = .bh →
    decode c ([f, false, false] ++ rest) = .ok (.blockStored f) 3 ∧
    decode c ([f, true, false] ++ rest) = .ok (.blockFixed f) 3 ∧
    decode c ([f, false, true] ++ rest) = .ok (.blockDynamic f) 3 ∧
    decode c ([f, true, true] ++ rest) = .ok (.blockReserved f) 3) ∧
  (∀ (s : State) (f : Bool), s.nextFormat = some .bh →
    exec (.blockStored f) s = .next (entered .storedLen { s with bfinal := f, btype := 0 }) ∧
    exec (.blockFixed f) s =
      .next (entered .symbol { s with bfinal := f, btype := 1, tLL := fixedLL, tD := fixedD }) ∧
    exec (.blockDynamic f) s = .next (entered .dynCounts { s with bfinal := f, btype := 2 }) ∧
    exec (.blockReserved f) s = .next (raised 2 { s with bfinal := f, btype := 3 }))

/-- STORED_HDR (42_block_control.md R200 to R203): the cursor is aligned, two little-endian values are read, and the
length check decides. That the output port moves first in the step is the model's choice (log 21). The cursor after
WrongUncompressedBlockLengths is log 10, the check itself the spec's decision C1 (log 13), and the skipped padding log
23; a step that resumes with bits it holds (log 4) is StepRunsDecoded's. -/
def Obligations.StoredHeader : Prop :=
  (∀ (c : Ctx) (a b p q : Byte) (rest : List Bool), c.fmt = .stHdr →
    decode c (streamBits [a, b, p, q] ++ rest) = .ok (.storedHdr (b ++ a) (q ++ p)) 32) ∧
  (∀ (s : State) (a b p q : Byte) (rest : List Bool), s.rst = false → s.nextFormat = some .stHdr → s.rd.held = [] →
    s.rd.alignByte.unread = streamBits [a, b, p, q] ++ rest →
    step s = exec (.storedHdr (b ++ a) (q ++ p)) { portMoved s with rd := s.rd.alignByte.consume 32 }) ∧
  (∀ (s : State) (len nlen : BitVec 16), s.nextFormat = some .stHdr →
    ((len ^^^ nlen) = 0xFFFF#16 → len ≠ 0 →
      exec (.storedHdr len nlen) s = .next (entered .storedCopy { s with storedRem := len })) ∧
    ((len ^^^ nlen) = 0xFFFF#16 → len = 0 →
      exec (.storedHdr len nlen) s = .next (blockEnd { s with storedRem := 0 })) ∧
    ((len ^^^ nlen) ≠ 0xFFFF#16 → exec (.storedHdr len nlen) s = .next (raised 1 s)))

/-- STORED_BYTE (42_block_control.md R204): one byte of input becomes one byte of output; the block ends with the last one.
Emit waits while the output port is occupied (45_window_copy.md R343); that exec of the element then answers the state
unchanged, its bits being consumed and kept by the step around it (StepRunsDecoded), is the model's choice (log 5). -/
def Obligations.StoredByte : Prop :=
  (∀ (c : Ctx) (b : Byte) (rest : List Bool), c.fmt = .stData →
    decode c (byteBits b ++ rest) = .ok (.storedByte b) 8) ∧
  (∀ (s : State) (b : Byte), s.nextFormat = some .stData → s.storedRem ≠ 0 →
    (s.outValid = false → s.storedRem ≠ 1 →
      exec (.storedByte b) s = .next { emitted b s with storedRem := s.storedRem - 1 }) ∧
    (s.outValid = false → s.storedRem = 1 →
      exec (.storedByte b) s = .next (blockEnd { emitted b s with storedRem := 0 })) ∧
    (s.outValid = true → exec (.storedByte b) s = .next s))

/-! ### The dynamic header -/

/-- DYN_COUNTS (43_dynamic_header.md R221 to R226): three fields, no range check, all nineteen code-length-code lengths
cleared. -/
def Obligations.DynCounts : Prop :=
  (∀ (c : Ctx) (l d n : Nat) (rest : List Bool), c.fmt = .dhCounts → l < 32 → d < 32 → n < 16 →
    decode c (fieldBits 5 l ++ fieldBits 5 d ++ fieldBits 4 n ++ rest) =
      .ok (.dynCounts (BitVec.ofNat 9 (l + 257)) (BitVec.ofNat 6 (d + 1)) (BitVec.ofNat 5 (n + 4))) 14) ∧
  (∀ (s : State) (hlit : BitVec 9) (hdist : BitVec 6) (hclen : BitVec 5), s.nextFormat = some .dhCounts →
    exec (.dynCounts hlit hdist hclen) s =
      .next (entered .dynCllens
        { s with
          hlit := hlit
          hdist := hdist
          hclen := hclen
          clLens := List.replicate 19 0
          clIdx := 0
          lenIdx := 0 }))

/-- CLLEN (43_dynamic_header.md R227 to R229): the field goes to the position that the fixed order gives; the last one
builds T_CL. That cl_lens and cl_idx stay written under OversubscribedCode is log 28. -/
def Obligations.CodeLengthLength : Prop :=
  (∀ (c : Ctx) (v : BitVec 3) (rest : List Bool), c.fmt = .dhCllen →
    decode c (fieldBits 3 v.toNat ++ rest) = .ok (.cllen v) 3) ∧
  (∀ (s : State) (v : BitVec 3) (p : Nat), s.nextFormat = some .dhCllen → s.clLens.length = 19 →
    [16, 17, 18, 0, 8, 7, 9, 6, 10, 5, 11, 4, 12, 3, 13, 2, 14, 1, 15][s.clIdx.toNat]? = some p →
    let u := { s with clLens := s.clLens.set p v, clIdx := s.clIdx + 1 }
    (s.clIdx + 1 ≠ s.hclen → exec (.cllen v) s = .next u) ∧
    (s.clIdx + 1 = s.hclen → ¬ oversubscribed u.clLens →
      exec (.cllen v) s = .next (entered .dynLens { u with tCL := u.clLens })) ∧
    (s.clIdx + 1 = s.hclen → oversubscribed u.clLens → exec (.cllen v) s = .next (raised 9 u)))

/-- CL_LEN (43_dynamic_header.md R232), with the completion of R239. That lens, len_idx and T_LL stay written under
OversubscribedCode is log 28. -/
def Obligations.ClLen : Prop :=
  (∀ (c : Ctx) (bits : List Bool) (v n : Nat), c.fmt = .cls → huffDecode c.tCL bits = .symbol v n → v ≤ 15 →
    decode c bits = .ok (.clLen (BitVec.ofNat 4 v)) n) ∧
  (∀ (s : State) (v : BitVec 4), s.nextFormat = some .cls → s.lenIdx.toNat < s.hlit.toNat + s.hdist.toNat →
    s.hlit.toNat + s.hdist.toNat ≤ s.lens.length →
    ∃ lens' t, fills s 1 v lens' ∧ lensDone s 1 lens' t ∧ exec (.clLen v) s = .next t)

/-- CL_REP (43_dynamic_header.md R236): the previous length is the last entry produced in this header, an inference of
the spec (R233); without one the fault comes before the extra bits are read; then the overrun check (R234), and only
then is anything written. That lens, len_idx and T_LL stay written under OversubscribedCode is log 28. -/
def Obligations.ClRep : Prop :=
  (∀ (c : Ctx) (bits : List Bool) (n v : Nat), c.fmt = .cls → huffDecode c.tCL bits = .symbol 16 n →
    (c.hasPrev = false → decode c bits = .reject .noPreviousLength n) ∧
    (c.hasPrev = true → fieldVal 2 (bits.drop n) = some v →
      decode c bits = .ok (.clRep (BitVec.ofNat 8 (v + 3))) (n + 2))) ∧
  (∀ s : State, (s.ctx .cls).hasPrev = decide (s.lenIdx ≠ 0)) ∧
  (∀ (s : State) (r : BitVec 8) (p : BitVec 4), s.nextFormat = some .cls → s.lenIdx ≠ 0 →
    s.lens[s.lenIdx.toNat - 1]? = some p → s.lenIdx.toNat + r.toNat ≤ s.hlit.toNat + s.hdist.toNat →
    s.hlit.toNat + s.hdist.toNat ≤ s.lens.length →
    ∃ lens' t, fills s r.toNat p lens' ∧ lensDone s r.toNat lens' t ∧ exec (.clRep r) s = .next t) ∧
  (∀ (s : State) (r : BitVec 8), s.nextFormat = some .cls →
    (s.lenIdx = 0 → exec (.clRep r) s = .next (raised 7 s)) ∧
    (s.lenIdx ≠ 0 → s.hlit.toNat + s.hdist.toNat < s.lenIdx.toNat + r.toNat →
      exec (.clRep r) s = .next (raised 8 s)))

/-- CL_ZERO3 and CL_ZERO11 (43_dynamic_header.md R237, R238): zeros, after the overrun check; no previous length is
needed. That lens, len_idx and T_LL stay written under OversubscribedCode is log 28. -/
def Obligations.ClZeros : Prop :=
  (∀ (c : Ctx) (bits : List Bool) (n v : Nat), c.fmt = .cls →
    (huffDecode c.tCL bits = .symbol 17 n → fieldVal 3 (bits.drop n) = some v →
      decode c bits = .ok (.clZero3 (BitVec.ofNat 8 (v + 3))) (n + 3)) ∧
    (huffDecode c.tCL bits = .symbol 18 n → fieldVal 7 (bits.drop n) = some v →
      decode c bits = .ok (.clZero11 (BitVec.ofNat 8 (v + 11))) (n + 7))) ∧
  (∀ (s : State) (r : BitVec 8), s.nextFormat = some .cls →
    s.lenIdx.toNat + r.toNat ≤ s.hlit.toNat + s.hdist.toNat → s.hlit.toNat + s.hdist.toNat ≤ s.lens.length →
    ∃ lens' t, fills s r.toNat 0 lens' ∧ lensDone s r.toNat lens' t ∧
      exec (.clZero3 r) s = .next t ∧ exec (.clZero11 r) s = .next t) ∧
  (∀ (s : State) (r : BitVec 8), s.nextFormat = some .cls →
    s.hlit.toNat + s.hdist.toNat < s.lenIdx.toNat + r.toNat →
    exec (.clZero3 r) s = .next (raised 8 s) ∧ exec (.clZero11 r) s = .next (raised 8 s))

/-! ### Symbols -/

/-- LIT (44_symbols.md R252): the symbol is the byte; one byte emitted, the phase stays. Emit waits while the output port is
occupied (45_window_copy.md R343); that exec of the element then answers the state unchanged, its bits being consumed and
kept by the step around it (StepRunsDecoded), is the model's choice (log 5). -/
def Obligations.Literal : Prop :=
  (∀ (c : Ctx) (bits : List Bool) (v n : Nat), c.fmt = .ll → huffDecode c.tLL bits = .symbol v n → v ≤ 255 →
    decode c bits = .ok (.lit (BitVec.ofNat 8 v)) n) ∧
  (∀ (c : Ctx) (b : Byte) (rest : List Bool), c.fmt = .ll → c.tLL = lengthsOf fixedLL →
    (b.toNat ≤ 143 → decode c (codeBits 8 (0x30 + b.toNat) ++ rest) = .ok (.lit b) 8) ∧
    (144 ≤ b.toNat → decode c (codeBits 9 (0x190 + (b.toNat - 144)) ++ rest) = .ok (.lit b) 9)) ∧
  (∀ (s : State) (b : Byte), s.nextFormat = some .ll →
    (s.outValid = false → exec (.lit b) s = .next (emitted b s)) ∧
    (s.outValid = true → exec (.lit b) s = .next s))

/-- EOB (44_symbols.md R253, 42_block_control.md R197): the phase becomes DONE after the final block, HEADER otherwise;
nothing is emitted, and window, output and cursor carry over. -/
def Obligations.EndOfBlockSymbol : Prop :=
  (∀ (c : Ctx) (bits : List Bool) (n : Nat), c.fmt = .ll → huffDecode c.tLL bits = .symbol 256 n →
    decode c bits = .ok .eob n) ∧
  (∀ (c : Ctx) (rest : List Bool), c.fmt = .ll → c.tLL = lengthsOf fixedLL →
    decode c (codeBits 7 0b0000000 ++ rest) = .ok .eob 7) ∧
  (∀ s : State, s.nextFormat = some .ll →
    (s.bfinal = true → exec .eob s = .next { s with phase := .done, busy := s.outValid, done := !s.outValid }) ∧
    (s.bfinal = false → exec .eob s = .next (entered .header s)))

/-- LL_INVALID and DIST_INVALID (44_symbols.md R257, R259, R320): symbols 286 and 287 and distance codes 30 and 31 take
WrongSymbol at once, with no extra bits read; the length already decoded is discarded. That a distance code is read where
awaitDist says a length is decoded, and that awaitDist is cleared, is the model's choice (log 3). -/
def Obligations.InvalidSymbols : Prop :=
  (∀ (c : Ctx) (bits : List Bool) (v n : Nat), c.fmt = .ll → huffDecode c.tLL bits = .symbol v n → v = 286 ∨ v = 287 →
    decode c bits = .ok (.llInvalid (BitVec.ofNat 9 v)) n) ∧
  (∀ (c : Ctx) (rest : List Bool), c.fmt = .ll → c.tLL = lengthsOf fixedLL →
    decode c (codeBits 8 0b11000110 ++ rest) = .ok (.llInvalid 286) 8 ∧
    decode c (codeBits 8 0b11000111 ++ rest) = .ok (.llInvalid 287) 8) ∧
  (∀ (c : Ctx) (bits : List Bool) (v n : Nat), c.fmt = .d → huffDecode c.tD bits = .symbol v n → v = 30 ∨ v = 31 →
    decode c bits = .ok (.distInvalid (BitVec.ofNat 5 v)) n) ∧
  (∀ (c : Ctx) (rest : List Bool), c.fmt = .d → c.tD = lengthsOf fixedD →
    decode c (codeBits 5 0b11110 ++ rest) = .ok (.distInvalid 30) 5 ∧
    decode c (codeBits 5 0b11111 ++ rest) = .ok (.distInvalid 31) 5) ∧
  (∀ (s : State) (v : BitVec 9), s.nextFormat = some .ll → exec (.llInvalid v) s = .next (raised 3 s)) ∧
  (∀ (s : State) (v : BitVec 5), s.nextFormat = some .d →
    exec (.distInvalid v) s = .next (raised 3 { s with awaitDist := false }))

/-- Length symbols 257 to 268 (44_symbols.md R261 to R272). What exec of a length element alone
answers, awaitDist being set, is the model's choice (log 3). -/
def Obligations.LengthSymbols257To268 : Prop :=
  LengthRule 257 3 0 7 0b0000001 Instr.len257 ∧
  LengthRule 258 4 0 7 0b0000010 Instr.len258 ∧
  LengthRule 259 5 0 7 0b0000011 Instr.len259 ∧
  LengthRule 260 6 0 7 0b0000100 Instr.len260 ∧
  LengthRule 261 7 0 7 0b0000101 Instr.len261 ∧
  LengthRule 262 8 0 7 0b0000110 Instr.len262 ∧
  LengthRule 263 9 0 7 0b0000111 Instr.len263 ∧
  LengthRule 264 10 0 7 0b0001000 Instr.len264 ∧
  LengthRule 265 11 1 7 0b0001001 Instr.len265 ∧
  LengthRule 266 13 1 7 0b0001010 Instr.len266 ∧
  LengthRule 267 15 1 7 0b0001011 Instr.len267 ∧
  LengthRule 268 17 1 7 0b0001100 Instr.len268

/-- Length symbols 269 to 280 (44_symbols.md R273 to R284). What exec of a length element alone
answers, awaitDist being set, is the model's choice (log 3). -/
def Obligations.LengthSymbols269To280 : Prop :=
  LengthRule 269 19 2 7 0b0001101 Instr.len269 ∧
  LengthRule 270 23 2 7 0b0001110 Instr.len270 ∧
  LengthRule 271 27 2 7 0b0001111 Instr.len271 ∧
  LengthRule 272 31 2 7 0b0010000 Instr.len272 ∧
  LengthRule 273 35 3 7 0b0010001 Instr.len273 ∧
  LengthRule 274 43 3 7 0b0010010 Instr.len274 ∧
  LengthRule 275 51 3 7 0b0010011 Instr.len275 ∧
  LengthRule 276 59 3 7 0b0010100 Instr.len276 ∧
  LengthRule 277 67 4 7 0b0010101 Instr.len277 ∧
  LengthRule 278 83 4 7 0b0010110 Instr.len278 ∧
  LengthRule 279 99 4 7 0b0010111 Instr.len279 ∧
  LengthRule 280 115 4 8 0b11000000 Instr.len280

/-- Length symbols 281 to 285 (44_symbols.md R285 to R289). What exec of a length element alone
answers, awaitDist being set, is the model's choice (log 3). -/
def Obligations.LengthSymbols281To285 : Prop :=
  LengthRule 281 131 5 8 0b11000001 Instr.len281 ∧
  LengthRule 282 163 5 8 0b11000010 Instr.len282 ∧
  LengthRule 283 195 5 8 0b11000011 Instr.len283 ∧
  LengthRule 284 227 5 8 0b11000100 Instr.len284 ∧
  LengthRule 285 258 0 8 0b11000101 Instr.len285

/-- Distance codes 0 to 11 (44_symbols.md R290 to R301, R251; 45_window_copy.md R344). What exec of a distance element
alone answers after a length, awaitDist being cleared, is the model's choice (log 3); match_dist staying written under
DistanceTooFar is log 28. -/
def Obligations.DistanceCodes0To11 : Prop :=
  DistanceRule 0 1 0 0b00000 Instr.dist0 ∧
  DistanceRule 1 2 0 0b00001 Instr.dist1 ∧
  DistanceRule 2 3 0 0b00010 Instr.dist2 ∧
  DistanceRule 3 4 0 0b00011 Instr.dist3 ∧
  DistanceRule 4 5 1 0b00100 Instr.dist4 ∧
  DistanceRule 5 7 1 0b00101 Instr.dist5 ∧
  DistanceRule 6 9 2 0b00110 Instr.dist6 ∧
  DistanceRule 7 13 2 0b00111 Instr.dist7 ∧
  DistanceRule 8 17 3 0b01000 Instr.dist8 ∧
  DistanceRule 9 25 3 0b01001 Instr.dist9 ∧
  DistanceRule 10 33 4 0b01010 Instr.dist10 ∧
  DistanceRule 11 49 4 0b01011 Instr.dist11

/-- Distance codes 12 to 23 (44_symbols.md R302 to R313, R251; 45_window_copy.md R344). What exec of a distance element
alone answers after a length, awaitDist being cleared, is the model's choice (log 3); match_dist staying written under
DistanceTooFar is log 28. -/
def Obligations.DistanceCodes12To23 : Prop :=
  DistanceRule 12 65 5 0b01100 Instr.dist12 ∧
  DistanceRule 13 97 5 0b01101 Instr.dist13 ∧
  DistanceRule 14 129 6 0b01110 Instr.dist14 ∧
  DistanceRule 15 193 6 0b01111 Instr.dist15 ∧
  DistanceRule 16 257 7 0b10000 Instr.dist16 ∧
  DistanceRule 17 385 7 0b10001 Instr.dist17 ∧
  DistanceRule 18 513 8 0b10010 Instr.dist18 ∧
  DistanceRule 19 769 8 0b10011 Instr.dist19 ∧
  DistanceRule 20 1025 9 0b10100 Instr.dist20 ∧
  DistanceRule 21 1537 9 0b10101 Instr.dist21 ∧
  DistanceRule 22 2049 10 0b10110 Instr.dist22 ∧
  DistanceRule 23 3073 10 0b10111 Instr.dist23

/-- Distance codes 24 to 29 (44_symbols.md R314 to R319, R251; 45_window_copy.md R344). What exec of a distance element
alone answers after a length, awaitDist being cleared, is the model's choice (log 3); match_dist staying written under
DistanceTooFar is log 28. -/
def Obligations.DistanceCodes24To29 : Prop :=
  DistanceRule 24 4097 11 0b11000 Instr.dist24 ∧
  DistanceRule 25 6145 11 0b11001 Instr.dist25 ∧
  DistanceRule 26 8193 12 0b11010 Instr.dist26 ∧
  DistanceRule 27 12289 12 0b11011 Instr.dist27 ∧
  DistanceRule 28 16385 13 0b11100 Instr.dist28 ∧
  DistanceRule 29 24577 13 0b11101 Instr.dist29

/-- Which numbers the two base tables reach, inferences of the spec (44_symbols.md R322, R324; 30_encoding.md R108): every distance 1 to 32768 has
exactly one spelling, every length 3 to 258 has one, and 258 alone has two, symbol 284 with extra value 31 and symbol 285;
nothing else is reached. -/
def Obligations.RangesTile : Prop :=
  (∀ c y, c ≤ 29 → y < 2 ^ distExtra c → 1 ≤ distanceBase.getD c 0 + y ∧ distanceBase.getD c 0 + y ≤ 32768) ∧
  (∀ d, 1 ≤ d → d ≤ 32768 → ∃! p : Nat × Nat, p.1 ≤ 29 ∧ p.2 < 2 ^ distExtra p.1 ∧ d = distanceBase.getD p.1 0 + p.2) ∧
  (∀ sym x, 257 ≤ sym → sym ≤ 285 → x < 2 ^ lenExtra sym →
    3 ≤ lengthBase.getD (sym - 257) 0 + x ∧ lengthBase.getD (sym - 257) 0 + x ≤ 258) ∧
  (∀ m, 3 ≤ m → m ≤ 257 → ∃! p : Nat × Nat, 257 ≤ p.1 ∧ p.1 ≤ 285 ∧ p.2 < 2 ^ lenExtra p.1 ∧
    m = lengthBase.getD (p.1 - 257) 0 + p.2) ∧
  (∀ sym x, 257 ≤ sym → sym ≤ 285 → x < 2 ^ lenExtra sym →
    (lengthBase.getD (sym - 257) 0 + x = 258 ↔ (sym = 284 ∧ x = 31) ∨ (sym = 285 ∧ x = 0)))

/-- A whole match (44_symbols.md R250, R251): one SYMBOL step decodes a length symbol and the distance code after it.
Both are decoded from the cursor, length and distance are written, the distance is checked, and the copy starts, or
DistanceTooFar is taken; nothing is emitted either way. That a byte waiting on the output port is taken first in the
step is the model's choice (log 21). That one step of the model runs both elements is log 3. Where the cursor stands
after DistanceTooFar, which the spec says is not a result (U6), is log 10, and that match_len and match_dist stay
written then is log 28. A step that resumes with bits it holds (log 4) is StepRunsDecoded's. -/
def Obligations.MatchDecodedWhole : Prop :=
  ∀ (s : State) (sym c n k : Nat) (mkL : BitVec 5 → Instr) (mkD : BitVec 13 → Instr) (x : BitVec 5) (y : BitVec 13),
    s.rst = false → s.nextFormat = some .ll → s.rd.held = [] →
    257 ≤ sym → lenCtors[sym - 257]? = some mkL → distCtors[c]? = some mkD →
    decode (s.ctx .ll) s.rd.unread = .ok (mkL x) n →
    decode (s.ctx .d) (s.rd.unread.drop n) = .ok (mkD y) k →
    ∃ (m : BitVec 9) (d : BitVec 16),
      m.toNat = lengthBase.getD (sym - 257) 0 + x.toNat ∧ d.toNat = distanceBase.getD c 0 + y.toNat ∧
      let u := { s with
        rd := s.rd.consume (n + k)
        matchLen := m
        matchDist := d
        outValid := s.outValid && !s.outReady }
      (d.toNat ≤ s.outLen → step s = .next (entered .copy { u with copyRem := m })) ∧
      (s.outLen < d.toNat → step s = .next (raised 6 u))

/-! ### The window and the copy -/

/-- Emit (45_window_copy.md R343): the byte goes to WIN[wr_ptr], the output port and the output; every other cell of the
window is as it was, and the window keeps its canonical form. The window as a list of written cells, and its canonical
form, are the model's (log 8). -/
def Obligations.EmitWritesOneByte : Prop :=
  ∀ (s : State) (b : Byte),
    s.emit b = emitted b s ∧
    (s.emit b).win.read s.wrPtr.toNat = some b ∧
    (∀ a, a ≠ s.wrPtr.toNat → (s.emit b).win.read a = s.win.read a) ∧
    (s.win.wf = true → (s.emit b).win.wf = true) ∧
    (s.emit b).wrPtr.toNat = (s.wrPtr.toNat + 1) % 32768

/-- The COPY step (45_window_copy.md R345): the byte match_dist positions back in the output is emitted, copy_rem goes down,
and the copy ends at 0; no stream bit is consumed; while the output port is occupied nothing changes. That with out_ready = 1
the step takes the waiting byte and emits the next one is the model's choice (log 21), which R66 and R343 leave open. -/
def Obligations.CopyStepEmits : Prop :=
  ∀ s : State, s.Inv → s.rst = false → s.phase = .copy →
    (s.outValid = false ∨ s.outReady = true →
      ∃ b, s.out[s.outLen - s.matchDist.toNat]? = some b ∧
        s.win.read ((s.wrPtr.toNat + 32768 - s.matchDist.toNat) % 32768) = some b ∧
        step s = .next
          { emitted b s with
            copyRem := s.copyRem - 1
            phase := if s.copyRem - 1 = 0 then .symbol else .copy }) ∧
    (s.outValid = true → s.outReady = false → step s = .next s)

/-- A whole copy (45_window_copy.md R345, in the closed form the spec infers, R346), the downstream ready: output byte S
+ i is output byte S - match_dist + (i mod match_dist), for i below copy_rem, S being out_len at its start; no stream
bit is consumed. That it takes copy_rem steps, one byte being taken and the next emitted in one step, is the model's
choice (logs 1 and 21). -/
def Obligations.CopyIsCyclic : Prop :=
  ∀ s : State, s.Inv → s.rst = false → s.phase = .copy → s.outReady = true →
    ∃ t, Host.Core.run Sys2Proof.core s.copyRem.toNat s = .next t ∧
      t.phase = .symbol ∧ t.rd = s.rd ∧ t.outLen = s.outLen + s.copyRem.toNat ∧
      (∀ k, k < s.outLen → t.out[k]? = s.out[k]?) ∧
      (∀ i, i < s.copyRem.toNat →
        t.out[s.outLen + i]? = s.out[s.outLen - s.matchDist.toNat + i % s.matchDist.toNat]?)

/-- The two forms of the distance check agree (45_window_copy.md R344): against out_len and against hist_cnt. -/
def Obligations.DistanceCheckForms : Prop :=
  ∀ (s : State) (d : BitVec 16), s.Inv → d.toNat ≤ 32768 → (s.outLen < d.toNat ↔ s.histCnt.toNat < d.toNat)

/-! ### Frames -/

/-- What no element but LIT and STORED_BYTE touches: every byte of the window, its pointers, the output, the output
port's byte, the reader, and the levels of the neighbours. rst's edge and the free-value counter are the model's own
fields (logs 16 and 9), and out_data is none of the spec's results while no byte is offered (log 20). -/
def Obligations.FrameOfNonEmitting : Prop :=
  ∀ (i : Instr) (s t : State), i.emits = false → exec i s = .next t →
    (∀ a, t.win.read a = s.win.read a) ∧ t.wrPtr = s.wrPtr ∧ t.histCnt = s.histCnt ∧ t.outLen = s.outLen ∧
    t.out = s.out ∧ t.outData = s.outData ∧ t.outValid = s.outValid ∧ t.rd = s.rd ∧
    t.outReady = s.outReady ∧ t.rst = s.rst ∧ t.rstEdge = s.rstEdge ∧ t.freeCtr = s.freeCtr

/-- LIT and STORED_BYTE: the address stored to is wr_ptr; every other byte of the window is unchanged, and so is every
register but the output's own, stored_rem and the phase. That the registers of other phases keep their values, which the
spec leaves open (U8), is log 24; an emitting element on an occupied port changes nothing (log 5); awaitDist, rst's edge
and the free-value counter are the model's own fields (logs 3, 16 and 9). -/
def Obligations.FrameOfEmitting : Prop :=
  ∀ (i : Instr) (s t : State), i.emits = true → exec i s = .next t →
    (∀ a, a ≠ s.wrPtr.toNat → t.win.read a = s.win.read a) ∧
    (∀ k, k < s.out.length → t.out[k]? = s.out[k]?) ∧
    t.rd = s.rd ∧ t.awaitDist = s.awaitDist ∧ t.bfinal = s.bfinal ∧ t.btype = s.btype ∧
    t.hlit = s.hlit ∧ t.hdist = s.hdist ∧ t.hclen = s.hclen ∧ t.clIdx = s.clIdx ∧ t.lenIdx = s.lenIdx ∧
    t.matchLen = s.matchLen ∧ t.matchDist = s.matchDist ∧ t.copyRem = s.copyRem ∧
    t.clLens = s.clLens ∧ t.lens = s.lens ∧ t.tCL = s.tCL ∧ t.tLL = s.tLL ∧ t.tD = s.tD ∧
    t.error = s.error ∧ t.errCode = s.errCode ∧ t.outReady = s.outReady ∧ t.rst = s.rst ∧
    t.rstEdge = s.rstEdge ∧ t.freeCtr = s.freeCtr ∧
    (t.storedRem = s.storedRem ∨ s.phase = .storedCopy)

/-! ### Faults -/

/-- raise (60_exceptions.md R377) and its codes (R371). That busy and done move with it is R39 and R377 (log 27). -/
def Obligations.RaiseEntersError : Prop :=
  (∀ (s : State) (k : ErrKind), s.error = false → s.raise k = raised (errCodeOf k) s) ∧
  (∀ (s : State) (k : ErrKind), s.error = true → (s.raise k).errCode = s.errCode) ∧
  errCodeOf .wrongUncompressedBlockLengths = 1 ∧ errCodeOf .wrongBlockType = 2 ∧ errCodeOf .wrongSymbol = 3 ∧
  errCodeOf .symbolNotFound = 4 ∧ errCodeOf .truncatedInput = 5 ∧ errCodeOf .distanceTooFar = 6 ∧
  errCodeOf .noPreviousLength = 7 ∧ errCodeOf .codeLengthOverrun = 8 ∧ errCodeOf .oversubscribedCode = 9

/-- Where bits that have run out are TruncatedInput and where they are SymbolNotFound (40_bitreader.md R149,
41_huffman.md R172, 60_exceptions.md R376). -/
def Obligations.WhichFaultAtTheEnd : Prop :=
  ∀ (c : Ctx) (bits : List Bool),
    (c.fmt = .bh → (decode c bits = .short .truncatedInput ↔ bits.length < 3)) ∧
    (c.fmt = .stHdr → (decode c bits = .short .truncatedInput ↔ bits.length < 32)) ∧
    (c.fmt = .stData → (decode c bits = .short .truncatedInput ↔ bits.length < 8)) ∧
    (c.fmt = .dhCounts → (decode c bits = .short .truncatedInput ↔ bits.length < 14)) ∧
    (c.fmt = .dhCllen → (decode c bits = .short .truncatedInput ↔ bits.length < 3)) ∧
    (c.fmt = .cls → huffDecode c.tCL bits = .short → decode c bits = .short .symbolNotFound) ∧
    (c.fmt = .ll → huffDecode c.tLL bits = .short → decode c bits = .short .symbolNotFound) ∧
    (c.fmt = .d → huffDecode c.tD bits = .short → decode c bits = .short .symbolNotFound) ∧
    (∀ n, c.fmt = .cls → huffDecode c.tCL bits = .absent n → decode c bits = .reject .symbolNotFound n) ∧
    (∀ n, c.fmt = .ll → huffDecode c.tLL bits = .absent n → decode c bits = .reject .symbolNotFound n) ∧
    (∀ n, c.fmt = .d → huffDecode c.tD bits = .absent n → decode c bits = .reject .symbolNotFound n) ∧
    (∀ n, c.fmt = .cls → huffDecode c.tCL bits = .symbol 16 n → c.hasPrev = true → (bits.drop n).length < 2 →
      decode c bits = .short .truncatedInput) ∧
    (∀ n, c.fmt = .cls → huffDecode c.tCL bits = .symbol 17 n → (bits.drop n).length < 3 →
      decode c bits = .short .truncatedInput) ∧
    (∀ n, c.fmt = .cls → huffDecode c.tCL bits = .symbol 18 n → (bits.drop n).length < 7 →
      decode c bits = .short .truncatedInput) ∧
    (∀ s n, c.fmt = .ll → huffDecode c.tLL bits = .symbol s n → 257 ≤ s → s ≤ 285 → (bits.drop n).length < lenExtra s →
      decode c bits = .short .truncatedInput) ∧
    (∀ s n, c.fmt = .d → huffDecode c.tD bits = .symbol s n → s ≤ 29 → (bits.drop n).length < distExtra s →
      decode c bits = .short .truncatedInput)

/-- A step whose element ends beyond the bits there are (20_memory.md R63, 40_bitreader.md R149): at the end of the stream
it takes the fault, else it holds; the registers whose fields it has read already are written (60_exceptions.md R377).
These are the model's choices: how a step holds part-way, and that those registers are written then (log 4); where the
cursor stands after a fault (logs 9 and 10); that the output port moves first (log 21); and that with in_eos = 0 the step
still holds on bits that may be no prefix of a code, where an implementation may fault at once (41_huffman.md R172,
log 26). -/
def Obligations.StepAtTheEndOfTheBits : Prop :=
  ∀ (s : State) (f : Format) (k : ErrKind), s.rst = false → s.nextFormat = some f → (f = .stData → s.rd.brBit = 0) →
    decode (s.ctx f) (bitsFor f s) = .short k →
    (s.rd.inEos = true →
      ∃ rd' n, (k = .truncatedInput →
          rd' = { (readerFor f s).consume (readerFor f s).unread.length with held := [] } ∧ n = s.freeCtr) ∧
        step s = .next (raised (errCodeOf k)
          { fieldsWritten f (bitsFor f s) s with rd := rd', outValid := s.outValid && !s.outReady, freeCtr := n })) ∧
    (s.rd.inEos = false →
      step s = .next { portMoved (fieldsWritten f (bitsFor f s) s) with
        rd := { (readerFor f s).consume (readerFor f s).unread.length with held := bitsFor f s } })

/-- A step that meets bits no element begins with takes the fault the decoder names (41_huffman.md R172,
43_dynamic_header.md R236). Where the cursor stands after SymbolNotFound is a free value (log 9), of which only this is
said: it has not moved past the bits that HuffDecode reads. Where it stands after another fault (log 10), and that the
output port moves first (log 21), are the model's choices. The bits consumed while holding are log 4, and that a code is
absent only when maxlen(T) bits are there is log 26. -/
def Obligations.StepAtAnUnassignedCode : Prop :=
  ∀ (s : State) (f : Format) (k : ErrKind) (used : Nat), s.rst = false → s.nextFormat = some f →
    decode (s.ctx f) (s.rd.held ++ s.rd.unread) = .reject k used →
    ∃ m n, m ≤ used - s.rd.held.length ∧ (k ≠ .symbolNotFound → m = used - s.rd.held.length ∧ n = s.freeCtr) ∧
      step s = .next (raised (errCodeOf k)
        { s with
          rd := { s.rd.consume m with held := [] }
          outValid := s.outValid && !s.outReady
          freeCtr := n })

/-- A step that faults emits nothing, an inference of the spec (60_exceptions.md R383): output, window and pointers are
those of the steps before. That a byte waiting on the output port is taken in such a step too is the model's choice (log
21). That out_data keeps the byte after it is taken, which the spec leaves open (U9), is log 20. -/
def Obligations.FaultingStepEmitsNothing : Prop :=
  ∀ s t : State, s.rst = false → s.error = false → step s = .next t → t.error = true →
    t.out = s.out ∧ t.outLen = s.outLen ∧ t.win = s.win ∧ t.wrPtr = s.wrPtr ∧ t.histCnt = s.histCnt ∧
    t.outData = s.outData ∧ t.outValid = (s.outValid && !s.outReady) ∧
    t.phase = .error ∧ 1 ≤ t.errCode.toNat ∧ t.errCode.toNat ≤ 9

/-- ERROR is terminal (60_exceptions.md R384): only a waiting output byte can still leave, and busy falls with it; no
byte is asked for. The spec has no step there (U13); that the model's step is idle, and answers a next state, is log 11.
That out_data keeps the byte after it is taken, which the spec leaves open (U9), is log 20. -/
def Obligations.ErrorIsTerminal : Prop :=
  ∀ s : State, s.rst = false → s.phase = .error → s.error = true →
    s.inReady = false ∧
    step s = .next
      { s with outValid := s.outValid && !s.outReady, busy := s.outValid && !s.outReady, done := false }

/-! ### The step, the ports and reset -/

/-- A step runs the decoded element: when the bits its step has consumed and those at the cursor decode to i, the step
is exec of i on the state whose output port has moved and whose cursor is past the element (STORED_LEN aligns the cursor
first); an element that emits waits, with its bits consumed, while the output port is occupied. After a length the same
step goes on with the distance code (44_symbols.md R250, R254): what it answers is what a step from the state after the
length answers, to which this statement and the next two apply again. That the bits of an element are held in State, and
that the port moves first in a step, are the model's choices (logs 4, 5 and 21). That the same step goes on through exec
of each element is log 3; the aligned cursor before STORED_LEN is log 23; where the cursor stands after an element that
faults, which is no result (U6), is log 10; an unaligned data byte is ModelStops' (log 18). -/
def Obligations.StepRunsDecoded : Prop :=
  ∀ (s : State) (f : Format) (i : Instr) (n : Nat), s.rst = false → s.nextFormat = some f →
    (f = .stData → s.rd.brBit = 0) → decode (s.ctx f) (bitsFor f s) = .ok i n →
    let past : State :=
      { portMoved s with rd := { (readerFor f s).consume (n - s.rd.held.length) with held := [] } }
    (¬ lengthElement i → (i.emits && (s.outValid && !s.outReady)) = false → step s = exec i past) ∧
    (lengthElement i → ∃ u, exec i past = .next u ∧ u.nextFormat = some .d ∧ step s = step u) ∧
    ((i.emits && (s.outValid && !s.outReady)) = true →
      step s = .next { past with rd := { past.rd with held := (bitsFor f s).take n } })

/-- Where the MODEL stops, on no run from reset (logs 8, 17 and 18): an element in a phase that does not ask for its format;
STORED_BYTE and COPY with nothing left; an index outside a table; a byte read that is not aligned (20_memory.md R74); a
window cell nothing has written. -/
def Obligations.ModelStops : Prop :=
  (∀ (i : Instr) (s : State), s.nextFormat ≠ some i.format → exec i s = .refused .wrongPhase) ∧
  (∀ (s : State) (b : Byte), s.nextFormat = some .stData → s.storedRem = 0 →
    exec (.storedByte b) s = .fault .counterUnderflow) ∧
  (∀ (s : State) (v : BitVec 3), s.nextFormat = some .dhCllen → 19 ≤ s.clIdx.toNat →
    exec (.cllen v) s = .fault .tableIndex) ∧
  (∀ (s : State) (v : BitVec 4), s.nextFormat = some .cls → s.lens.length ≤ s.lenIdx.toNat →
    exec (.clLen v) s = .fault .tableIndex) ∧
  (∀ s : State, s.rst = false → s.nextFormat = some .stData → s.rd.brBit ≠ 0 → step s = .fault .unalignedByteRead) ∧
  (∀ s : State, s.rst = false → s.phase = .copy → s.error = false →
    (s.copyRem = 0 → step s = .fault .counterUnderflow) ∧
    (s.copyRem ≠ 0 → s.win.read ((s.wrPtr.toNat + 32768 - s.matchDist.toNat % 32768) % 32768) = none →
      step s = .fault .windowUnwritten))

/-- A step that waits for input resumes where it was (20_memory.md R63; 44_symbols.md R323, an inference of the spec;
logs 3 and 4), also between the length and the distance of a match: letting it hold and then offering a byte gives the
state that offering the byte first gives. Where the element turns out to be no code, only the cursor after the fault may
differ, which the spec leaves open (U6). That the step holds on bits that may already be no prefix of a code is the
model's choice (log 26), and so is that the port moves first (log 21). -/
def Obligations.HoldingThenByteIsByteFirst : Prop :=
  ∀ (s : State) (f : Format) (k : ErrKind) (b : Byte), s.Inv → s.rst = false → s.nextFormat = some f →
    s.rd.inEos = false → stepShort f k s →
    ∃ h t t', step s = .next h ∧
      step { h with rd := { h.rd with input := h.rd.input ++ [b] } } = .next t ∧
      step { s with rd := { s.rd with input := s.rd.input ++ [b] } } = .next t' ∧
      (t = t' ∨ t.error = true ∧ t'.error = true ∧ t = { t' with rd := t.rd })

/-- A slow downstream delays and changes nothing else (45_window_copy.md R348, 20_memory.md R66): an element that waits for
the output port leaves output and port as they are, and once the port is free it does what it would have done. How it waits,
and that it emits in the step in which the byte before it is taken, are the model's choices (logs 5 and 21). -/
def Obligations.SlowDownstreamOnlyDelays : Prop :=
  ∀ (s : State) (f : Format) (i : Instr) (n : Nat), s.Inv → s.rst = false → s.nextFormat = some f →
    decode (s.ctx f) (s.rd.held ++ s.rd.unread) = .ok i n → i.emits = true → s.rd.held.length ≤ n →
    s.outValid = true → s.outReady = false →
    ∃ h, step s = .next h ∧ h.out = s.out ∧ h.outData = s.outData ∧ h.outValid = true ∧ h.win = s.win ∧
      step { h with outReady := true } = step { s with outReady := true }

/-- The output only grows, by at most one byte a step (20_memory.md R66): a new byte is the one on the port, and it is
emitted only when the byte before it is taken, before that step or, which is the model's choice (log 21), in it. That
out_data keeps the byte after it is taken, which the spec leaves open (U9), is log 20. -/
def Obligations.OutputOnlyGrows : Prop :=
  ∀ s t : State, s.rst = false → step s = .next t →
    (t.out = s.out ∧ t.outLen = s.outLen ∧ t.outData = s.outData ∧ t.outValid = (s.outValid && !s.outReady)) ∨
    (∃ b, t.out = s.out ++ [b] ∧ t.outLen = s.outLen + 1 ∧ t.outData = b ∧ t.outValid = true ∧
      (s.outValid = false ∨ s.outReady = true))

/-- DONE is terminal (42_block_control.md R198): no bit is consumed and no byte is asked for; once the last byte is
taken, done is 1 and busy 0. The spec has no step there (U13); that the model's step is idle, and answers a next state,
is log 11. That out_data keeps the byte after it is taken, which the spec leaves open (U9), is log 20. -/
def Obligations.DoneIsTerminal : Prop :=
  ∀ s : State, s.rst = false → s.phase = .done → s.error = false →
    s.inReady = false ∧
    step s = .next
      { s with
        outValid := s.outValid && !s.outReady
        busy := s.outValid && !s.outReady
        done := !(s.outValid && !s.outReady) }

/-- Reset (70_reset_and_hazards.md R410, 10_state.md R44): rst has priority in any phase; the registers with a reset value
have it, in the state after a reset step and in State.reset, and once rst is low the block asks for its first byte (R411). -/
def Obligations.ResetState : Prop :=
  let isReset (t : State) : Prop :=
    t.rd.brIndex = 0 ∧ t.rd.brBit = 0 ∧ t.rd.brHave = false ∧ t.rd.inCnt = 0 ∧ t.phase = .header ∧
    t.wrPtr = 0 ∧ t.histCnt = 0 ∧ t.outLen = 0 ∧ t.out = [] ∧ t.busy = true ∧ t.done = false ∧ t.error = false ∧
    t.errCode = 0 ∧ t.outValid = false ∧ ({ t with rst := false } : State).inReady = true
  isReset State.reset ∧ ∀ s : State, s.rst = true → ∃ t, step s = .next t ∧ isReset t

/-- The status ports (10_state.md R39) after every step from a state of the invariant (log 27). -/
def Obligations.StatusPorts : Prop :=
  ∀ s t : State, s.Inv → step s = .next t →
    (t.busy = true ↔ (t.phase ≠ .done ∧ t.phase ≠ .error) ∨ t.outValid = true) ∧
    (t.done = true ↔ t.phase = .done ∧ t.outValid = false) ∧
    (t.error = true ↔ t.phase = .error) ∧
    ¬ (t.done = true ∧ t.error = true) ∧
    (t.error = false → t.errCode = 0)

/-- The moves of the environment (60_exceptions.md R390) keep the invariant, and each changes its own levels alone. A
neighbour that breaks the protocol (20_memory.md R84) or the host's duty (R390) is refused, which is the model's choice
(log 16): no byte after the end of the stream; no new stream, which withdraws the bytes offered and may lower in_eos,
before an edge has reset the block; rst not lowered before an edge. A step with rst = 1 is that edge; that between it
and the fall of rst another stream may be presented, replacing the bytes offered and in_eos, is the model's choice too
(log 14). The offered bytes as a list in State are the model's form (log 2). -/
def Obligations.EnvironmentMoves : Prop :=
  ∀ (s : State) (b : Byte) (level : Bool) (bytes : List Byte),
    (s.rd.inEos = false → s.offerByte b = .next { s with rd := { s.rd with input := s.rd.input ++ [b] } }) ∧
    (s.rd.inEos = true → s.offerByte b = .refused .protocolViolation) ∧
    s.raiseEos = .next { s with rd := { s.rd with inEos := true } } ∧
    s.setOutReady level = .next { s with outReady := level } ∧
    s.setRst true = .next { s with rst := true, rstEdge := s.rst && s.rstEdge } ∧
    (s.rst = true → s.rstEdge = false → s.setRst false = .refused .protocolViolation) ∧
    (s.rst = false ∨ s.rstEdge = true → s.setRst false = .next { s with rst := false, rstEdge := false }) ∧
    (s.rst = false ∨ s.rstEdge = false → s.presentStream bytes level = .refused .protocolViolation) ∧
    (s.rst = true → s.rstEdge = true →
      s.presentStream bytes level = .next { s with rd := { s.rd with input := bytes, inEos := level } }) ∧
    (s.rst = true → ∃ t, step s = .next t ∧ t.rst = true ∧ t.rstEdge = true) ∧
    (s.Inv → ∀ t, s.offerByte b = .next t ∨ s.raiseEos = .next t ∨ s.setOutReady level = .next t ∨
      s.setRst level = .next t ∨ s.presentStream bytes level = .next t → t.Inv)

/-! ### The invariant -/

/-- The state after reset meets the invariant. It takes the contents that the model gives to the memories and tables at
reset, which the spec leaves unspecified (logs 7 and 8), and the model's own fields (logs 3, 4 and 16). -/
def Obligations.InvAtReset : Prop := State.reset.Inv

/-- Every step keeps the invariant (Safety.lean): reader and input agree, window and output agree, the status ports say
what the phase is, no table is over-subscribed, and the registers of the phase in progress are in their ranges. That
reader and input agree after a step that faults too is the model's choice (logs 9 and 10; U6 leaves them any value).
After a step with rst = 1 it takes the model's reset contents (logs 7, 8 and 14); that bits held part-way are whole
bytes in a stored block is the model's form (log 4), and registers after a fault are log 28. -/
def Obligations.InvKept : Prop :=
  ∀ s t : State, s.Inv → step s = .next t → t.Inv

/-- Where the invariant holds no step stops: it answers a next state, no fault and no refusal of the model. The stops it
excludes are the model's (logs 8, 17 and 18); that a step in DONE or ERROR answers a next state is log 11. -/
def Obligations.InvNeverStops : Prop :=
  ∀ s : State, s.Inv → ∃ t, step s = .next t
end

