-- ==== Sys2Proof/Laws/Reader.lean ====
section
/-! SUPPORT. What the bit reader does, said once: GetBit takes the head of the unread bits, and consuming n bits drops n
of them and moves pos by n. -/

namespace Sys2Proof.Machine

@[simp] theorem byteBits_length (b : Byte) : (byteBits b).length = 8 := rfl

/-- Dropping bits of a byte one at a time. -/
theorem byteBits_drop (b : Byte) {k : Nat} (hk : k < 8) :
    (byteBits b).drop k = b.getLsbD k :: (byteBits b).drop (k + 1) := by
  obtain rfl | rfl | rfl | rfl | rfl | rfl | rfl | rfl :
      k = 0 ∨ k = 1 ∨ k = 2 ∨ k = 3 ∨ k = 4 ∨ k = 5 ∨ k = 6 ∨ k = 7 := by omega
  all_goals rfl

@[simp] theorem byteBits_drop_eight (b : Byte) : (byteBits b).drop 8 = [] := rfl

@[simp] theorem streamBits_length (bs : List Byte) : (streamBits bs).length = 8 * bs.length := by
  induction bs with
  | nil => rfl
  | cons b bs ih => simp [streamBits, ih]; omega

@[simp] theorem streamBits_append (as bs : List Byte) : streamBits (as ++ bs) = streamBits as ++ streamBits bs := by
  induction as with
  | nil => rfl
  | cons a as ih => simp [streamBits, ih]

@[simp] theorem Reader.bump_input (r : Reader) : r.bump.input = r.input := by unfold Reader.bump; split <;> rfl
@[simp] theorem Reader.bump_inEos (r : Reader) : r.bump.inEos = r.inEos := by unfold Reader.bump; split <;> rfl
@[simp] theorem Reader.bump_held (r : Reader) : r.bump.held = r.held := by unfold Reader.bump; split <;> rfl
@[simp] theorem Reader.bump_inCnt (r : Reader) : r.bump.inCnt = r.inCnt := by unfold Reader.bump; split <;> rfl

theorem brBit_lt (x : BitVec 3) : x.toNat < 8 := x.isLt

theorem brBit_add_one {x : BitVec 3} (h : x ≠ 7) : (x + 1).toNat = x.toNat + 1 := by
  revert h; revert x; decide

theorem brBit_ne_seven {x : BitVec 3} (h : x ≠ 7) : x.toNat < 7 := by
  revert h; revert x; decide

theorem Reader.bump_pos (r : Reader) : r.bump.pos = r.pos + 1 := by
  unfold Reader.bump Reader.pos
  split
  · rename_i h; simp [h]; omega
  · rename_i h; simp only [brBit_add_one h]; omega

/-- The unread bits seen from a reader that holds its byte: the bit GetBit returns, then those of the reader after it. -/
theorem Reader.unread_bump {r : Reader} (h : r.brHave = true) :
    r.unread = r.brByte.getLsbD r.brBit.toNat :: r.bump.unread := by
  have hlt := brBit_lt r.brBit
  unfold Reader.bump
  split
  · rename_i h7
    have e : r.brBit.toNat = 7 := by rw [h7]; rfl
    simp only [Reader.unread, h, if_true, e, byteBits_drop _ (show 7 < 8 by omega), List.cons_append]
    simp
  · rename_i h7
    simp only [Reader.unread, h, if_true, byteBits_drop _ hlt, List.cons_append, brBit_add_one h7]

/-- Taking a byte changes nothing of the unread bits. -/
theorem Reader.unread_needByte {r r' : Reader} (h : r.needByte = some r') : r'.unread = r.unread ∧ r'.brHave = true := by
  unfold Reader.needByte at h
  split at h
  · rename_i hh; cases h; exact ⟨rfl, hh⟩
  · rename_i hh
    split at h
    · rename_i b hb
      cases h
      refine ⟨?_, rfl⟩
      have hlt : r.brIndex < r.input.length := by
        by_contra hc
        rw [List.getElem?_eq_none (by omega)] at hb
        cases hb
      have hdrop : r.input.drop r.brIndex = b :: r.input.drop (r.brIndex + 1) := by
        rw [List.drop_eq_getElem_cons hlt]
        rw [List.getElem?_eq_getElem hlt] at hb
        cases hb; rfl
      have hbit := brBit_lt r.brBit
      simp only [Reader.unread, if_true, if_neg hh, hdrop, streamBits]
      rw [List.drop_append_of_le_length (by simp; omega)]
    · cases h

theorem Reader.needByte_same {r r' : Reader} (h : r.needByte = some r') :
    r'.input = r.input ∧ r'.inEos = r.inEos ∧ r'.held = r.held ∧ r'.brIndex = r.brIndex ∧ r'.brBit = r.brBit := by
  unfold Reader.needByte at h
  split at h
  · cases h; simp
  · split at h <;> cases h; simp

/-- GetBit (40_bitreader.md R142) takes the head of the unread bits, moves pos by one and leaves the rest. -/
theorem Reader.getBit_some {r r' : Reader} {b : Bool} (h : r.getBit = some (b, r')) :
    r.unread = b :: r'.unread ∧ r'.pos = r.pos + 1 ∧ r'.input = r.input ∧ r'.inEos = r.inEos ∧ r'.held = r.held := by
  unfold Reader.getBit at h
  cases hn : r.needByte with
  | none => rw [hn] at h; cases h
  | some q =>
    rw [hn] at h
    simp only [Option.map_some, Option.some.injEq, Prod.mk.injEq] at h
    obtain ⟨hb, rfl⟩ := h
    obtain ⟨hu, hh⟩ := Reader.unread_needByte hn
    obtain ⟨h1, h2, h3, h4, h5⟩ := Reader.needByte_same hn
    refine ⟨?_, ?_, by simp [h1], by simp [h2], by simp [h3]⟩
    · rw [← hu, Reader.unread_bump hh, hb]
    · rw [Reader.bump_pos]; simp [Reader.pos, h4, h5]

/-- GetBit finds no bit exactly when none is unread (R149). -/
theorem Reader.getBit_none {r : Reader} : r.getBit = none ↔ r.unread = [] := by
  constructor
  · intro h
    unfold Reader.getBit Reader.needByte at h
    split at h
    · cases h
    · rename_i hh
      split at h
      · cases h
      · rename_i hn
        have : r.input.length ≤ r.brIndex := List.getElem?_eq_none_iff.mp hn
        simp [Reader.unread, hh, List.drop_eq_nil_of_le this, streamBits]
  · intro h
    cases hg : r.getBit with
    | none => rfl
    | some p => rw [(Reader.getBit_some (r' := p.2) (b := p.1) hg).1] at h; cases h

theorem Reader.getBit_cons {r : Reader} {b : Bool} {bs : List Bool} (h : r.unread = b :: bs) :
    ∃ r', r.getBit = some (b, r') ∧ r'.unread = bs := by
  cases hg : r.getBit with
  | none => rw [Reader.getBit_none.mp hg] at h; cases h
  | some p =>
    obtain ⟨b', r'⟩ := p
    have := (Reader.getBit_some hg).1
    rw [h] at this
    cases this
    exact ⟨r', rfl, rfl⟩

/-- Consuming n bits drops them from the unread bits; the input is untouched. -/
theorem Reader.consume_spec (n : Nat) (r : Reader) :
    (r.consume n).unread = r.unread.drop n ∧ (r.consume n).pos = r.pos + min n r.unread.length ∧
      (r.consume n).input = r.input ∧ (r.consume n).inEos = r.inEos ∧ (r.consume n).held = r.held := by
  induction n generalizing r with
  | zero => simp [Reader.consume]
  | succ n ih =>
    simp only [Reader.consume]
    cases hg : r.getBit with
    | none => simp [Reader.getBit_none.mp hg]
    | some p =>
      obtain ⟨b, r'⟩ := p
      obtain ⟨hu, hp, hi, he, hh⟩ := Reader.getBit_some hg
      obtain ⟨h1, h2, h3, h4, h5⟩ := ih r'
      refine ⟨by simp [h1, hu], ?_, by simp [h3, hi], by simp [h4, he], by simp [h5, hh]⟩
      simp only [h2, hp, hu, List.length_cons]; omega

theorem Reader.consume_unread (n : Nat) (r : Reader) : (r.consume n).unread = r.unread.drop n := (r.consume_spec n).1

@[simp] theorem Reader.consume_input (n : Nat) (r : Reader) : (r.consume n).input = r.input := (r.consume_spec n).2.2.1
@[simp] theorem Reader.consume_inEos (n : Nat) (r : Reader) : (r.consume n).inEos = r.inEos :=
  (r.consume_spec n).2.2.2.1
@[simp] theorem Reader.consume_held (n : Nat) (r : Reader) : (r.consume n).held = r.held := (r.consume_spec n).2.2.2.2

/-- Consuming in two goes. -/
theorem Reader.consume_add (m n : Nat) (r : Reader) : r.consume (m + n) = (r.consume m).consume n := by
  induction m generalizing r with
  | zero => simp [Reader.consume]
  | succ m ih =>
    rw [Nat.succ_add]
    simp only [Reader.consume]
    cases hg : r.getBit with
    | none =>
      cases n with
      | zero => rfl
      | succ n => simp [Reader.consume, hg]
    | some p => exact ih p.2

/-- GetBits(n) (40_bitreader.md R143): the value of the next n bits, first bit as bit 0, and pos moved by n. -/
theorem Reader.getBits_some {n : Nat} {r r' : Reader} {v : Nat} (h : r.getBits n = some (v, r')) :
    v = bitsVal (r.unread.take n) ∧ r' = r.consume n ∧ n ≤ r.unread.length := by
  induction n generalizing r r' v with
  | zero =>
    simp only [Reader.getBits, Option.some.injEq, Prod.mk.injEq] at h
    obtain ⟨rfl, rfl⟩ := h
    exact ⟨rfl, rfl, Nat.zero_le _⟩
  | succ n ih =>
    simp only [Reader.getBits] at h
    cases hg : r.getBit with
    | none => rw [hg] at h; cases h
    | some p =>
      obtain ⟨b, q⟩ := p
      rw [hg] at h
      simp only at h
      cases hq : q.getBits n with
      | none => rw [hq] at h; cases h
      | some w =>
        rw [hq] at h
        simp only [Option.map_some, Option.some.injEq, Prod.mk.injEq] at h
        obtain ⟨h1, h2, h3⟩ := ih hq
        obtain ⟨hu, -⟩ := Reader.getBit_some hg
        refine ⟨?_, ?_, ?_⟩
        · rw [← h.1, h1, hu]; simp [bitsVal]
        · rw [← h.2, h2]; simp [Reader.consume, hg]
        · rw [hu]; simp; omega

theorem fieldVal_eq_bitsVal {n : Nat} {bits : List Bool} (h : n ≤ bits.length) :
    fieldVal n bits = some (bitsVal (bits.take n)) := by
  induction n generalizing bits with
  | zero => rfl
  | succ n ih =>
    cases bits with
    | nil => simp at h
    | cons b bs => simp [fieldVal, ih (by simpa using h), bitsVal]

theorem fieldVal_none {n : Nat} {bits : List Bool} : fieldVal n bits = none ↔ bits.length < n := by
  induction n generalizing bits with
  | zero => simp [fieldVal]
  | succ n ih => cases bits <;> simp [fieldVal, ih]

theorem bitsVal_lt (bits : List Bool) : bitsVal bits < 2 ^ bits.length := by
  induction bits with
  | nil => simp [bitsVal]
  | cons b bs ih => cases b <;> simp [bitsVal, Nat.pow_succ] <;> omega

/-- The value of a field lies below 2^n, and the bits are there. -/
theorem fieldVal_some {n v : Nat} {bits : List Bool} (h : fieldVal n bits = some v) :
    v = bitsVal (bits.take n) ∧ v < 2 ^ n ∧ n ≤ bits.length := by
  have hn : n ≤ bits.length := by
    by_contra hc
    rw [fieldVal_none.mpr (by omega)] at h
    cases h
  rw [fieldVal_eq_bitsVal hn] at h
  cases h
  refine ⟨rfl, ?_, hn⟩
  have := bitsVal_lt (bits.take n)
  rwa [List.length_take_of_le hn] at this

@[simp] theorem fieldBits_length (n v : Nat) : (fieldBits n v).length = n := by
  induction n generalizing v with
  | zero => rfl
  | succ n ih => simp [fieldBits, ih]

/-- A field reads back what its encoding wrote. -/
theorem fieldVal_fieldBits {n v : Nat} (h : v < 2 ^ n) (rest : List Bool) :
    fieldVal n (fieldBits n v ++ rest) = some v := by
  induction n generalizing v with
  | zero => simp at h; simp [fieldVal, h]
  | succ n ih =>
    have h2 : v / 2 < 2 ^ n := by rw [Nat.pow_succ] at h; omega
    simp only [fieldBits, List.cons_append, fieldVal, ih h2, Option.map_some, Option.some.injEq]
    simp only [Nat.testBit_zero]
    have := Nat.mod_two_eq_zero_or_one v
    rcases this with h0 | h1
    · simp [h0]; omega
    · simp [h1]; omega

/-- A field's encoding is the bits it was read from. -/
theorem fieldBits_bitsVal (bits : List Bool) : fieldBits bits.length (bitsVal bits) = bits := by
  induction bits with
  | nil => rfl
  | cons b bs ih =>
    have h1 : (b.toNat + 2 * bitsVal bs) / 2 = bitsVal bs := by cases b <;> simp; omega
    have h2 : (b.toNat + 2 * bitsVal bs).testBit 0 = b := by cases b <;> simp [Nat.testBit_zero]
    simp only [List.length_cons, fieldBits, bitsVal, h1, h2, ih]

/-- The reader after reset meets its invariant. -/
theorem Reader.reset_inv : Reader.reset.Inv := ⟨rfl, rfl, Nat.le_refl _, fun h => by cases h⟩

/-- GetBit keeps the reader's invariant. -/
theorem Reader.getBit_inv {r r' : Reader} {b : Bool} (hr : r.Inv) (h : r.getBit = some (b, r')) : r'.Inv := by
  obtain ⟨h1, h2, h3, h4⟩ := hr
  have key : ∃ q : Reader, q.brHave = true ∧ q.inCnt = q.brIndex + 1 ∧ q.inCnt ≤ q.input.length ∧
      q.input[q.brIndex]? = some q.brByte ∧ q.bump = r' := by
    unfold Reader.getBit Reader.needByte at h
    split at h
    · rename_i hh
      simp only [Option.map_some, Option.some.injEq, Prod.mk.injEq] at h
      exact ⟨r, hh, by simpa [hh] using h2, h3, h4 hh, h.2⟩
    · rename_i hh
      split at h
      · rename_i b hb
        simp only [Option.map_some, Option.some.injEq, Prod.mk.injEq] at h
        have hlt : r.brIndex < r.input.length := by
          by_contra hc
          rw [List.getElem?_eq_none (by omega)] at hb
          cases hb
        have hf : r.brHave = false := by simpa using hh
        refine ⟨_, ?_, ?_, ?_, ?_, h.2⟩
        · rfl
        · simp [h2, hf]
        · simp [h2, hf]; omega
        · exact hb
      · cases h
  obtain ⟨q, q1, q2, q3, q4, rfl⟩ := key
  unfold Reader.bump
  split
  · exact ⟨rfl, by simp [q2], q3, fun hc => by cases hc⟩
  · rename_i h7
    have hne : q.brBit + 1 ≠ 0 := by
      revert h7; generalize q.brBit = x; revert x; decide
    exact ⟨by rw [decide_eq_true hne]; exact q1, by simp [q1, q2], q3, fun _ => q4⟩

theorem Reader.consume_inv {r : Reader} (hr : r.Inv) (n : Nat) : (r.consume n).Inv := by
  induction n generalizing r with
  | zero => exact hr
  | succ n ih =>
    simp only [Reader.consume]
    cases hg : r.getBit with
    | none => exact hr
    | some p => exact ih (Reader.getBit_inv hr (b := p.1) hg)

/-- AlignByte keeps the reader's invariant (40_bitreader.md R145: the byte left behind had been taken). -/
theorem Reader.alignByte_inv {r : Reader} (hr : r.Inv) : r.alignByte.Inv := by
  unfold Reader.alignByte
  split
  · exact hr
  · rename_i hb
    obtain ⟨h1, h2, h3, h4⟩ := hr
    have hh : r.brHave = true := by rw [h1, decide_eq_true hb]
    exact ⟨rfl, by simpa [hh] using h2, h3, fun hc => by cases hc⟩

theorem Reader.alignByte_brBit (r : Reader) : r.alignByte.brBit = 0 := by
  unfold Reader.alignByte; split <;> simp_all

@[simp] theorem Reader.alignByte_input (r : Reader) : r.alignByte.input = r.input := by
  unfold Reader.alignByte; split <;> rfl
@[simp] theorem Reader.alignByte_inEos (r : Reader) : r.alignByte.inEos = r.inEos := by
  unfold Reader.alignByte; split <;> rfl
@[simp] theorem Reader.alignByte_held (r : Reader) : r.alignByte.held = r.held := by
  unfold Reader.alignByte; split <;> rfl

/-- What `held` holds does not matter to the reader's invariant. -/
theorem Reader.inv_held {r : Reader} (h : r.Inv) (l : List Bool) : ({ r with held := l } : Reader).Inv :=
  ⟨h.have_iff, h.count, h.bound, h.byte⟩

/-- in_cnt = ceil(pos / 8) (20_memory.md R62). -/
theorem Reader.inCnt_eq {r : Reader} (h : r.Inv) : r.inCnt = (r.pos + 7) / 8 := by
  have hlt := brBit_lt r.brBit
  rw [h.count, h.have_iff]
  unfold Reader.pos
  by_cases hb : r.brBit = 0
  · have : r.brBit.toNat = 0 := by rw [hb]; rfl
    rw [decide_eq_false (not_not.mpr hb), this, Bool.toNat_false]; omega
  · have : r.brBit.toNat ≠ 0 := fun hc => hb (BitVec.eq_of_toNat_eq hc)
    rw [decide_eq_true hb, Bool.toNat_true]; omega

end Sys2Proof.Machine
end

