-- ==== Sys2Proof/Laws/Huffman.lean ====
section
/-! SUPPORT. What the Huffman units do: findCode finds the symbol that owns a code, and the decoder's answer depends on
the bits it reads only. -/

namespace Sys2Proof.Machine

/-- findCode walks the vector: it answers the symbol whose length is `len` and whose running code is `target`. -/
theorem findCode_some {len target s next r : Nat} {L : List Nat} (h : findCode len target s next L = some r) :
    s ≤ r ∧ L[r - s]? = some len ∧ next + blCount (L.take (r - s)) len = target := by
  induction L generalizing s next with
  | nil => cases h
  | cons l L ih =>
    simp only [findCode] at h
    split at h
    · rename_i hl
      split at h
      · rename_i ht
        cases h
        simp [hl, ht, blCount]
      · obtain ⟨h1, h2, h3⟩ := ih h
        have e : r - s = (r - (s + 1)) + 1 := by omega
        refine ⟨by omega, by rw [e]; simpa using h2, ?_⟩
        rw [e, List.take_succ_cons]
        simp only [blCount, List.countP_cons, hl, beq_self_eq_true, if_true] at h3 ⊢
        omega
    · rename_i hl
      obtain ⟨h1, h2, h3⟩ := ih h
      have e : r - s = (r - (s + 1)) + 1 := by omega
      have hf : (l == len) = false := by simpa using hl
      refine ⟨by omega, by rw [e]; simpa using h2, ?_⟩
      rw [e, List.take_succ_cons]
      simp only [blCount, List.countP_cons, hf, Bool.false_eq_true, if_false, Nat.add_zero] at h3 ⊢
      exact h3

/-- findCode finds every symbol of the length at its code. -/
theorem findCode_of {len s next k : Nat} {L : List Nat} (h : L[k]? = some len) :
    findCode len (next + blCount (L.take k) len) s next L = some (s + k) := by
  induction L generalizing s next k with
  | nil => simp at h
  | cons l L ih =>
    cases k with
    | zero =>
      simp only [List.getElem?_cons_zero, Option.some.injEq] at h
      simp [findCode, h, blCount]
    | succ k =>
      simp only [List.getElem?_cons_succ] at h
      simp only [findCode, List.take_succ_cons, blCount, List.countP_cons]
      by_cases hl : l = len
      · simp only [hl, beq_self_eq_true, if_true]
        have := ih (s := s + 1) (next := next + 1) h
        simp only [blCount] at this
        rw [if_neg (by omega)]
        rw [show next + (List.countP (fun l => l == len) (List.take k L) + 1) =
          next + 1 + List.countP (fun l => l == len) (List.take k L) by omega, this]
        congr 1; omega
      · have hf : (l == len) = false := by simpa using hl
        simp only [hf, if_neg hl, Bool.false_eq_true, if_false, Nat.add_zero]
        have := ih (s := s + 1) (next := next) h
        simp only [blCount] at this
        rw [this]
        congr 1; omega

/-- The answer of the lookup of R170: symbol s has length len and code `target` (R162). -/
theorem findCode_iff {len target s : Nat} {L : List Nat} :
    findCode len target 0 (nextCode L len) L = some s ↔ L[s]? = some len ∧ codeOf L s = target := by
  constructor
  · intro h
    obtain ⟨-, h2, h3⟩ := findCode_some h
    simp only [Nat.sub_zero] at h2 h3
    refine ⟨h2, ?_⟩
    have : L.getD s 0 = len := by simp [List.getD, h2]
    rw [codeOf, this, h3]
  · rintro ⟨h1, rfl⟩
    have : L.getD s 0 = len := by simp [List.getD, h1]
    have := findCode_of (s := 0) (next := nextCode L len) h1
    simpa [codeOf, List.getD, h1] using this

/-- Where the walk ends in a symbol, it has read the symbol's bits and no more, and further bits do not matter. -/
theorem huffWalk_symbol {L : List Nat} {fuel len acc s n : Nat} {bits : List Bool}
    (h : huffWalk L fuel len acc bits = .symbol s n) (more : List Bool) :
    len < n ∧ n ≤ len + bits.length ∧ n ≤ len + fuel ∧ huffWalk L fuel len acc (bits ++ more) = .symbol s n := by
  induction fuel generalizing len acc bits with
  | zero => simp [huffWalk] at h
  | succ fuel ih =>
    cases bits with
    | nil => simp [huffWalk] at h
    | cons b bs =>
      simp only [huffWalk, List.cons_append, List.length_cons] at h ⊢
      split at h
      · cases h
        exact ⟨by omega, by omega, by omega, rfl⟩
      · rename_i hr
        obtain ⟨h1, h2, h3, h4⟩ := ih h
        exact ⟨by omega, by omega, by omega, h4⟩

/-- Where the walk finds no code, it has read `fuel` bits. -/
theorem huffWalk_absent {L : List Nat} {fuel len acc n : Nat} {bits : List Bool}
    (h : huffWalk L fuel len acc bits = .absent n) (more : List Bool) :
    n = len + fuel ∧ fuel ≤ bits.length ∧ huffWalk L fuel len acc (bits ++ more) = .absent n := by
  induction fuel generalizing len acc bits with
  | zero => simp only [huffWalk] at h ⊢; cases h; simp
  | succ fuel ih =>
    cases bits with
    | nil => simp [huffWalk] at h
    | cons b bs =>
      simp only [huffWalk, List.cons_append, List.length_cons] at h ⊢
      split at h
      · cases h
      · rename_i hr
        obtain ⟨h1, h2, h3⟩ := ih h
        exact ⟨by omega, by omega, h3⟩

/-- Where the bits end inside a code, more of them are needed: whatever comes out of an extension has read past them. -/
theorem huffWalk_short {L : List Nat} {fuel len acc : Nat} {bits : List Bool}
    (h : huffWalk L fuel len acc bits = .short) (more : List Bool) :
    bits.length < fuel ∧
      (∀ s n, huffWalk L fuel len acc (bits ++ more) = .symbol s n → len + bits.length < n) := by
  induction fuel generalizing len acc bits with
  | zero => simp [huffWalk] at h
  | succ fuel ih =>
    cases bits with
    | nil =>
      refine ⟨by simp, fun s n hs => ?_⟩
      have := (huffWalk_symbol hs []).1
      simpa using this
    | cons b bs =>
      simp only [huffWalk, List.cons_append, List.length_cons] at h ⊢
      split at h
      · cases h
      · rename_i hr
        obtain ⟨h1, h2⟩ := ih h
        refine ⟨by omega, fun s n hs => ?_⟩
        have := h2 s n hs
        omega

theorem huffDecode_symbol {L : List Nat} {s n : Nat} {bits : List Bool} (h : huffDecode L bits = .symbol s n)
    (more : List Bool) : 0 < n ∧ n ≤ bits.length ∧ n ≤ maxLen L ∧ huffDecode L (bits ++ more) = .symbol s n := by
  have := huffWalk_symbol h more
  simpa [huffDecode] using this

theorem huffDecode_absent {L : List Nat} {n : Nat} {bits : List Bool} (h : huffDecode L bits = .absent n)
    (more : List Bool) : n = maxLen L ∧ n ≤ bits.length ∧ huffDecode L (bits ++ more) = .absent n := by
  obtain ⟨h1, h2, h3⟩ := huffWalk_absent h more
  simp only [Nat.zero_add] at h1
  exact ⟨h1, by omega, h3⟩

theorem huffDecode_short {L : List Nat} {bits : List Bool} (h : huffDecode L bits = .short) (more : List Bool) :
    bits.length < maxLen L ∧ (∀ s n, huffDecode L (bits ++ more) = .symbol s n → bits.length < n) ∧
      (∀ n, huffDecode L (bits ++ more) = .absent n → bits.length < n) := by
  obtain ⟨h1, h2⟩ := huffWalk_short h more
  refine ⟨h1, fun s n hs => by simpa using h2 s n hs, fun n hn => ?_⟩
  have := (huffDecode_absent hn []).1
  omega

@[simp] theorem codeBits_length (n c : Nat) : (codeBits n c).length = n := by
  induction n with
  | zero => rfl
  | succ n ih => simp [codeBits, ih]

end Sys2Proof.Machine
end

