-- ==== Sys2Proof/Laws/Decode.lean ====
section
/-! SUPPORT. What the decoder answers depends on the bits it reads only: an element stays the element it is when more bits
follow, and bits that end inside an element are fewer than the element has. -/

namespace Sys2Proof

open Sys2Proof.Machine

/-- How an answer of the decoder on `bits` is related to its answer on an extension `bits ++ more`. -/
def Decoded.extends (len : Nat) : Decoded → Decoded → Prop
  | .ok i n, d => n ≤ len ∧ d = .ok i n
  | .reject k n, d => n ≤ len ∧ d = .reject k n
  | .short _, .ok _ n => len < n
  | .short _, .reject _ n => len < n
  | .short _, .short _ => True

/-- An answer that is no end of the bits has read at least `l` bits. -/
def Decoded.atLeast (l : Nat) : Decoded → Prop
  | .ok _ u => l ≤ u
  | .reject _ u => l ≤ u
  | .short _ => True

/-- Where the bits end inside an element, an answer that has read more of them is an extension. -/
theorem Decoded.extends_short {len l : Nat} {d : Decoded} (k : ErrKind) (h : d.atLeast l) (hl : len < l) :
    (Decoded.short k).extends len d := by
  cases d with
  | ok i u => exact Nat.lt_of_lt_of_le hl h
  | reject k u => exact Nat.lt_of_lt_of_le hl h
  | short k => trivial

theorem withField_extends {n len : Nat} {bits more : List Bool} {k : Nat → Decoded} {m : Nat}
    (hk : ∀ v, v < 2 ^ n → ∃ i, k v = .ok i m) (hlen : len = m - n + bits.length) (hm : n ≤ m) :
    (withField n bits k).extends len (withField n (bits ++ more) k) := by
  unfold withField
  cases h : fieldVal n bits with
  | none =>
    have hlt := fieldVal_none.mp h
    cases h' : fieldVal n (bits ++ more) with
    | none => trivial
    | some v =>
      obtain ⟨i, hi⟩ := hk v (fieldVal_some h').2.1
      simp only [hi, Decoded.extends]
      omega
  | some v =>
    obtain ⟨h1, h2, h3⟩ := fieldVal_some h
    have : fieldVal n (bits ++ more) = some v := by
      rw [fieldVal_eq_bitsVal (by simp; omega), h1, List.take_append_of_le_length h3]
    obtain ⟨i, hi⟩ := hk v h2
    simp only [this, hi, Decoded.extends]
    exact ⟨by omega, trivial⟩

theorem withSymbol_extends {L : List Nat} {bits more : List Bool} {k k' : Nat → Nat → Decoded}
    (hk : ∀ s n, 0 < n → n ≤ bits.length → (k s n).extends bits.length (k' s n))
    (hs : ∀ s n, (k' s n).atLeast n) :
    (withSymbol L bits k).extends bits.length (withSymbol L (bits ++ more) k') := by
  unfold withSymbol
  cases h : huffDecode L bits with
  | symbol s n =>
    obtain ⟨h1, h2, -, h3⟩ := huffDecode_symbol h more
    simp only [h3]
    exact hk s n h1 h2
  | absent n =>
    obtain ⟨-, h2, h3⟩ := huffDecode_absent h more
    simp only [h3]
    exact ⟨h2, rfl⟩
  | short =>
    obtain ⟨-, h2, h3⟩ := huffDecode_short h more
    cases h' : huffDecode L (bits ++ more) with
    | short => trivial
    | absent n => exact h3 n h'
    | symbol s n => exact Decoded.extends_short _ (hs s n) (h2 s n h')

theorem withField_ge {n m : Nat} {bits : List Bool} {k : Nat → Decoded} (hk : ∀ v, ∃ i, k v = .ok i m) (l : Nat)
    (h : l ≤ m) : (withField n bits k).atLeast l := by
  unfold withField
  cases fieldVal n bits with
  | none => trivial
  | some v => obtain ⟨i, hi⟩ := hk v; simp only [hi]; exact h

/-- The bits an element has after its code are counted from the code's end. -/
theorem decodeClsRest_ge (p : Bool) (rest : List Bool) (s n : Nat) :
    (decodeClsRest p rest s n).atLeast n := by
  unfold decodeClsRest
  split
  · exact Nat.le_refl n
  split
  · split
    · exact withField_ge (fun v => ⟨_, rfl⟩) n (by omega)
    · exact Nat.le_refl n
  split
  · exact withField_ge (fun v => ⟨_, rfl⟩) n (by omega)
  split
  · exact withField_ge (fun v => ⟨_, rfl⟩) n (by omega)
  · exact Nat.le_refl n

theorem decodeLLRest_ge (rest : List Bool) (s n : Nat) :
    (decodeLLRest rest s n).atLeast n := by
  unfold decodeLLRest
  split
  · exact Nat.le_refl n
  split
  · exact Nat.le_refl n
  split
  · exact withField_ge (fun v => ⟨_, rfl⟩) n (by omega)
  · split
    · exact Nat.le_refl n
    · exact Nat.le_refl n

theorem decodeDistRest_ge (rest : List Bool) (s n : Nat) :
    (decodeDistRest rest s n).atLeast n := by
  unfold decodeDistRest
  split
  · exact withField_ge (fun v => ⟨_, rfl⟩) n (by omega)
  · split
    · exact Nat.le_refl n
    · exact Nat.le_refl n

theorem decodeClsRest_extends (p : Bool) (bits more : List Bool) (s n : Nat) (hn : n ≤ bits.length) :
    (decodeClsRest p (bits.drop n) s n).extends bits.length
      (decodeClsRest p ((bits ++ more).drop n) s n) := by
  rw [List.drop_append_of_le_length hn]
  unfold decodeClsRest
  split
  · exact ⟨hn, rfl⟩
  split
  · split
    · exact withField_extends (m := n + 2) (fun v _ => ⟨_, rfl⟩) (by simp; omega) (by omega)
    · exact ⟨hn, rfl⟩
  split
  · exact withField_extends (m := n + 3) (fun v _ => ⟨_, rfl⟩) (by simp; omega) (by omega)
  split
  · exact withField_extends (m := n + 7) (fun v _ => ⟨_, rfl⟩) (by simp; omega) (by omega)
  · exact ⟨hn, rfl⟩

theorem decodeLLRest_extends (bits more : List Bool) (s n : Nat) (hn : n ≤ bits.length) :
    (decodeLLRest (bits.drop n) s n).extends bits.length (decodeLLRest ((bits ++ more).drop n) s n) := by
  rw [List.drop_append_of_le_length hn]
  unfold decodeLLRest
  split
  · exact ⟨hn, rfl⟩
  split
  · exact ⟨hn, rfl⟩
  split
  · exact withField_extends (m := n + lenExtra s) (fun v _ => ⟨_, rfl⟩) (by simp; omega) (by omega)
  · split
    · exact ⟨hn, rfl⟩
    · exact ⟨hn, rfl⟩

theorem decodeDistRest_extends (bits more : List Bool) (s n : Nat) (hn : n ≤ bits.length) :
    (decodeDistRest (bits.drop n) s n).extends bits.length (decodeDistRest ((bits ++ more).drop n) s n) := by
  rw [List.drop_append_of_le_length hn]
  unfold decodeDistRest
  split
  · exact withField_extends (m := n + distExtra s) (fun v _ => ⟨_, rfl⟩) (by simp; omega) (by omega)
  · split
    · exact ⟨hn, rfl⟩
    · exact ⟨hn, rfl⟩

/-- A plain field after `d` bits of plain fields. -/
theorem plainField_extends {d n m : Nat} {bits more : List Bool} {k k' : Nat → Decoded}
    (hkk : ∀ v, v < 2 ^ n → d + n ≤ bits.length → (k v).extends bits.length (k' v))
    (hge : ∀ v, (k' v).atLeast m)
    (hm : d + n ≤ m) (hd : d ≤ bits.length) :
    (withField n (bits.drop d) k).extends bits.length (withField n ((bits ++ more).drop d) k') := by
  rw [List.drop_append_of_le_length hd]
  unfold withField
  cases h : fieldVal n (bits.drop d) with
  | none =>
    have hlt := fieldVal_none.mp h
    simp only [List.length_drop] at hlt
    cases h' : fieldVal n (bits.drop d ++ more) with
    | none => trivial
    | some v => exact Decoded.extends_short _ (hge v) (by omega)
  | some v =>
    obtain ⟨h1, h2, h3⟩ := fieldVal_some h
    have : fieldVal n (bits.drop d ++ more) = some v := by
      rw [fieldVal_eq_bitsVal (by rw [List.length_append]; omega), h1, List.take_append_of_le_length h3]
    simp only [this]
    simp only [List.length_drop] at h3
    exact hkk v h2 (by omega)

/-- What the decoder answers on some bits fixes what it answers when more bits follow: an element or a rejection stays as
it is, and where the bits end inside an element, every answer on an extension has read past them. -/
theorem decode_extends (c : Ctx) (bits more : List Bool) :
    (decode c bits).extends bits.length (decode c (bits ++ more)) := by
  unfold decode
  cases c.fmt with
  | bh =>
    refine plainField_extends (d := 0) (m := 3) (fun v _ h1 => ?_) (fun v => ?_) (by omega) (by omega)
    · exact plainField_extends (d := 1) (m := 3) (fun v _ h2 => ⟨by omega, rfl⟩) (fun v => Nat.le_refl 3) (by omega)
        (by omega)
    · exact withField_ge (fun v => ⟨_, rfl⟩) 3 (by omega)
  | stHdr =>
    refine plainField_extends (d := 0) (m := 32) (fun v _ h1 => ?_) (fun v => ?_) (by omega) (by omega)
    · exact plainField_extends (d := 16) (m := 32) (fun v _ h2 => ⟨by omega, rfl⟩) (fun v => Nat.le_refl 32) (by omega)
        (by omega)
    · exact withField_ge (fun v => ⟨_, rfl⟩) 32 (by omega)
  | stData =>
    exact plainField_extends (d := 0) (m := 8) (fun v _ h2 => ⟨by omega, rfl⟩) (fun v => Nat.le_refl 8) (by omega)
      (by omega)
  | dhCounts =>
    have inner : ∀ (b : List Bool) (v w : Nat), (withField 4 (b.drop 10) fun x =>
        Decoded.ok (.dynCounts (BitVec.ofNat 9 (v + 257)) (BitVec.ofNat 6 (w + 1)) (BitVec.ofNat 5 (x + 4))) 14).atLeast
          14 :=
      fun b v w => withField_ge (fun v => ⟨_, rfl⟩) 14 (by omega)
    refine plainField_extends (d := 0) (m := 14) (fun v _ h1 => ?_) (fun v => ?_) (by omega) (by omega)
    · refine plainField_extends (d := 5) (m := 14) (fun w _ h2 => ?_) (fun w => inner _ v w) (by omega) (by omega)
      exact plainField_extends (d := 10) (m := 14) (fun v _ h3 => ⟨by omega, rfl⟩) (fun v => Nat.le_refl 14) (by omega)
        (by omega)
    · unfold withField
      cases fieldVal 5 ((bits ++ more).drop 5) with
      | none => trivial
      | some w => exact inner _ v w
  | dhCllen =>
    exact plainField_extends (d := 0) (m := 3) (fun v _ h2 => ⟨by omega, rfl⟩) (fun v => Nat.le_refl 3) (by omega)
      (by omega)
  | cls =>
    exact withSymbol_extends (fun s n _ hn => decodeClsRest_extends _ bits more s n hn)
      (fun s n => decodeClsRest_ge _ _ s n)
  | ll =>
    exact withSymbol_extends (fun s n _ hn => decodeLLRest_extends bits more s n hn) (fun s n => decodeLLRest_ge _ s n)
  | d =>
    exact withSymbol_extends (fun s n _ hn => decodeDistRest_extends bits more s n hn)
      (fun s n => decodeDistRest_ge _ s n)

/-- An element stays the element it is when more bits follow, and has no more bits than were there. -/
theorem decode_ok_append {c : Ctx} {bits : List Bool} {i : Instr} {n : Nat} (h : decode c bits = .ok i n)
    (more : List Bool) : n ≤ bits.length ∧ decode c (bits ++ more) = .ok i n := by
  have := decode_extends c bits more
  rw [h] at this
  exact this

/-- Bits that end inside an element are fewer than the element has. -/
theorem decode_short_append {c : Ctx} {bits more : List Bool} {k : ErrKind} {i : Instr} {n : Nat}
    (h : decode c bits = .short k) (h' : decode c (bits ++ more) = .ok i n) : bits.length < n := by
  have := decode_extends c bits more
  rw [h, h'] at this
  exact this

end Sys2Proof
end

