-- ==== Sys2Proof/Laws/State.lean ====
section
/-! SUPPORT. One lemma per field per named update of the state, each true by definition, so that no proof unfolds a record
update. -/

namespace Sys2Proof.Machine

@[simp] theorem State.settle_rd (s : State) : s.settle.rd = s.rd := rfl
@[simp] theorem State.settle_phase (s : State) : s.settle.phase = s.phase := rfl
@[simp] theorem State.settle_awaitDist (s : State) : s.settle.awaitDist = s.awaitDist := rfl
@[simp] theorem State.settle_bfinal (s : State) : s.settle.bfinal = s.bfinal := rfl
@[simp] theorem State.settle_btype (s : State) : s.settle.btype = s.btype := rfl
@[simp] theorem State.settle_storedRem (s : State) : s.settle.storedRem = s.storedRem := rfl
@[simp] theorem State.settle_hlit (s : State) : s.settle.hlit = s.hlit := rfl
@[simp] theorem State.settle_hdist (s : State) : s.settle.hdist = s.hdist := rfl
@[simp] theorem State.settle_hclen (s : State) : s.settle.hclen = s.hclen := rfl
@[simp] theorem State.settle_clIdx (s : State) : s.settle.clIdx = s.clIdx := rfl
@[simp] theorem State.settle_lenIdx (s : State) : s.settle.lenIdx = s.lenIdx := rfl
@[simp] theorem State.settle_matchLen (s : State) : s.settle.matchLen = s.matchLen := rfl
@[simp] theorem State.settle_matchDist (s : State) : s.settle.matchDist = s.matchDist := rfl
@[simp] theorem State.settle_copyRem (s : State) : s.settle.copyRem = s.copyRem := rfl
@[simp] theorem State.settle_clLens (s : State) : s.settle.clLens = s.clLens := rfl
@[simp] theorem State.settle_lens (s : State) : s.settle.lens = s.lens := rfl
@[simp] theorem State.settle_tCL (s : State) : s.settle.tCL = s.tCL := rfl
@[simp] theorem State.settle_tLL (s : State) : s.settle.tLL = s.tLL := rfl
@[simp] theorem State.settle_tD (s : State) : s.settle.tD = s.tD := rfl
@[simp] theorem State.settle_win (s : State) : s.settle.win = s.win := rfl
@[simp] theorem State.settle_wrPtr (s : State) : s.settle.wrPtr = s.wrPtr := rfl
@[simp] theorem State.settle_histCnt (s : State) : s.settle.histCnt = s.histCnt := rfl
@[simp] theorem State.settle_outLen (s : State) : s.settle.outLen = s.outLen := rfl
@[simp] theorem State.settle_out (s : State) : s.settle.out = s.out := rfl
@[simp] theorem State.settle_outData (s : State) : s.settle.outData = s.outData := rfl
@[simp] theorem State.settle_outValid (s : State) : s.settle.outValid = s.outValid := rfl
@[simp] theorem State.settle_outReady (s : State) : s.settle.outReady = s.outReady := rfl
@[simp] theorem State.settle_busy (s : State) : s.settle.busy = s.busyValue := rfl
@[simp] theorem State.settle_done (s : State) : s.settle.done = s.doneValue := rfl
@[simp] theorem State.settle_error (s : State) : s.settle.error = s.error := rfl
@[simp] theorem State.settle_errCode (s : State) : s.settle.errCode = s.errCode := rfl
@[simp] theorem State.settle_rst (s : State) : s.settle.rst = s.rst := rfl
@[simp] theorem State.settle_rstEdge (s : State) : s.settle.rstEdge = s.rstEdge := rfl
@[simp] theorem State.settle_freeCtr (s : State) : s.settle.freeCtr = s.freeCtr := rfl

@[simp] theorem State.goto_rd (p : Phase) (s : State) : (s.goto p).rd = s.rd := rfl
@[simp] theorem State.goto_phase (p : Phase) (s : State) : (s.goto p).phase = p := rfl
@[simp] theorem State.goto_awaitDist (p : Phase) (s : State) : (s.goto p).awaitDist = s.awaitDist := rfl
@[simp] theorem State.goto_bfinal (p : Phase) (s : State) : (s.goto p).bfinal = s.bfinal := rfl
@[simp] theorem State.goto_btype (p : Phase) (s : State) : (s.goto p).btype = s.btype := rfl
@[simp] theorem State.goto_storedRem (p : Phase) (s : State) : (s.goto p).storedRem = s.storedRem := rfl
@[simp] theorem State.goto_hlit (p : Phase) (s : State) : (s.goto p).hlit = s.hlit := rfl
@[simp] theorem State.goto_hdist (p : Phase) (s : State) : (s.goto p).hdist = s.hdist := rfl
@[simp] theorem State.goto_hclen (p : Phase) (s : State) : (s.goto p).hclen = s.hclen := rfl
@[simp] theorem State.goto_clIdx (p : Phase) (s : State) : (s.goto p).clIdx = s.clIdx := rfl
@[simp] theorem State.goto_lenIdx (p : Phase) (s : State) : (s.goto p).lenIdx = s.lenIdx := rfl
@[simp] theorem State.goto_matchLen (p : Phase) (s : State) : (s.goto p).matchLen = s.matchLen := rfl
@[simp] theorem State.goto_matchDist (p : Phase) (s : State) : (s.goto p).matchDist = s.matchDist := rfl
@[simp] theorem State.goto_copyRem (p : Phase) (s : State) : (s.goto p).copyRem = s.copyRem := rfl
@[simp] theorem State.goto_clLens (p : Phase) (s : State) : (s.goto p).clLens = s.clLens := rfl
@[simp] theorem State.goto_lens (p : Phase) (s : State) : (s.goto p).lens = s.lens := rfl
@[simp] theorem State.goto_tCL (p : Phase) (s : State) : (s.goto p).tCL = s.tCL := rfl
@[simp] theorem State.goto_tLL (p : Phase) (s : State) : (s.goto p).tLL = s.tLL := rfl
@[simp] theorem State.goto_tD (p : Phase) (s : State) : (s.goto p).tD = s.tD := rfl
@[simp] theorem State.goto_win (p : Phase) (s : State) : (s.goto p).win = s.win := rfl
@[simp] theorem State.goto_wrPtr (p : Phase) (s : State) : (s.goto p).wrPtr = s.wrPtr := rfl
@[simp] theorem State.goto_histCnt (p : Phase) (s : State) : (s.goto p).histCnt = s.histCnt := rfl
@[simp] theorem State.goto_outLen (p : Phase) (s : State) : (s.goto p).outLen = s.outLen := rfl
@[simp] theorem State.goto_out (p : Phase) (s : State) : (s.goto p).out = s.out := rfl
@[simp] theorem State.goto_outData (p : Phase) (s : State) : (s.goto p).outData = s.outData := rfl
@[simp] theorem State.goto_outValid (p : Phase) (s : State) : (s.goto p).outValid = s.outValid := rfl
@[simp] theorem State.goto_outReady (p : Phase) (s : State) : (s.goto p).outReady = s.outReady := rfl
@[simp] theorem State.goto_busy (p : Phase) (s : State) : (s.goto p).busy = (!isTerminal p || s.outValid) := rfl
@[simp] theorem State.goto_done (p : Phase) (s : State) : (s.goto p).done = (decide (p = .done) && !s.outValid) := rfl
@[simp] theorem State.goto_error (p : Phase) (s : State) : (s.goto p).error = s.error := rfl
@[simp] theorem State.goto_errCode (p : Phase) (s : State) : (s.goto p).errCode = s.errCode := rfl
@[simp] theorem State.goto_rst (p : Phase) (s : State) : (s.goto p).rst = s.rst := rfl
@[simp] theorem State.goto_rstEdge (p : Phase) (s : State) : (s.goto p).rstEdge = s.rstEdge := rfl
@[simp] theorem State.goto_freeCtr (p : Phase) (s : State) : (s.goto p).freeCtr = s.freeCtr := rfl

@[simp] theorem State.raise_rd (k : ErrKind) (s : State) : (s.raise k).rd = s.rd := rfl
@[simp] theorem State.raise_phase (k : ErrKind) (s : State) : (s.raise k).phase = .error := rfl
@[simp] theorem State.raise_awaitDist (k : ErrKind) (s : State) : (s.raise k).awaitDist = s.awaitDist := rfl
@[simp] theorem State.raise_bfinal (k : ErrKind) (s : State) : (s.raise k).bfinal = s.bfinal := rfl
@[simp] theorem State.raise_btype (k : ErrKind) (s : State) : (s.raise k).btype = s.btype := rfl
@[simp] theorem State.raise_storedRem (k : ErrKind) (s : State) : (s.raise k).storedRem = s.storedRem := rfl
@[simp] theorem State.raise_hlit (k : ErrKind) (s : State) : (s.raise k).hlit = s.hlit := rfl
@[simp] theorem State.raise_hdist (k : ErrKind) (s : State) : (s.raise k).hdist = s.hdist := rfl
@[simp] theorem State.raise_hclen (k : ErrKind) (s : State) : (s.raise k).hclen = s.hclen := rfl
@[simp] theorem State.raise_clIdx (k : ErrKind) (s : State) : (s.raise k).clIdx = s.clIdx := rfl
@[simp] theorem State.raise_lenIdx (k : ErrKind) (s : State) : (s.raise k).lenIdx = s.lenIdx := rfl
@[simp] theorem State.raise_matchLen (k : ErrKind) (s : State) : (s.raise k).matchLen = s.matchLen := rfl
@[simp] theorem State.raise_matchDist (k : ErrKind) (s : State) : (s.raise k).matchDist = s.matchDist := rfl
@[simp] theorem State.raise_copyRem (k : ErrKind) (s : State) : (s.raise k).copyRem = s.copyRem := rfl
@[simp] theorem State.raise_clLens (k : ErrKind) (s : State) : (s.raise k).clLens = s.clLens := rfl
@[simp] theorem State.raise_lens (k : ErrKind) (s : State) : (s.raise k).lens = s.lens := rfl
@[simp] theorem State.raise_tCL (k : ErrKind) (s : State) : (s.raise k).tCL = s.tCL := rfl
@[simp] theorem State.raise_tLL (k : ErrKind) (s : State) : (s.raise k).tLL = s.tLL := rfl
@[simp] theorem State.raise_tD (k : ErrKind) (s : State) : (s.raise k).tD = s.tD := rfl
@[simp] theorem State.raise_win (k : ErrKind) (s : State) : (s.raise k).win = s.win := rfl
@[simp] theorem State.raise_wrPtr (k : ErrKind) (s : State) : (s.raise k).wrPtr = s.wrPtr := rfl
@[simp] theorem State.raise_histCnt (k : ErrKind) (s : State) : (s.raise k).histCnt = s.histCnt := rfl
@[simp] theorem State.raise_outLen (k : ErrKind) (s : State) : (s.raise k).outLen = s.outLen := rfl
@[simp] theorem State.raise_out (k : ErrKind) (s : State) : (s.raise k).out = s.out := rfl
@[simp] theorem State.raise_outData (k : ErrKind) (s : State) : (s.raise k).outData = s.outData := rfl
@[simp] theorem State.raise_outValid (k : ErrKind) (s : State) : (s.raise k).outValid = s.outValid := rfl
@[simp] theorem State.raise_outReady (k : ErrKind) (s : State) : (s.raise k).outReady = s.outReady := rfl
@[simp] theorem State.raise_busy (k : ErrKind) (s : State) : (s.raise k).busy = (!isTerminal .error || s.outValid) := rfl
@[simp] theorem State.raise_done (k : ErrKind) (s : State) : (s.raise k).done = (decide (Phase.error = .done) && !s.outValid) := rfl
@[simp] theorem State.raise_error (k : ErrKind) (s : State) : (s.raise k).error = true := rfl
@[simp] theorem State.raise_errCode (k : ErrKind) (s : State) : (s.raise k).errCode = (if s.error then s.errCode else errCodeOf k) := rfl
@[simp] theorem State.raise_rst (k : ErrKind) (s : State) : (s.raise k).rst = s.rst := rfl
@[simp] theorem State.raise_rstEdge (k : ErrKind) (s : State) : (s.raise k).rstEdge = s.rstEdge := rfl
@[simp] theorem State.raise_freeCtr (k : ErrKind) (s : State) : (s.raise k).freeCtr = s.freeCtr := rfl

@[simp] theorem State.emit_rd (b : Byte) (s : State) : (s.emit b).rd = s.rd := rfl
@[simp] theorem State.emit_phase (b : Byte) (s : State) : (s.emit b).phase = s.phase := rfl
@[simp] theorem State.emit_awaitDist (b : Byte) (s : State) : (s.emit b).awaitDist = s.awaitDist := rfl
@[simp] theorem State.emit_bfinal (b : Byte) (s : State) : (s.emit b).bfinal = s.bfinal := rfl
@[simp] theorem State.emit_btype (b : Byte) (s : State) : (s.emit b).btype = s.btype := rfl
@[simp] theorem State.emit_storedRem (b : Byte) (s : State) : (s.emit b).storedRem = s.storedRem := rfl
@[simp] theorem State.emit_hlit (b : Byte) (s : State) : (s.emit b).hlit = s.hlit := rfl
@[simp] theorem State.emit_hdist (b : Byte) (s : State) : (s.emit b).hdist = s.hdist := rfl
@[simp] theorem State.emit_hclen (b : Byte) (s : State) : (s.emit b).hclen = s.hclen := rfl
@[simp] theorem State.emit_clIdx (b : Byte) (s : State) : (s.emit b).clIdx = s.clIdx := rfl
@[simp] theorem State.emit_lenIdx (b : Byte) (s : State) : (s.emit b).lenIdx = s.lenIdx := rfl
@[simp] theorem State.emit_matchLen (b : Byte) (s : State) : (s.emit b).matchLen = s.matchLen := rfl
@[simp] theorem State.emit_matchDist (b : Byte) (s : State) : (s.emit b).matchDist = s.matchDist := rfl
@[simp] theorem State.emit_copyRem (b : Byte) (s : State) : (s.emit b).copyRem = s.copyRem := rfl
@[simp] theorem State.emit_clLens (b : Byte) (s : State) : (s.emit b).clLens = s.clLens := rfl
@[simp] theorem State.emit_lens (b : Byte) (s : State) : (s.emit b).lens = s.lens := rfl
@[simp] theorem State.emit_tCL (b : Byte) (s : State) : (s.emit b).tCL = s.tCL := rfl
@[simp] theorem State.emit_tLL (b : Byte) (s : State) : (s.emit b).tLL = s.tLL := rfl
@[simp] theorem State.emit_tD (b : Byte) (s : State) : (s.emit b).tD = s.tD := rfl
@[simp] theorem State.emit_win (b : Byte) (s : State) : (s.emit b).win = s.win.write s.wrPtr.toNat b := rfl
@[simp] theorem State.emit_wrPtr (b : Byte) (s : State) : (s.emit b).wrPtr = s.wrPtr + 1 := rfl
@[simp] theorem State.emit_histCnt (b : Byte) (s : State) : (s.emit b).histCnt = BitVec.ofNat 16 (min (s.histCnt.toNat + 1) Config.windowSize) := rfl
@[simp] theorem State.emit_outLen (b : Byte) (s : State) : (s.emit b).outLen = s.outLen + 1 := rfl
@[simp] theorem State.emit_out (b : Byte) (s : State) : (s.emit b).out = s.out ++ [b] := rfl
@[simp] theorem State.emit_outData (b : Byte) (s : State) : (s.emit b).outData = b := rfl
@[simp] theorem State.emit_outValid (b : Byte) (s : State) : (s.emit b).outValid = true := rfl
@[simp] theorem State.emit_outReady (b : Byte) (s : State) : (s.emit b).outReady = s.outReady := rfl
@[simp] theorem State.emit_busy (b : Byte) (s : State) : (s.emit b).busy = (!isTerminal s.phase || true) := rfl
@[simp] theorem State.emit_done (b : Byte) (s : State) : (s.emit b).done = (decide (s.phase = .done) && !true) := rfl
@[simp] theorem State.emit_error (b : Byte) (s : State) : (s.emit b).error = s.error := rfl
@[simp] theorem State.emit_errCode (b : Byte) (s : State) : (s.emit b).errCode = s.errCode := rfl
@[simp] theorem State.emit_rst (b : Byte) (s : State) : (s.emit b).rst = s.rst := rfl
@[simp] theorem State.emit_rstEdge (b : Byte) (s : State) : (s.emit b).rstEdge = s.rstEdge := rfl
@[simp] theorem State.emit_freeCtr (b : Byte) (s : State) : (s.emit b).freeCtr = s.freeCtr := rfl

@[simp] theorem State.portTick_rd (s : State) : s.portTick.rd = s.rd := rfl
@[simp] theorem State.portTick_phase (s : State) : s.portTick.phase = s.phase := rfl
@[simp] theorem State.portTick_awaitDist (s : State) : s.portTick.awaitDist = s.awaitDist := rfl
@[simp] theorem State.portTick_bfinal (s : State) : s.portTick.bfinal = s.bfinal := rfl
@[simp] theorem State.portTick_btype (s : State) : s.portTick.btype = s.btype := rfl
@[simp] theorem State.portTick_storedRem (s : State) : s.portTick.storedRem = s.storedRem := rfl
@[simp] theorem State.portTick_hlit (s : State) : s.portTick.hlit = s.hlit := rfl
@[simp] theorem State.portTick_hdist (s : State) : s.portTick.hdist = s.hdist := rfl
@[simp] theorem State.portTick_hclen (s : State) : s.portTick.hclen = s.hclen := rfl
@[simp] theorem State.portTick_clIdx (s : State) : s.portTick.clIdx = s.clIdx := rfl
@[simp] theorem State.portTick_lenIdx (s : State) : s.portTick.lenIdx = s.lenIdx := rfl
@[simp] theorem State.portTick_matchLen (s : State) : s.portTick.matchLen = s.matchLen := rfl
@[simp] theorem State.portTick_matchDist (s : State) : s.portTick.matchDist = s.matchDist := rfl
@[simp] theorem State.portTick_copyRem (s : State) : s.portTick.copyRem = s.copyRem := rfl
@[simp] theorem State.portTick_clLens (s : State) : s.portTick.clLens = s.clLens := rfl
@[simp] theorem State.portTick_lens (s : State) : s.portTick.lens = s.lens := rfl
@[simp] theorem State.portTick_tCL (s : State) : s.portTick.tCL = s.tCL := rfl
@[simp] theorem State.portTick_tLL (s : State) : s.portTick.tLL = s.tLL := rfl
@[simp] theorem State.portTick_tD (s : State) : s.portTick.tD = s.tD := rfl
@[simp] theorem State.portTick_win (s : State) : s.portTick.win = s.win := rfl
@[simp] theorem State.portTick_wrPtr (s : State) : s.portTick.wrPtr = s.wrPtr := rfl
@[simp] theorem State.portTick_histCnt (s : State) : s.portTick.histCnt = s.histCnt := rfl
@[simp] theorem State.portTick_outLen (s : State) : s.portTick.outLen = s.outLen := rfl
@[simp] theorem State.portTick_out (s : State) : s.portTick.out = s.out := rfl
@[simp] theorem State.portTick_outData (s : State) : s.portTick.outData = s.outData := rfl
@[simp] theorem State.portTick_outValid (s : State) : s.portTick.outValid = (s.outValid && !s.outReady) := rfl
@[simp] theorem State.portTick_outReady (s : State) : s.portTick.outReady = s.outReady := rfl
@[simp] theorem State.portTick_busy (s : State) : s.portTick.busy = (!isTerminal s.phase || (s.outValid && !s.outReady)) := rfl
@[simp] theorem State.portTick_done (s : State) : s.portTick.done = (decide (s.phase = .done) && !(s.outValid && !s.outReady)) := rfl
@[simp] theorem State.portTick_error (s : State) : s.portTick.error = s.error := rfl
@[simp] theorem State.portTick_errCode (s : State) : s.portTick.errCode = s.errCode := rfl
@[simp] theorem State.portTick_rst (s : State) : s.portTick.rst = s.rst := rfl
@[simp] theorem State.portTick_rstEdge (s : State) : s.portTick.rstEdge = s.rstEdge := rfl
@[simp] theorem State.portTick_freeCtr (s : State) : s.portTick.freeCtr = s.freeCtr := rfl

@[simp] theorem State.openBlock_rd (f : Bool) (t : BitVec 2) (s : State) : (s.openBlock f t).rd = s.rd := rfl
@[simp] theorem State.openBlock_phase (f : Bool) (t : BitVec 2) (s : State) : (s.openBlock f t).phase = s.phase := rfl
@[simp] theorem State.openBlock_awaitDist (f : Bool) (t : BitVec 2) (s : State) : (s.openBlock f t).awaitDist = s.awaitDist := rfl
@[simp] theorem State.openBlock_bfinal (f : Bool) (t : BitVec 2) (s : State) : (s.openBlock f t).bfinal = f := rfl
@[simp] theorem State.openBlock_btype (f : Bool) (t : BitVec 2) (s : State) : (s.openBlock f t).btype = t := rfl
@[simp] theorem State.openBlock_storedRem (f : Bool) (t : BitVec 2) (s : State) : (s.openBlock f t).storedRem = s.storedRem := rfl
@[simp] theorem State.openBlock_hlit (f : Bool) (t : BitVec 2) (s : State) : (s.openBlock f t).hlit = s.hlit := rfl
@[simp] theorem State.openBlock_hdist (f : Bool) (t : BitVec 2) (s : State) : (s.openBlock f t).hdist = s.hdist := rfl
@[simp] theorem State.openBlock_hclen (f : Bool) (t : BitVec 2) (s : State) : (s.openBlock f t).hclen = s.hclen := rfl
@[simp] theorem State.openBlock_clIdx (f : Bool) (t : BitVec 2) (s : State) : (s.openBlock f t).clIdx = s.clIdx := rfl
@[simp] theorem State.openBlock_lenIdx (f : Bool) (t : BitVec 2) (s : State) : (s.openBlock f t).lenIdx = s.lenIdx := rfl
@[simp] theorem State.openBlock_matchLen (f : Bool) (t : BitVec 2) (s : State) : (s.openBlock f t).matchLen = s.matchLen := rfl
@[simp] theorem State.openBlock_matchDist (f : Bool) (t : BitVec 2) (s : State) : (s.openBlock f t).matchDist = s.matchDist := rfl
@[simp] theorem State.openBlock_copyRem (f : Bool) (t : BitVec 2) (s : State) : (s.openBlock f t).copyRem = s.copyRem := rfl
@[simp] theorem State.openBlock_clLens (f : Bool) (t : BitVec 2) (s : State) : (s.openBlock f t).clLens = s.clLens := rfl
@[simp] theorem State.openBlock_lens (f : Bool) (t : BitVec 2) (s : State) : (s.openBlock f t).lens = s.lens := rfl
@[simp] theorem State.openBlock_tCL (f : Bool) (t : BitVec 2) (s : State) : (s.openBlock f t).tCL = s.tCL := rfl
@[simp] theorem State.openBlock_tLL (f : Bool) (t : BitVec 2) (s : State) : (s.openBlock f t).tLL = s.tLL := rfl
@[simp] theorem State.openBlock_tD (f : Bool) (t : BitVec 2) (s : State) : (s.openBlock f t).tD = s.tD := rfl
@[simp] theorem State.openBlock_win (f : Bool) (t : BitVec 2) (s : State) : (s.openBlock f t).win = s.win := rfl
@[simp] theorem State.openBlock_wrPtr (f : Bool) (t : BitVec 2) (s : State) : (s.openBlock f t).wrPtr = s.wrPtr := rfl
@[simp] theorem State.openBlock_histCnt (f : Bool) (t : BitVec 2) (s : State) : (s.openBlock f t).histCnt = s.histCnt := rfl
@[simp] theorem State.openBlock_outLen (f : Bool) (t : BitVec 2) (s : State) : (s.openBlock f t).outLen = s.outLen := rfl
@[simp] theorem State.openBlock_out (f : Bool) (t : BitVec 2) (s : State) : (s.openBlock f t).out = s.out := rfl
@[simp] theorem State.openBlock_outData (f : Bool) (t : BitVec 2) (s : State) : (s.openBlock f t).outData = s.outData := rfl
@[simp] theorem State.openBlock_outValid (f : Bool) (t : BitVec 2) (s : State) : (s.openBlock f t).outValid = s.outValid := rfl
@[simp] theorem State.openBlock_outReady (f : Bool) (t : BitVec 2) (s : State) : (s.openBlock f t).outReady = s.outReady := rfl
@[simp] theorem State.openBlock_busy (f : Bool) (t : BitVec 2) (s : State) : (s.openBlock f t).busy = s.busy := rfl
@[simp] theorem State.openBlock_done (f : Bool) (t : BitVec 2) (s : State) : (s.openBlock f t).done = s.done := rfl
@[simp] theorem State.openBlock_error (f : Bool) (t : BitVec 2) (s : State) : (s.openBlock f t).error = s.error := rfl
@[simp] theorem State.openBlock_errCode (f : Bool) (t : BitVec 2) (s : State) : (s.openBlock f t).errCode = s.errCode := rfl
@[simp] theorem State.openBlock_rst (f : Bool) (t : BitVec 2) (s : State) : (s.openBlock f t).rst = s.rst := rfl
@[simp] theorem State.openBlock_rstEdge (f : Bool) (t : BitVec 2) (s : State) : (s.openBlock f t).rstEdge = s.rstEdge := rfl
@[simp] theorem State.openBlock_freeCtr (f : Bool) (t : BitVec 2) (s : State) : (s.openBlock f t).freeCtr = s.freeCtr := rfl

/-- After a raise, err_code is the code of the fault where no error was set before (60_exceptions.md R377). -/
theorem State.raise_errCode_first (k : ErrKind) (s : State) (h : s.error = false) :
    (s.raise k).errCode = errCodeOf k := by simp [h]

end Sys2Proof.Machine
end

