-- ==== Sys2Proof/Laws/Exec.lean ====
section
/-! SUPPORT. What a step can do, said once: the 29 length elements and the 30 distance elements as two shapes, the answer
of each shared operation, and the cases of a step. -/

namespace Sys2Proof.Machine

/-! ### The shapes of the instruction set -/

/-- i is the length element of symbol `sym` with extra value x. -/
structure IsLength (i : Instr) (sym : Nat) (x : BitVec 5) : Prop where
  lo : 257 ≤ sym
  hi : sym ≤ 285
  made : ∃ mk, lenCtors[sym - 257]? = some mk ∧ mk x = i
  format : i.format = .ll
  selector : i.selector = sym
  fields : i.fields = [(lenExtra sym, x.toNat)]
  emits : i.emits = false
  wellFormed : i.wellFormed = decide (x.toNat < 2 ^ lenExtra sym)
  exec : ∀ s, exec i s = lengthSymbol sym x s

/-- i is the distance element of code c with extra value y. -/
structure IsDistance (i : Instr) (c : Nat) (y : BitVec 13) : Prop where
  hi : c ≤ 29
  made : ∃ mk, distCtors[c]? = some mk ∧ mk y = i
  format : i.format = .d
  selector : i.selector = c
  fields : i.fields = [(distExtra c, y.toNat)]
  emits : i.emits = false
  wellFormed : i.wellFormed = decide (y.toNat < 2 ^ distExtra c)
  exec : ∀ s, exec i s = distanceSymbol c y s

/-- Case analysis on an instruction, with the length elements and the distance elements as one case each. -/
theorem Instr.byShape {motive : Instr → Prop}
    (blockStored : ∀ f, motive (.blockStored f))
    (blockFixed : ∀ f, motive (.blockFixed f))
    (blockDynamic : ∀ f, motive (.blockDynamic f))
    (blockReserved : ∀ f, motive (.blockReserved f))
    (storedHdr : ∀ len nlen, motive (.storedHdr len nlen))
    (storedByte : ∀ b, motive (.storedByte b))
    (dynCounts : ∀ hlit hdist hclen, motive (.dynCounts hlit hdist hclen))
    (cllen : ∀ v, motive (.cllen v))
    (clLen : ∀ n, motive (.clLen n))
    (clRep : ∀ r, motive (.clRep r))
    (clZero3 : ∀ r, motive (.clZero3 r))
    (clZero11 : ∀ r, motive (.clZero11 r))
    (lit : ∀ b, motive (.lit b))
    (eob : motive .eob)
    (llInvalid : ∀ s, motive (.llInvalid s))
    (distInvalid : ∀ c, motive (.distInvalid c))
    (length : ∀ i sym x, IsLength i sym x → motive i) (distance : ∀ i c y, IsDistance i c y → motive i) :
    ∀ i, motive i
  | .blockStored f => blockStored f
  | .blockFixed f => blockFixed f
  | .blockDynamic f => blockDynamic f
  | .blockReserved f => blockReserved f
  | .storedHdr len nlen => storedHdr len nlen
  | .storedByte b => storedByte b
  | .dynCounts hlit hdist hclen => dynCounts hlit hdist hclen
  | .cllen v => cllen v
  | .clLen n => clLen n
  | .clRep r => clRep r
  | .clZero3 r => clZero3 r
  | .clZero11 r => clZero11 r
  | .lit b => lit b
  | .eob => eob
  | .len257 x => length _ 257 x ⟨by decide, by decide, ⟨_, rfl, rfl⟩, rfl, rfl, rfl, rfl, rfl, fun _ => rfl⟩
  | .len258 x => length _ 258 x ⟨by decide, by decide, ⟨_, rfl, rfl⟩, rfl, rfl, rfl, rfl, rfl, fun _ => rfl⟩
  | .len259 x => length _ 259 x ⟨by decide, by decide, ⟨_, rfl, rfl⟩, rfl, rfl, rfl, rfl, rfl, fun _ => rfl⟩
  | .len260 x => length _ 260 x ⟨by decide, by decide, ⟨_, rfl, rfl⟩, rfl, rfl, rfl, rfl, rfl, fun _ => rfl⟩
  | .len261 x => length _ 261 x ⟨by decide, by decide, ⟨_, rfl, rfl⟩, rfl, rfl, rfl, rfl, rfl, fun _ => rfl⟩
  | .len262 x => length _ 262 x ⟨by decide, by decide, ⟨_, rfl, rfl⟩, rfl, rfl, rfl, rfl, rfl, fun _ => rfl⟩
  | .len263 x => length _ 263 x ⟨by decide, by decide, ⟨_, rfl, rfl⟩, rfl, rfl, rfl, rfl, rfl, fun _ => rfl⟩
  | .len264 x => length _ 264 x ⟨by decide, by decide, ⟨_, rfl, rfl⟩, rfl, rfl, rfl, rfl, rfl, fun _ => rfl⟩
  | .len265 x => length _ 265 x ⟨by decide, by decide, ⟨_, rfl, rfl⟩, rfl, rfl, rfl, rfl, rfl, fun _ => rfl⟩
  | .len266 x => length _ 266 x ⟨by decide, by decide, ⟨_, rfl, rfl⟩, rfl, rfl, rfl, rfl, rfl, fun _ => rfl⟩
  | .len267 x => length _ 267 x ⟨by decide, by decide, ⟨_, rfl, rfl⟩, rfl, rfl, rfl, rfl, rfl, fun _ => rfl⟩
  | .len268 x => length _ 268 x ⟨by decide, by decide, ⟨_, rfl, rfl⟩, rfl, rfl, rfl, rfl, rfl, fun _ => rfl⟩
  | .len269 x => length _ 269 x ⟨by decide, by decide, ⟨_, rfl, rfl⟩, rfl, rfl, rfl, rfl, rfl, fun _ => rfl⟩
  | .len270 x => length _ 270 x ⟨by decide, by decide, ⟨_, rfl, rfl⟩, rfl, rfl, rfl, rfl, rfl, fun _ => rfl⟩
  | .len271 x => length _ 271 x ⟨by decide, by decide, ⟨_, rfl, rfl⟩, rfl, rfl, rfl, rfl, rfl, fun _ => rfl⟩
  | .len272 x => length _ 272 x ⟨by decide, by decide, ⟨_, rfl, rfl⟩, rfl, rfl, rfl, rfl, rfl, fun _ => rfl⟩
  | .len273 x => length _ 273 x ⟨by decide, by decide, ⟨_, rfl, rfl⟩, rfl, rfl, rfl, rfl, rfl, fun _ => rfl⟩
  | .len274 x => length _ 274 x ⟨by decide, by decide, ⟨_, rfl, rfl⟩, rfl, rfl, rfl, rfl, rfl, fun _ => rfl⟩
  | .len275 x => length _ 275 x ⟨by decide, by decide, ⟨_, rfl, rfl⟩, rfl, rfl, rfl, rfl, rfl, fun _ => rfl⟩
  | .len276 x => length _ 276 x ⟨by decide, by decide, ⟨_, rfl, rfl⟩, rfl, rfl, rfl, rfl, rfl, fun _ => rfl⟩
  | .len277 x => length _ 277 x ⟨by decide, by decide, ⟨_, rfl, rfl⟩, rfl, rfl, rfl, rfl, rfl, fun _ => rfl⟩
  | .len278 x => length _ 278 x ⟨by decide, by decide, ⟨_, rfl, rfl⟩, rfl, rfl, rfl, rfl, rfl, fun _ => rfl⟩
  | .len279 x => length _ 279 x ⟨by decide, by decide, ⟨_, rfl, rfl⟩, rfl, rfl, rfl, rfl, rfl, fun _ => rfl⟩
  | .len280 x => length _ 280 x ⟨by decide, by decide, ⟨_, rfl, rfl⟩, rfl, rfl, rfl, rfl, rfl, fun _ => rfl⟩
  | .len281 x => length _ 281 x ⟨by decide, by decide, ⟨_, rfl, rfl⟩, rfl, rfl, rfl, rfl, rfl, fun _ => rfl⟩
  | .len282 x => length _ 282 x ⟨by decide, by decide, ⟨_, rfl, rfl⟩, rfl, rfl, rfl, rfl, rfl, fun _ => rfl⟩
  | .len283 x => length _ 283 x ⟨by decide, by decide, ⟨_, rfl, rfl⟩, rfl, rfl, rfl, rfl, rfl, fun _ => rfl⟩
  | .len284 x => length _ 284 x ⟨by decide, by decide, ⟨_, rfl, rfl⟩, rfl, rfl, rfl, rfl, rfl, fun _ => rfl⟩
  | .len285 x => length _ 285 x ⟨by decide, by decide, ⟨_, rfl, rfl⟩, rfl, rfl, rfl, rfl, rfl, fun _ => rfl⟩
  | .llInvalid s => llInvalid s
  | .dist0 y => distance _ 0 y ⟨by decide, ⟨_, rfl, rfl⟩, rfl, rfl, rfl, rfl, rfl, fun _ => rfl⟩
  | .dist1 y => distance _ 1 y ⟨by decide, ⟨_, rfl, rfl⟩, rfl, rfl, rfl, rfl, rfl, fun _ => rfl⟩
  | .dist2 y => distance _ 2 y ⟨by decide, ⟨_, rfl, rfl⟩, rfl, rfl, rfl, rfl, rfl, fun _ => rfl⟩
  | .dist3 y => distance _ 3 y ⟨by decide, ⟨_, rfl, rfl⟩, rfl, rfl, rfl, rfl, rfl, fun _ => rfl⟩
  | .dist4 y => distance _ 4 y ⟨by decide, ⟨_, rfl, rfl⟩, rfl, rfl, rfl, rfl, rfl, fun _ => rfl⟩
  | .dist5 y => distance _ 5 y ⟨by decide, ⟨_, rfl, rfl⟩, rfl, rfl, rfl, rfl, rfl, fun _ => rfl⟩
  | .dist6 y => distance _ 6 y ⟨by decide, ⟨_, rfl, rfl⟩, rfl, rfl, rfl, rfl, rfl, fun _ => rfl⟩
  | .dist7 y => distance _ 7 y ⟨by decide, ⟨_, rfl, rfl⟩, rfl, rfl, rfl, rfl, rfl, fun _ => rfl⟩
  | .dist8 y => distance _ 8 y ⟨by decide, ⟨_, rfl, rfl⟩, rfl, rfl, rfl, rfl, rfl, fun _ => rfl⟩
  | .dist9 y => distance _ 9 y ⟨by decide, ⟨_, rfl, rfl⟩, rfl, rfl, rfl, rfl, rfl, fun _ => rfl⟩
  | .dist10 y => distance _ 10 y ⟨by decide, ⟨_, rfl, rfl⟩, rfl, rfl, rfl, rfl, rfl, fun _ => rfl⟩
  | .dist11 y => distance _ 11 y ⟨by decide, ⟨_, rfl, rfl⟩, rfl, rfl, rfl, rfl, rfl, fun _ => rfl⟩
  | .dist12 y => distance _ 12 y ⟨by decide, ⟨_, rfl, rfl⟩, rfl, rfl, rfl, rfl, rfl, fun _ => rfl⟩
  | .dist13 y => distance _ 13 y ⟨by decide, ⟨_, rfl, rfl⟩, rfl, rfl, rfl, rfl, rfl, fun _ => rfl⟩
  | .dist14 y => distance _ 14 y ⟨by decide, ⟨_, rfl, rfl⟩, rfl, rfl, rfl, rfl, rfl, fun _ => rfl⟩
  | .dist15 y => distance _ 15 y ⟨by decide, ⟨_, rfl, rfl⟩, rfl, rfl, rfl, rfl, rfl, fun _ => rfl⟩
  | .dist16 y => distance _ 16 y ⟨by decide, ⟨_, rfl, rfl⟩, rfl, rfl, rfl, rfl, rfl, fun _ => rfl⟩
  | .dist17 y => distance _ 17 y ⟨by decide, ⟨_, rfl, rfl⟩, rfl, rfl, rfl, rfl, rfl, fun _ => rfl⟩
  | .dist18 y => distance _ 18 y ⟨by decide, ⟨_, rfl, rfl⟩, rfl, rfl, rfl, rfl, rfl, fun _ => rfl⟩
  | .dist19 y => distance _ 19 y ⟨by decide, ⟨_, rfl, rfl⟩, rfl, rfl, rfl, rfl, rfl, fun _ => rfl⟩
  | .dist20 y => distance _ 20 y ⟨by decide, ⟨_, rfl, rfl⟩, rfl, rfl, rfl, rfl, rfl, fun _ => rfl⟩
  | .dist21 y => distance _ 21 y ⟨by decide, ⟨_, rfl, rfl⟩, rfl, rfl, rfl, rfl, rfl, fun _ => rfl⟩
  | .dist22 y => distance _ 22 y ⟨by decide, ⟨_, rfl, rfl⟩, rfl, rfl, rfl, rfl, rfl, fun _ => rfl⟩
  | .dist23 y => distance _ 23 y ⟨by decide, ⟨_, rfl, rfl⟩, rfl, rfl, rfl, rfl, rfl, fun _ => rfl⟩
  | .dist24 y => distance _ 24 y ⟨by decide, ⟨_, rfl, rfl⟩, rfl, rfl, rfl, rfl, rfl, fun _ => rfl⟩
  | .dist25 y => distance _ 25 y ⟨by decide, ⟨_, rfl, rfl⟩, rfl, rfl, rfl, rfl, rfl, fun _ => rfl⟩
  | .dist26 y => distance _ 26 y ⟨by decide, ⟨_, rfl, rfl⟩, rfl, rfl, rfl, rfl, rfl, fun _ => rfl⟩
  | .dist27 y => distance _ 27 y ⟨by decide, ⟨_, rfl, rfl⟩, rfl, rfl, rfl, rfl, rfl, fun _ => rfl⟩
  | .dist28 y => distance _ 28 y ⟨by decide, ⟨_, rfl, rfl⟩, rfl, rfl, rfl, rfl, rfl, fun _ => rfl⟩
  | .dist29 y => distance _ 29 y ⟨by decide, ⟨_, rfl, rfl⟩, rfl, rfl, rfl, rfl, rfl, fun _ => rfl⟩
  | .distInvalid c => distInvalid c

/-- The entry of a length symbol in `lenCtors` makes its length element. -/
theorem IsLength.of {sym : Nat} {mk : BitVec 5 → Instr} (h1 : 257 ≤ sym) (h : lenCtors[sym - 257]? = some mk)
    (x : BitVec 5) : IsLength (mk x) sym x := by
  have h2 : sym - 257 < 29 := by
    rcases List.getElem?_eq_some_iff.mp h with ⟨q, -⟩
    simpa [lenCtors] using q
  have h3 : sym ≤ 285 := by omega
  interval_cases sym
  all_goals
    injection h with h
    subst h
    exact ⟨by decide, by decide, ⟨_, rfl, rfl⟩, rfl, rfl, rfl, rfl, rfl, fun _ => rfl⟩

/-- The entry of a distance code in `distCtors` makes its distance element. -/
theorem IsDistance.of {c : Nat} {mk : BitVec 13 → Instr} (h : distCtors[c]? = some mk) (y : BitVec 13) :
    IsDistance (mk y) c y := by
  have h2 : c < 30 := by
    rcases List.getElem?_eq_some_iff.mp h with ⟨q, -⟩
    simpa [distCtors] using q
  interval_cases c
  all_goals
    injection h with h
    subst h
    exact ⟨by decide, ⟨_, rfl, rfl⟩, rfl, rfl, rfl, rfl, rfl, fun _ => rfl⟩

/-! ### The shared operations -/

/-- A meaning that answers at all was asked for in its format. -/
theorem inFormat_next {f : Format} {s t : State} {r : Result} (h : inFormat f s r = .next t) :
    s.nextFormat = some f ∧ r = .next t := by
  unfold inFormat at h
  split at h
  · exact ⟨‹_›, h⟩
  · cases h

theorem inFormat_of {f : Format} {s : State} (h : s.nextFormat = some f) (r : Result) : inFormat f s r = r :=
  if_pos h

/-- The format asked for fixes the phase, and that no fault has been taken. -/
theorem nextFormat_some {s : State} {f : Format} (h : s.nextFormat = some f) :
    s.error = false ∧ s.phase = phaseOf f ∧ (f = .ll → s.awaitDist = false) ∧ (f = .d → s.awaitDist = true) := by
  unfold State.nextFormat at h
  split at h
  · cases h
  · rename_i he
    refine ⟨by simpa using he, ?_⟩
    split at h
    all_goals first | (injection h with h; subst h) | cases h
    all_goals rename_i hp
    all_goals try exact ⟨hp, fun hc => (by cases hc), fun hc => (by cases hc)⟩
    cases hd : s.awaitDist
    · exact ⟨hp, fun _ => rfl, fun hc => (by cases hc)⟩
    · exact ⟨hp, fun hc => (by cases hc), fun _ => rfl⟩

theorem whenPortFree_next {s t : State} {act : State → State} (h : whenPortFree s act = .next t) :
    s.outValid = true ∧ t = s ∨ s.outValid = false ∧ t = act s := by
  unfold whenPortFree at h
  split at h <;> cases h <;> simp_all

/-- Of the elements of format LL only a length leaves a distance code to come (44_symbols.md R251, R254). -/
theorem exec_awaits {i : Instr} {s t : State} (hf : s.nextFormat = some .ll) (ht : t.nextFormat = some .d)
    (h : exec i s = .next t) :
    ∃ sym x, IsLength i sym x ∧ t = { s with matchLen := matchLength sym x, awaitDist := true } := by
  obtain ⟨he, -, -, -⟩ := nextFormat_some hf
  have clash {f : Format} {r : Result} (hn : f ≠ .ll) (h : inFormat f s r = .next t) : False := by
    have := (inFormat_next h).1
    rw [hf] at this
    injection this with this
    exact hn this.symm
  revert h
  refine Instr.byShape
    (motive := fun i => exec i s = .next t →
      ∃ sym x, IsLength i sym x ∧ t = { s with matchLen := matchLength sym x, awaitDist := true })
    ?blockStored ?blockFixed ?blockDynamic ?blockReserved ?storedHdr ?storedByte ?dynCounts ?cllen ?clLen ?clRep ?clZero3
    ?clZero11 ?lit ?eob ?llInvalid ?distInvalid ?length ?distance i
  case length =>
    intro i sym x hi h
    rw [hi.exec] at h
    obtain ⟨-, h⟩ := inFormat_next h
    injection h with h
    exact ⟨sym, x, hi, h.symm⟩
  case lit =>
    intro b h
    obtain ⟨-, rfl⟩ | ⟨-, rfl⟩ := whenPortFree_next (inFormat_next h).2
    · exact absurd (hf.symm.trans ht) (by decide)
    · exact absurd (hf.symm.trans (show s.nextFormat = some .d from ht)) (by decide)
  case eob =>
    intro h
    obtain ⟨-, h⟩ := inFormat_next h
    injection h with h
    subst h
    unfold State.endOfBlock at ht
    cases hb : s.bfinal <;> simp [State.nextFormat, he, hb] at ht
  case llInvalid =>
    intro v h
    obtain ⟨-, h⟩ := inFormat_next h
    injection h with h
    subst h
    simp [State.nextFormat] at ht
  case distance =>
    intro i c y hi h
    rw [hi.exec] at h
    exact (clash (by decide) h).elim
  all_goals
    intros
    rename_i h
    exact (clash (by decide) h).elim

/-- What putLens does (43_dynamic_header.md R230, R232): entries written, then the header completed or not. -/
theorem putLens_next {s t : State} {n : Nat} {v : BitVec 4} (h : s.putLens n v = .next t) :
    s.lenIdx.toNat + n ≤ s.lens.length ∧
      (s.lenIdx.toNat + n = s.lensTotal ∧
          t = State.buildTables
            { s with lens := fillLens s.lens s.lenIdx.toNat n v, lenIdx := BitVec.ofNat 9 (s.lenIdx.toNat + n) } ∨
        s.lenIdx.toNat + n ≠ s.lensTotal ∧
          t = { s with
            lens := fillLens s.lens s.lenIdx.toNat n v, lenIdx := BitVec.ofNat 9 (s.lenIdx.toNat + n) }) := by
  unfold State.putLens at h
  by_cases hl : s.lenIdx.toNat + n ≤ s.lens.length
  · rw [if_pos hl] at h
    injection h with h
    refine ⟨hl, ?_⟩
    by_cases ht : s.lenIdx.toNat + n = s.lensTotal
    · rw [if_pos ht] at h
      exact .inl ⟨ht, h.symm⟩
    · rw [if_neg ht] at h
      exact .inr ⟨ht, h.symm⟩
  · rw [if_neg hl] at h
    cases h

/-- What a repeat does (43_dynamic_header.md R234): an overrun is the fault, and nothing is written. -/
theorem repeatLens_next {s t : State} {r : BitVec 8} {v : Option (BitVec 4)} (h : s.repeatLens r v = .next t) :
    s.lensTotal < s.lenIdx.toNat + r.toNat ∧ t = s.raise .codeLengthOverrun ∨
      s.lenIdx.toNat + r.toNat ≤ s.lensTotal ∧ ∃ p, v = some p ∧ s.putLens r.toNat p = .next t := by
  unfold State.repeatLens at h
  split at h
  · cases h; exact .inl ⟨‹_›, rfl⟩
  · refine .inr ⟨by omega, ?_⟩
    cases v with
    | none => cases h
    | some p => exact ⟨p, rfl, h⟩

@[simp] theorem fillLens_length {l : List (BitVec 4)} {start n : Nat} {v : BitVec 4} (h : start + n ≤ l.length) :
    (fillLens l start n v).length = l.length := by
  simp [fillLens]; omega

/-- The entries of a filled vector. -/
theorem fillLens_get {l : List (BitVec 4)} {start n : Nat} {v : BitVec 4} (h : start + n ≤ l.length) (j : Nat) :
    (fillLens l start n v)[j]? = if start ≤ j ∧ j < start + n then some v else l[j]? := by
  have h1 : (l.take start ++ List.replicate n v).length = start + n := by simp; omega
  have h2 : (l.take start).length = start := by simp; omega
  unfold fillLens
  by_cases hj : j < start + n
  · rw [List.getElem?_append_left (by omega)]
    by_cases hs : start ≤ j
    · rw [List.getElem?_append_right (by omega), if_pos ⟨hs, hj⟩, List.getElem?_replicate, h2, if_pos (by omega)]
    · rw [List.getElem?_append_left (by omega), if_neg (by omega), List.getElem?_take, if_pos (by omega)]
  · rw [List.getElem?_append_right (by omega), if_neg (by omega), List.getElem?_drop, h1]
    congr 1; omega

/-! ### The cases of a step -/

/-- The reader an element is fetched from: aligned first in STORED_LEN (42_block_control.md R200). -/
def State.fetchReader (f : Format) (s : State) : Reader := if f = .stHdr then s.rd.alignByte else s.rd

/-- The bits an element is decoded from: those its step has consumed already, then those at the cursor. -/
def State.fetchBits (f : Format) (s : State) : List Bool := (s.fetchReader f).held ++ (s.fetchReader f).unread

/-- What the step of an element can do, p the state after the output port has moved. -/
inductive ElementCase (f : Format) (p t : State) : Prop where
  /-- the element is complete and runs -/
  | runs (i : Instr) (used : Nat) (h : decode (p.ctx f) (p.fetchBits f) = .ok i used)
      (free : (i.emits && p.outValid) = false)
      (next : exec i { p with rd := { (p.fetchReader f).take used with held := [] } } = .next t)
  /-- the element is complete, emits, and waits for the output port -/
  | waits (i : Instr) (used : Nat) (h : decode (p.ctx f) (p.fetchBits f) = .ok i used) (emits : i.emits = true)
      (full : p.outValid = true)
      (next : t = { p with rd := { (p.fetchReader f).take used with held := (p.fetchBits f).take used } })
  /-- the input has ended inside the element -/
  | ends (k : ErrKind) (h : decode (p.ctx f) (p.fetchBits f) = .short k) (eos : p.rd.inEos = true)
      (next : t = State.raise k
        (State.failCursor k (p.fetchReader f).unread.length
          { p.fieldsRead f (p.fetchBits f) with rd := p.fetchReader f }))
  /-- the element is not complete and input may still come -/
  | holds (k : ErrKind) (h : decode (p.ctx f) (p.fetchBits f) = .short k) (eos : p.rd.inEos = false)
      (next : t = { p.fieldsRead f (p.fetchBits f) with
        rd := { (p.fetchReader f).take (p.fetchBits f).length with held := p.fetchBits f } })
  /-- no element begins with these bits -/
  | rejects (k : ErrKind) (used : Nat) (h : decode (p.ctx f) (p.fetchBits f) = .reject k used)
      (next : t = State.raise k
        (State.failCursor k (used - (p.fetchReader f).held.length) { p with rd := p.fetchReader f }))

theorem fetchRun_cases {f : Format} {p t : State} (hf : p.fetchReader f = p.rd) (h : p.fetchRun f = .next t) :
    ElementCase f p t := by
  have hb : p.fetchBits f = p.rd.held ++ p.rd.unread := by unfold State.fetchBits; rw [hf]
  unfold State.fetchRun at h
  simp only [← hb] at h
  split at h
  · rename_i i used hd
    unfold State.runElement at h
    split at h
    · rename_i hw
      cases h
      simp only [Bool.and_eq_true] at hw
      exact .waits i used hd hw.1 hw.2 (by rw [hf])
    · rename_i hw
      exact .runs i used hd (by simpa using hw) (by rw [hf]; exact h)
  · rename_i k hd
    unfold State.runShort at h
    split at h
    · rename_i he
      cases h
      refine .ends k hd he ?_
      have hl : (p.fetchBits f).length - p.rd.held.length = p.rd.unread.length := by
        rw [hb, List.length_append, Nat.add_sub_cancel_left]
      rw [hf, ← hl]
      rfl
    · rename_i he
      cases h
      exact .holds k hd (by simpa [State.fieldsRead] using he) (by rw [hf]; rfl)
  · rename_i k used hd
    cases h
    exact .rejects k used hd (by rw [hf])

theorem Reader.alignByte_alignByte (r : Reader) : r.alignByte.alignByte = r.alignByte := by
  have := r.alignByte_brBit
  generalize r.alignByte = q at this
  unfold Reader.alignByte
  rw [if_pos this]

/-- The state of a SYMBOL step between its length and its distance code. -/
def State.afterLength (sym : Nat) (x : BitVec 5) (used : Nat) (s : State) : State :=
  { s with
    rd := { s.rd.take used with held := [] }
    matchLen := matchLength sym x
    awaitDist := true }

/-- What the step of a format can do: one element; or, that being a length, the distance code after it too
(44_symbols.md R251). -/
def StepCase (f : Format) (p t : State) : Prop :=
  (f = .ll → t.nextFormat ≠ some .d) ∧ ElementCase f p t ∨
    f = .ll ∧ ∃ i used sym x, IsLength i sym x ∧ decode (p.ctx .ll) (p.fetchBits .ll) = .ok i used ∧
      (p.afterLength sym x used).nextFormat = some .d ∧ ElementCase .d (p.afterLength sym x used) t

/-- A step that has not come to a distance code ends with its first element. -/
theorem thenDistance_of {t : State} (h : t.nextFormat ≠ some .d) : State.thenDistance (.next t) = .next t := if_neg h

/-- A step that has come to a distance code goes on with it. -/
theorem thenDistance_d {t : State} (h : t.nextFormat = some .d) : State.thenDistance (.next t) = t.fetchRun .d := if_pos h

/-- What thenDistance adds to an answer: nothing, or the distance code after a length. -/
theorem thenDistance_next {r : Result} {t : State} (h : State.thenDistance r = .next t) :
    r = .next t ∧ t.nextFormat ≠ some .d ∨ ∃ u, r = .next u ∧ u.nextFormat = some .d ∧ u.fetchRun .d = .next t := by
  unfold State.thenDistance at h
  split at h
  · rename_i u
    split at h
    · exact .inr ⟨u, rfl, ‹_›, h⟩
    · cases h; exact .inl ⟨rfl, ‹_›⟩
  · cases h
  · cases h

/-- The first half of a match is a length. -/
theorem ElementCase.length {p u : State} (hf : p.nextFormat = some .ll) (hu : u.nextFormat = some .d)
    (h : ElementCase .ll p u) :
    ∃ i used sym x, IsLength i sym x ∧ decode (p.ctx .ll) (p.fetchBits .ll) = .ok i used ∧
      u = p.afterLength sym x used := by
  cases h with
  | runs i used hd free next =>
    obtain ⟨sym, x, hi, e⟩ := exec_awaits (s := { p with rd := { p.rd.take used with held := [] } }) hf hu next
    exact ⟨i, used, sym, x, hi, hd, e⟩
  | waits i used hd emits full next => subst next; exact absurd (hf.symm.trans hu) (by decide)
  | ends k hd eos next => subst next; simp [State.nextFormat] at hu
  | holds k hd eos next => subst next; exact absurd (hf.symm.trans hu) (by decide)
  | rejects k used hd next => subst next; simp [State.nextFormat] at hu

theorem elementStep_cases {f : Format} {p t : State} (hp : p.nextFormat = some f) (h : p.elementStep f = .next t) :
    StepCase f p t ∧ (f = .stData → p.rd.brBit = 0) := by
  unfold State.elementStep at h
  by_cases hs : f = .stHdr
  · rw [if_pos hs] at h
    subst hs
    refine ⟨.inl ⟨(nomatch ·), ?_⟩, (nomatch ·)⟩
    have hq : State.fetchReader .stHdr { p with rd := p.rd.alignByte } = p.fetchReader .stHdr :=
      p.rd.alignByte_alignByte
    have hr := fetchRun_cases (f := .stHdr) (p := { p with rd := p.rd.alignByte }) hq h
    have hb : State.fetchBits .stHdr { p with rd := p.rd.alignByte } = p.fetchBits .stHdr := by
      unfold State.fetchBits; rw [hq]
    cases hr with
    | runs i used h1 h2 h3 => exact .runs i used (by rw [hb] at h1; exact h1) h2 (by rw [hq] at h3; exact h3)
    | waits i used h1 h2 h3 h4 =>
      exact .waits i used (by rw [hb] at h1; exact h1) h2 h3 (by rw [hq, hb] at h4; exact h4)
    | ends k h1 h2 h3 =>
      refine .ends k (by rw [hb] at h1; exact h1) (by simpa using h2) ?_
      rw [h3, hq, hb]
      rfl
    | holds k h1 h2 h3 =>
      refine .holds k (by rw [hb] at h1; exact h1) (by simpa using h2) ?_
      rw [h3, hq, hb]
      rfl
    | rejects k used h1 h2 =>
      refine .rejects k used (by rw [hb] at h1; exact h1) ?_
      rw [h2, hq]
  · rw [if_neg hs] at h
    split at h
    · cases h
    · rename_i hd
      refine ⟨?_, fun hc => by_contra fun hn => hd ⟨hc, hn⟩⟩
      split at h
      · rename_i hl
        subst hl
        obtain ⟨h1, h2⟩ | ⟨u, h1, h2, h3⟩ := thenDistance_next h
        · exact .inl ⟨fun _ => h2, fetchRun_cases rfl h1⟩
        · obtain ⟨i, used, sym, x, hi, hd, rfl⟩ := (fetchRun_cases rfl h1).length hp h2
          exact .inr ⟨rfl, i, used, sym, x, hi, hd, h2, fetchRun_cases rfl h3⟩
      · rename_i hl
        exact .inl ⟨fun hc => absurd hc hl, fetchRun_cases (if_neg hs) h⟩

/-- Everything one step can do: reset; or, p being s after the output port has moved, the step of a format, a COPY step,
or nothing. -/
theorem step_cases {s t : State} (h : step s = .next t) :
    (s.rst = true ∧ t = s.afterReset) ∨
      s.rst = false ∧
        ((∃ f, s.nextFormat = some f ∧ StepCase f s.portTick t ∧ (f = .stData → s.rd.brBit = 0)) ∨
          (s.phase = .copy ∧ s.error = false ∧ copyStep s.portTick = .next t) ∨
          (s.nextFormat = none ∧ ¬ (s.phase = .copy ∧ s.error = false) ∧ t = s.portTick)) := by
  unfold step machineStep at h
  split at h
  · cases h; exact .inl ⟨‹_›, rfl⟩
  · rename_i hr
    refine .inr ⟨by simpa using hr, ?_⟩
    unfold State.blockStep at h
    split at h
    · rename_i f hf
      obtain ⟨h1, h2⟩ := elementStep_cases (p := s.portTick) hf h
      exact .inl ⟨f, hf, h1, h2⟩
    · rename_i hf
      split at h
      · rename_i hc
        exact .inr (.inl ⟨hc.1, hc.2, h⟩)
      · rename_i hc
        cases h
        exact .inr (.inr ⟨hf, hc, rfl⟩)

/-- What a COPY step does (45_window_copy.md R345). -/
theorem copyStep_next {s t : State} (h : copyStep s = .next t) :
    s.copyRem ≠ 0 ∧ ∃ b, s.winBack = some b ∧
      (s.outValid = true ∧ t = s ∨ s.outValid = false ∧ t = (s.emit b).copied) := by
  unfold copyStep at h
  split at h
  · cases h
  · rename_i hc
    split at h
    · cases h
    · rename_i b hb
      exact ⟨hc, b, hb, whenPortFree_next h⟩

/-- Several steps, the first one peeled off. -/
theorem run_next {s t : State} (h : step s = .next t) (k : Nat) :
    Host.Core.run core (k + 1) s = Host.Core.run core k t := by
  have any : ∀ (M : Host.Core) {s t : M.State}, M.step s = .next t → M.run (k + 1) s = M.run k t := by
    intro M s t h
    rw [Host.Core.run, h]
  exact any core h

/-- The cursor after a fault (41_huffman.md R172, log 9 and log 10): no more bits consumed than were to be read. -/
theorem failCursor_cases (k : ErrKind) (n : Nat) (s : State) (rd : Reader) :
    ∃ m c, m ≤ n ∧ State.failCursor k n { s with rd := rd } =
      { s with rd := { rd.consume m with held := [] }, freeCtr := c } := by
  cases k
  case symbolNotFound =>
    exact ⟨Config.freeNat s.freeCtr % (n + 1), s.freeCtr + 1,
      Nat.lt_succ_iff.mp (Nat.mod_lt (Config.freeNat s.freeCtr) (Nat.succ_pos n)), rfl⟩
  all_goals exact ⟨n, s.freeCtr, Nat.le_refl _, rfl⟩

/-- The stored-block length check as the spec decides it (42_block_control.md R203). -/
theorem storedLengthsOk_iff (len nlen : BitVec 16) :
    storedLengthsOk Config.storedCheck len nlen = true ↔ (len ^^^ nlen) = 0xFFFF#16 := by
  simp [storedLengthsOk, Config.storedCheck]

/-- An element of another format than a block header's or a counts' writes no register before it is complete. -/
theorem State.fieldsRead_of {f : Format} (h1 : f ≠ .bh) (h2 : f ≠ .dhCounts) (bits : List Bool) (s : State) :
    s.fieldsRead f bits = s := by
  unfold State.fieldsRead
  rw [if_neg h1, if_neg h2, if_neg h2]

end Sys2Proof.Machine
end

