-- ==== Sys2Proof/Laws/Memory.lean ====
section
/-! SUPPORT. The laws of the window memory: a read after a write, and that a write keeps the canonical form. -/

namespace Sys2Proof.Machine

@[simp] theorem Memory.read_nil (a : Nat) : Memory.read [] a = none := rfl

theorem Memory.read_cons (c : Host.Cell) (m : Memory) (a : Nat) :
    Memory.read (c :: m) a = if a = c.1 then some c.2 else Memory.read m a := by
  obtain ⟨x, y⟩ := c
  simp only [Memory.read, List.lookup]
  by_cases h : a = x
  · simp [h]
  · have : (a == x) = false := by simpa using h
    simp [this, h]

/-- The cells of a canonical memory lie at or above its lower bound. -/
theorem Memory.read_below {lo : Nat} {m : Memory} (h : Memory.risingFrom lo m = true) {a : Nat} (ha : a < lo) :
    Memory.read m a = none := by
  induction m generalizing lo with
  | nil => rfl
  | cons c m ih =>
    simp only [Memory.risingFrom, Bool.and_eq_true, decide_eq_true_eq] at h
    rw [Memory.read_cons, if_neg (by omega)]
    exact ih h.2 (by omega)

/-- A read after a write: the byte at the address written, the old byte everywhere else. -/
theorem Memory.read_write (m : Memory) (a : Nat) (b : Byte) (x : Nat) :
    (m.write a b).read x = if x = a then some b else m.read x := by
  induction m with
  | nil => simp [Memory.write, Memory.read_cons]
  | cons c m ih =>
    simp only [Memory.write]
    split
    · simp [Memory.read_cons]
    · split
      · rename_i h; subst h; simp only [Memory.read_cons]; split <;> rfl
      · simp only [Memory.read_cons, ih]
        split <;> split <;> simp_all

theorem Memory.risingFrom_write {lo : Nat} {m : Memory} (h : Memory.risingFrom lo m = true) {a : Nat} (b : Byte)
    (hlo : lo ≤ a) (ha : a < Config.windowSize) : Memory.risingFrom lo (m.write a b) = true := by
  induction m generalizing lo with
  | nil => simp [Memory.write, Memory.risingFrom, hlo, ha]
  | cons c m ih =>
    simp only [Memory.risingFrom, Bool.and_eq_true, decide_eq_true_eq] at h
    simp only [Memory.write]
    split
    · rename_i hac
      have : a + 1 ≤ c.1 := hac
      simp [Memory.risingFrom, hlo, ha, h, this]
    · split
      · rename_i hac; subst hac
        simp [Memory.risingFrom, h]
      · simp only [Memory.risingFrom, Bool.and_eq_true, decide_eq_true_eq]
        exact ⟨h.1, ih h.2 (by omega)⟩

/-- A write keeps the canonical form. -/
theorem Memory.wf_write {m : Memory} (h : m.wf = true) {a : Nat} (b : Byte) (ha : a < Config.windowSize) :
    (m.write a b).wf = true :=
  Memory.risingFrom_write h b (Nat.zero_le a) ha

/-- Two canonical memories that read alike are the same data. -/
theorem Memory.ext_of_rising {lo : Nat} {m n : Memory} (hm : Memory.risingFrom lo m = true)
    (hn : Memory.risingFrom lo n = true) (h : ∀ a, m.read a = n.read a) : m = n := by
  induction m generalizing lo n with
  | nil =>
    cases n with
    | nil => rfl
    | cons d n => have := h d.1; simp [Memory.read_cons] at this
  | cons c m ih =>
    simp only [Memory.risingFrom, Bool.and_eq_true, decide_eq_true_eq] at hm
    cases n with
    | nil => have := h c.1; simp [Memory.read_cons] at this
    | cons d n =>
      simp only [Memory.risingFrom, Bool.and_eq_true, decide_eq_true_eq] at hn
      have hcd : c.1 = d.1 := by
        rcases Nat.lt_trichotomy c.1 d.1 with hlt | heq | hgt
        · have := h c.1
          rw [Memory.read_cons, if_pos rfl, Memory.read_cons, if_neg (by omega),
            Memory.read_below hn.2 (by omega)] at this
          simp at this
        · exact heq
        · have := h d.1
          rw [Memory.read_cons, if_neg (by omega), Memory.read_below hm.2 (by omega), Memory.read_cons,
            if_pos rfl] at this
          simp at this
      have hval : c.2 = d.2 := by
        have := h c.1
        rw [Memory.read_cons, if_pos rfl, Memory.read_cons, if_pos hcd] at this
        simpa using this
      have hrest : m = n := by
        apply ih hm.2 (hcd ▸ hn.2)
        intro a
        by_cases ha : a = c.1
        · rw [ha, Memory.read_below hm.2 (by omega), Memory.read_below (lo := d.1 + 1) hn.2 (by omega)]
        · have := h a
          rwa [Memory.read_cons, if_neg ha, Memory.read_cons, if_neg (hcd ▸ ha)] at this
      rw [hrest, Prod.ext hcd hval]

/-- The window memory after reset has its canonical form. -/
theorem State.reset_win_wf : State.reset.win.wf = true := rfl

/-- Emit keeps the canonical form of the window. -/
theorem State.emit_win_wf {s : State} (h : s.win.wf = true) (b : Byte) : (s.emit b).win.wf = true :=
  Memory.wf_write h b (by have := s.wrPtr.isLt; simpa [Config.windowSize] using this)

/-- What Emit does to the window (45_window_copy.md R343): one byte at wr_ptr, every other byte as before. -/
theorem State.emit_win_read (s : State) (b : Byte) (a : Nat) :
    (s.emit b).win.read a = if a = s.wrPtr.toNat then some b else s.win.read a :=
  Memory.read_write _ _ _ _

end Sys2Proof.Machine
end

