-- ==== Sys2Proof/Laws/PerInstr.lean ====
section
/-! SUPPORT. Per-instruction laws about instructions as syntax. -/

namespace Sys2Proof.Laws.SelectsRow

open Sys2Proof.Machine

/-- The row of spec/opcode_table.json of an instruction, transcribed from the table and not computed: its format, its
match and its mask (30_encoding.md R116; 0 and 0 where the table gives none). -/
def row : Instr → Format × Nat × Nat
  | .blockStored _ => (.bh, 0, 6)
  | .blockFixed _ => (.bh, 2, 6)
  | .blockDynamic _ => (.bh, 4, 6)
  | .blockReserved _ => (.bh, 6, 6)
  | .storedHdr _ _ => (.stHdr, 0, 0)
  | .storedByte _ => (.stData, 0, 0)
  | .dynCounts _ _ _ => (.dhCounts, 0, 0)
  | .cllen _ => (.dhCllen, 0, 0)
  | .clLen _ => (.cls, 0, 16)
  | .clRep _ => (.cls, 16, 31)
  | .clZero3 _ => (.cls, 17, 31)
  | .clZero11 _ => (.cls, 18, 31)
  | .lit _ => (.ll, 0, 256)
  | .eob => (.ll, 256, 511)
  | .len257 _ => (.ll, 257, 511)
  | .len258 _ => (.ll, 258, 511)
  | .len259 _ => (.ll, 259, 511)
  | .len260 _ => (.ll, 260, 511)
  | .len261 _ => (.ll, 261, 511)
  | .len262 _ => (.ll, 262, 511)
  | .len263 _ => (.ll, 263, 511)
  | .len264 _ => (.ll, 264, 511)
  | .len265 _ => (.ll, 265, 511)
  | .len266 _ => (.ll, 266, 511)
  | .len267 _ => (.ll, 267, 511)
  | .len268 _ => (.ll, 268, 511)
  | .len269 _ => (.ll, 269, 511)
  | .len270 _ => (.ll, 270, 511)
  | .len271 _ => (.ll, 271, 511)
  | .len272 _ => (.ll, 272, 511)
  | .len273 _ => (.ll, 273, 511)
  | .len274 _ => (.ll, 274, 511)
  | .len275 _ => (.ll, 275, 511)
  | .len276 _ => (.ll, 276, 511)
  | .len277 _ => (.ll, 277, 511)
  | .len278 _ => (.ll, 278, 511)
  | .len279 _ => (.ll, 279, 511)
  | .len280 _ => (.ll, 280, 511)
  | .len281 _ => (.ll, 281, 511)
  | .len282 _ => (.ll, 282, 511)
  | .len283 _ => (.ll, 283, 511)
  | .len284 _ => (.ll, 284, 511)
  | .len285 _ => (.ll, 285, 511)
  | .llInvalid _ => (.ll, 286, 510)
  | .dist0 _ => (.d, 0, 31)
  | .dist1 _ => (.d, 1, 31)
  | .dist2 _ => (.d, 2, 31)
  | .dist3 _ => (.d, 3, 31)
  | .dist4 _ => (.d, 4, 31)
  | .dist5 _ => (.d, 5, 31)
  | .dist6 _ => (.d, 6, 31)
  | .dist7 _ => (.d, 7, 31)
  | .dist8 _ => (.d, 8, 31)
  | .dist9 _ => (.d, 9, 31)
  | .dist10 _ => (.d, 10, 31)
  | .dist11 _ => (.d, 11, 31)
  | .dist12 _ => (.d, 12, 31)
  | .dist13 _ => (.d, 13, 31)
  | .dist14 _ => (.d, 14, 31)
  | .dist15 _ => (.d, 15, 31)
  | .dist16 _ => (.d, 16, 31)
  | .dist17 _ => (.d, 17, 31)
  | .dist18 _ => (.d, 18, 31)
  | .dist19 _ => (.d, 19, 31)
  | .dist20 _ => (.d, 20, 31)
  | .dist21 _ => (.d, 21, 31)
  | .dist22 _ => (.d, 22, 31)
  | .dist23 _ => (.d, 23, 31)
  | .dist24 _ => (.d, 24, 31)
  | .dist25 _ => (.d, 25, 31)
  | .dist26 _ => (.d, 26, 31)
  | .dist27 _ => (.d, 27, 31)
  | .dist28 _ => (.d, 28, 31)
  | .dist29 _ => (.d, 29, 31)
  | .distInvalid _ => (.d, 30, 30)

/-- A well-formed instruction is of its row's format, its selector fits the format's selector bits and matches its row,
and every one of its fields holds a value its bits can carry, so that encoding it drops nothing. -/
def Statement (i : Instr) : Prop :=
  i.wellFormed = true →
    i.format = (row i).1 ∧ i.selector < 2 ^ selectorWidth i.format ∧ i.selector &&& (row i).2.2 = (row i).2.1 ∧
      ∀ p ∈ i.fields, p.2 < 2 ^ p.1

/-- The range check of a well-formed operand. -/
theorem range_of {lo hi v : Nat} (h : inRange lo hi v = true) : lo ≤ v ∧ v ≤ hi := by
  simpa [inRange] using h

theorem and_of {a b : Bool} (h : (a && b) = true) : a = true ∧ b = true := by
  simpa using h

/-- An element with one field. -/
theorem one_field {n v : Nat} (h : v < 2 ^ n) : ∀ p ∈ [(n, v)], p.2 < 2 ^ p.1 := by
  simpa using h

/-- An element without a field. -/
theorem no_field : ∀ p ∈ ([] : List (Nat × Nat)), p.2 < 2 ^ p.1 := fun _ h => absurd h List.not_mem_nil

/-- A number below 256 has bit 8 clear. -/
theorem bit8_clear {a : Nat} (h : a < 256) : a &&& 256 = 0 := by
  rw [show (256 : Nat) = 2 ^ 8 from rfl, Nat.and_two_pow, Nat.testBit_lt_two_pow h]; rfl


theorem blockStored (f : Bool) : Statement (.blockStored f) := by
  intro _; cases f <;> decide

theorem blockFixed (f : Bool) : Statement (.blockFixed f) := by
  intro _; cases f <;> decide

theorem blockDynamic (f : Bool) : Statement (.blockDynamic f) := by
  intro _; cases f <;> decide

theorem blockReserved (f : Bool) : Statement (.blockReserved f) := by
  intro _; cases f <;> decide

theorem storedHdr (len nlen : BitVec 16) : Statement (.storedHdr len nlen) := by
  intro _
  exact ⟨rfl, Nat.le_of_ble_eq_true rfl, (by decide : 0 &&& 0 = 0),
    List.forall_mem_cons.mpr ⟨len.isLt, one_field nlen.isLt⟩⟩

theorem storedByte (b : Byte) : Statement (.storedByte b) := by
  intro _
  exact ⟨rfl, Nat.le_of_ble_eq_true rfl, (by decide : 0 &&& 0 = 0), one_field b.isLt⟩

theorem dynCounts (hlit : BitVec 9) (hdist : BitVec 6) (hclen : BitVec 5) : Statement (.dynCounts hlit hdist hclen) := by
  intro h
  obtain ⟨h12, h3⟩ := and_of h
  obtain ⟨h1, h2⟩ := and_of h12
  have h1 := range_of h1
  have h2 := range_of h2
  have h3 := range_of h3
  exact ⟨rfl, Nat.le_of_ble_eq_true rfl, (by decide : 0 &&& 0 = 0), List.forall_mem_cons.mpr
    ⟨show hlit.toNat - 257 < 2 ^ 5 by omega, List.forall_mem_cons.mpr
      ⟨show hdist.toNat - 1 < 2 ^ 5 by omega, one_field (show hclen.toNat - 4 < 2 ^ 4 by omega)⟩⟩⟩

theorem cllen (v : BitVec 3) : Statement (.cllen v) := by
  intro _
  exact ⟨rfl, Nat.le_of_ble_eq_true rfl, (by decide : 0 &&& 0 = 0), one_field v.isLt⟩

theorem clLen (n : BitVec 4) : Statement (.clLen n) := by
  intro _; revert n; decide

theorem clRep (r : BitVec 8) : Statement (.clRep r) := by
  intro h
  have h := range_of h
  exact ⟨rfl, Nat.le_of_ble_eq_true rfl, (by decide : 16 &&& 31 = 16), one_field (by omega)⟩

theorem clZero3 (r : BitVec 8) : Statement (.clZero3 r) := by
  intro h
  have h := range_of h
  exact ⟨rfl, Nat.le_of_ble_eq_true rfl, (by decide : 17 &&& 31 = 17), one_field (by omega)⟩

theorem clZero11 (r : BitVec 8) : Statement (.clZero11 r) := by
  intro h
  have h := range_of h
  exact ⟨rfl, Nat.le_of_ble_eq_true rfl, (by decide : 18 &&& 31 = 18), one_field (by omega)⟩

theorem lit (b : Byte) : Statement (.lit b) := by
  intro _
  have := b.isLt
  exact ⟨rfl, Nat.lt_of_lt_of_le this (Nat.le_of_ble_eq_true rfl), bit8_clear this, no_field⟩

theorem eob : Statement .eob := by
  intro _; decide

theorem len257 (x : BitVec 5) : Statement (.len257 x) := by
  intro h
  exact ⟨rfl, Nat.le_of_ble_eq_true rfl, (by decide : 257 &&& 511 = 257), one_field (of_decide_eq_true h)⟩

theorem len258 (x : BitVec 5) : Statement (.len258 x) := by
  intro h
  exact ⟨rfl, Nat.le_of_ble_eq_true rfl, (by decide : 258 &&& 511 = 258), one_field (of_decide_eq_true h)⟩

theorem len259 (x : BitVec 5) : Statement (.len259 x) := by
  intro h
  exact ⟨rfl, Nat.le_of_ble_eq_true rfl, (by decide : 259 &&& 511 = 259), one_field (of_decide_eq_true h)⟩

theorem len260 (x : BitVec 5) : Statement (.len260 x) := by
  intro h
  exact ⟨rfl, Nat.le_of_ble_eq_true rfl, (by decide : 260 &&& 511 = 260), one_field (of_decide_eq_true h)⟩

theorem len261 (x : BitVec 5) : Statement (.len261 x) := by
  intro h
  exact ⟨rfl, Nat.le_of_ble_eq_true rfl, (by decide : 261 &&& 511 = 261), one_field (of_decide_eq_true h)⟩

theorem len262 (x : BitVec 5) : Statement (.len262 x) := by
  intro h
  exact ⟨rfl, Nat.le_of_ble_eq_true rfl, (by decide : 262 &&& 511 = 262), one_field (of_decide_eq_true h)⟩

theorem len263 (x : BitVec 5) : Statement (.len263 x) := by
  intro h
  exact ⟨rfl, Nat.le_of_ble_eq_true rfl, (by decide : 263 &&& 511 = 263), one_field (of_decide_eq_true h)⟩

theorem len264 (x : BitVec 5) : Statement (.len264 x) := by
  intro h
  exact ⟨rfl, Nat.le_of_ble_eq_true rfl, (by decide : 264 &&& 511 = 264), one_field (of_decide_eq_true h)⟩

theorem len265 (x : BitVec 5) : Statement (.len265 x) := by
  intro h
  exact ⟨rfl, Nat.le_of_ble_eq_true rfl, (by decide : 265 &&& 511 = 265), one_field (of_decide_eq_true h)⟩

theorem len266 (x : BitVec 5) : Statement (.len266 x) := by
  intro h
  exact ⟨rfl, Nat.le_of_ble_eq_true rfl, (by decide : 266 &&& 511 = 266), one_field (of_decide_eq_true h)⟩

theorem len267 (x : BitVec 5) : Statement (.len267 x) := by
  intro h
  exact ⟨rfl, Nat.le_of_ble_eq_true rfl, (by decide : 267 &&& 511 = 267), one_field (of_decide_eq_true h)⟩

theorem len268 (x : BitVec 5) : Statement (.len268 x) := by
  intro h
  exact ⟨rfl, Nat.le_of_ble_eq_true rfl, (by decide : 268 &&& 511 = 268), one_field (of_decide_eq_true h)⟩

theorem len269 (x : BitVec 5) : Statement (.len269 x) := by
  intro h
  exact ⟨rfl, Nat.le_of_ble_eq_true rfl, (by decide : 269 &&& 511 = 269), one_field (of_decide_eq_true h)⟩

theorem len270 (x : BitVec 5) : Statement (.len270 x) := by
  intro h
  exact ⟨rfl, Nat.le_of_ble_eq_true rfl, (by decide : 270 &&& 511 = 270), one_field (of_decide_eq_true h)⟩

theorem len271 (x : BitVec 5) : Statement (.len271 x) := by
  intro h
  exact ⟨rfl, Nat.le_of_ble_eq_true rfl, (by decide : 271 &&& 511 = 271), one_field (of_decide_eq_true h)⟩

theorem len272 (x : BitVec 5) : Statement (.len272 x) := by
  intro h
  exact ⟨rfl, Nat.le_of_ble_eq_true rfl, (by decide : 272 &&& 511 = 272), one_field (of_decide_eq_true h)⟩

theorem len273 (x : BitVec 5) : Statement (.len273 x) := by
  intro h
  exact ⟨rfl, Nat.le_of_ble_eq_true rfl, (by decide : 273 &&& 511 = 273), one_field (of_decide_eq_true h)⟩

theorem len274 (x : BitVec 5) : Statement (.len274 x) := by
  intro h
  exact ⟨rfl, Nat.le_of_ble_eq_true rfl, (by decide : 274 &&& 511 = 274), one_field (of_decide_eq_true h)⟩

theorem len275 (x : BitVec 5) : Statement (.len275 x) := by
  intro h
  exact ⟨rfl, Nat.le_of_ble_eq_true rfl, (by decide : 275 &&& 511 = 275), one_field (of_decide_eq_true h)⟩

theorem len276 (x : BitVec 5) : Statement (.len276 x) := by
  intro h
  exact ⟨rfl, Nat.le_of_ble_eq_true rfl, (by decide : 276 &&& 511 = 276), one_field (of_decide_eq_true h)⟩

theorem len277 (x : BitVec 5) : Statement (.len277 x) := by
  intro h
  exact ⟨rfl, Nat.le_of_ble_eq_true rfl, (by decide : 277 &&& 511 = 277), one_field (of_decide_eq_true h)⟩

theorem len278 (x : BitVec 5) : Statement (.len278 x) := by
  intro h
  exact ⟨rfl, Nat.le_of_ble_eq_true rfl, (by decide : 278 &&& 511 = 278), one_field (of_decide_eq_true h)⟩

theorem len279 (x : BitVec 5) : Statement (.len279 x) := by
  intro h
  exact ⟨rfl, Nat.le_of_ble_eq_true rfl, (by decide : 279 &&& 511 = 279), one_field (of_decide_eq_true h)⟩

theorem len280 (x : BitVec 5) : Statement (.len280 x) := by
  intro h
  exact ⟨rfl, Nat.le_of_ble_eq_true rfl, (by decide : 280 &&& 511 = 280), one_field (of_decide_eq_true h)⟩

theorem len281 (x : BitVec 5) : Statement (.len281 x) := by
  intro h
  exact ⟨rfl, Nat.le_of_ble_eq_true rfl, (by decide : 281 &&& 511 = 281), one_field (of_decide_eq_true h)⟩

theorem len282 (x : BitVec 5) : Statement (.len282 x) := by
  intro h
  exact ⟨rfl, Nat.le_of_ble_eq_true rfl, (by decide : 282 &&& 511 = 282), one_field (of_decide_eq_true h)⟩

theorem len283 (x : BitVec 5) : Statement (.len283 x) := by
  intro h
  exact ⟨rfl, Nat.le_of_ble_eq_true rfl, (by decide : 283 &&& 511 = 283), one_field (of_decide_eq_true h)⟩

theorem len284 (x : BitVec 5) : Statement (.len284 x) := by
  intro h
  exact ⟨rfl, Nat.le_of_ble_eq_true rfl, (by decide : 284 &&& 511 = 284), one_field (of_decide_eq_true h)⟩

theorem len285 (x : BitVec 5) : Statement (.len285 x) := by
  intro h
  exact ⟨rfl, Nat.le_of_ble_eq_true rfl, (by decide : 285 &&& 511 = 285), one_field (of_decide_eq_true h)⟩

theorem llInvalid (s : BitVec 9) : Statement (.llInvalid s) := by
  intro h
  have h := range_of h
  have e : s = 286#9 ∨ s = 287#9 := by
    have : s.toNat = 286 ∨ s.toNat = 287 := by omega
    exact this.imp (fun q => BitVec.eq_of_toNat_eq q) (fun q => BitVec.eq_of_toNat_eq q)
  rcases e with rfl | rfl <;> decide

theorem dist0 (y : BitVec 13) : Statement (.dist0 y) := by
  intro h
  exact ⟨rfl, Nat.le_of_ble_eq_true rfl, (by decide : 0 &&& 31 = 0), one_field (of_decide_eq_true h)⟩

theorem dist1 (y : BitVec 13) : Statement (.dist1 y) := by
  intro h
  exact ⟨rfl, Nat.le_of_ble_eq_true rfl, (by decide : 1 &&& 31 = 1), one_field (of_decide_eq_true h)⟩

theorem dist2 (y : BitVec 13) : Statement (.dist2 y) := by
  intro h
  exact ⟨rfl, Nat.le_of_ble_eq_true rfl, (by decide : 2 &&& 31 = 2), one_field (of_decide_eq_true h)⟩

theorem dist3 (y : BitVec 13) : Statement (.dist3 y) := by
  intro h
  exact ⟨rfl, Nat.le_of_ble_eq_true rfl, (by decide : 3 &&& 31 = 3), one_field (of_decide_eq_true h)⟩

theorem dist4 (y : BitVec 13) : Statement (.dist4 y) := by
  intro h
  exact ⟨rfl, Nat.le_of_ble_eq_true rfl, (by decide : 4 &&& 31 = 4), one_field (of_decide_eq_true h)⟩

theorem dist5 (y : BitVec 13) : Statement (.dist5 y) := by
  intro h
  exact ⟨rfl, Nat.le_of_ble_eq_true rfl, (by decide : 5 &&& 31 = 5), one_field (of_decide_eq_true h)⟩

theorem dist6 (y : BitVec 13) : Statement (.dist6 y) := by
  intro h
  exact ⟨rfl, Nat.le_of_ble_eq_true rfl, (by decide : 6 &&& 31 = 6), one_field (of_decide_eq_true h)⟩

theorem dist7 (y : BitVec 13) : Statement (.dist7 y) := by
  intro h
  exact ⟨rfl, Nat.le_of_ble_eq_true rfl, (by decide : 7 &&& 31 = 7), one_field (of_decide_eq_true h)⟩

theorem dist8 (y : BitVec 13) : Statement (.dist8 y) := by
  intro h
  exact ⟨rfl, Nat.le_of_ble_eq_true rfl, (by decide : 8 &&& 31 = 8), one_field (of_decide_eq_true h)⟩

theorem dist9 (y : BitVec 13) : Statement (.dist9 y) := by
  intro h
  exact ⟨rfl, Nat.le_of_ble_eq_true rfl, (by decide : 9 &&& 31 = 9), one_field (of_decide_eq_true h)⟩

theorem dist10 (y : BitVec 13) : Statement (.dist10 y) := by
  intro h
  exact ⟨rfl, Nat.le_of_ble_eq_true rfl, (by decide : 10 &&& 31 = 10), one_field (of_decide_eq_true h)⟩

theorem dist11 (y : BitVec 13) : Statement (.dist11 y) := by
  intro h
  exact ⟨rfl, Nat.le_of_ble_eq_true rfl, (by decide : 11 &&& 31 = 11), one_field (of_decide_eq_true h)⟩

theorem dist12 (y : BitVec 13) : Statement (.dist12 y) := by
  intro h
  exact ⟨rfl, Nat.le_of_ble_eq_true rfl, (by decide : 12 &&& 31 = 12), one_field (of_decide_eq_true h)⟩

theorem dist13 (y : BitVec 13) : Statement (.dist13 y) := by
  intro h
  exact ⟨rfl, Nat.le_of_ble_eq_true rfl, (by decide : 13 &&& 31 = 13), one_field (of_decide_eq_true h)⟩

theorem dist14 (y : BitVec 13) : Statement (.dist14 y) := by
  intro h
  exact ⟨rfl, Nat.le_of_ble_eq_true rfl, (by decide : 14 &&& 31 = 14), one_field (of_decide_eq_true h)⟩

theorem dist15 (y : BitVec 13) : Statement (.dist15 y) := by
  intro h
  exact ⟨rfl, Nat.le_of_ble_eq_true rfl, (by decide : 15 &&& 31 = 15), one_field (of_decide_eq_true h)⟩

theorem dist16 (y : BitVec 13) : Statement (.dist16 y) := by
  intro h
  exact ⟨rfl, Nat.le_of_ble_eq_true rfl, (by decide : 16 &&& 31 = 16), one_field (of_decide_eq_true h)⟩

theorem dist17 (y : BitVec 13) : Statement (.dist17 y) := by
  intro h
  exact ⟨rfl, Nat.le_of_ble_eq_true rfl, (by decide : 17 &&& 31 = 17), one_field (of_decide_eq_true h)⟩

theorem dist18 (y : BitVec 13) : Statement (.dist18 y) := by
  intro h
  exact ⟨rfl, Nat.le_of_ble_eq_true rfl, (by decide : 18 &&& 31 = 18), one_field (of_decide_eq_true h)⟩

theorem dist19 (y : BitVec 13) : Statement (.dist19 y) := by
  intro h
  exact ⟨rfl, Nat.le_of_ble_eq_true rfl, (by decide : 19 &&& 31 = 19), one_field (of_decide_eq_true h)⟩

theorem dist20 (y : BitVec 13) : Statement (.dist20 y) := by
  intro h
  exact ⟨rfl, Nat.le_of_ble_eq_true rfl, (by decide : 20 &&& 31 = 20), one_field (of_decide_eq_true h)⟩

theorem dist21 (y : BitVec 13) : Statement (.dist21 y) := by
  intro h
  exact ⟨rfl, Nat.le_of_ble_eq_true rfl, (by decide : 21 &&& 31 = 21), one_field (of_decide_eq_true h)⟩

theorem dist22 (y : BitVec 13) : Statement (.dist22 y) := by
  intro h
  exact ⟨rfl, Nat.le_of_ble_eq_true rfl, (by decide : 22 &&& 31 = 22), one_field (of_decide_eq_true h)⟩

theorem dist23 (y : BitVec 13) : Statement (.dist23 y) := by
  intro h
  exact ⟨rfl, Nat.le_of_ble_eq_true rfl, (by decide : 23 &&& 31 = 23), one_field (of_decide_eq_true h)⟩

theorem dist24 (y : BitVec 13) : Statement (.dist24 y) := by
  intro h
  exact ⟨rfl, Nat.le_of_ble_eq_true rfl, (by decide : 24 &&& 31 = 24), one_field (of_decide_eq_true h)⟩

theorem dist25 (y : BitVec 13) : Statement (.dist25 y) := by
  intro h
  exact ⟨rfl, Nat.le_of_ble_eq_true rfl, (by decide : 25 &&& 31 = 25), one_field (of_decide_eq_true h)⟩

theorem dist26 (y : BitVec 13) : Statement (.dist26 y) := by
  intro h
  exact ⟨rfl, Nat.le_of_ble_eq_true rfl, (by decide : 26 &&& 31 = 26), one_field (of_decide_eq_true h)⟩

theorem dist27 (y : BitVec 13) : Statement (.dist27 y) := by
  intro h
  exact ⟨rfl, Nat.le_of_ble_eq_true rfl, (by decide : 27 &&& 31 = 27), one_field (of_decide_eq_true h)⟩

theorem dist28 (y : BitVec 13) : Statement (.dist28 y) := by
  intro h
  exact ⟨rfl, Nat.le_of_ble_eq_true rfl, (by decide : 28 &&& 31 = 28), one_field (of_decide_eq_true h)⟩

theorem dist29 (y : BitVec 13) : Statement (.dist29 y) := by
  intro h
  exact ⟨rfl, Nat.le_of_ble_eq_true rfl, (by decide : 29 &&& 31 = 29), one_field (of_decide_eq_true h)⟩

theorem distInvalid (c : BitVec 5) : Statement (.distInvalid c) := by
  intro h
  have h := range_of h
  have e : c = 30#5 ∨ c = 31#5 := by
    have : c.toNat = 30 ∨ c.toNat = 31 := by omega
    exact this.imp (fun q => BitVec.eq_of_toNat_eq q) (fun q => BitVec.eq_of_toNat_eq q)
  rcases e with rfl | rfl <;> decide

end Sys2Proof.Laws.SelectsRow
end

