-- ==== Sys2Proof/Tests/Slice0.lean ====
section
/-! SUPPORT. Tests: ill-formed instructions, words written out from the encodings of the spec, one step of each instruction
on a small state, and for every statement of Certificates/Slice0/Obligations.lean that has hypotheses a witness that meets
them. Every expected value is from spec/, whose rule the comment names. -/

namespace Sys2Proof.Tests

set_option Elab.async false

open Sys2Proof Sys2Proof.Machine Sys2Proof.Says

/-! ### Ill-formed instructions: one for each check of WellFormed.lean -/

theorem test_ill_formed_counts :
    (Instr.dynCounts 256 1 4).wellFormed = false ∧ (Instr.dynCounts 289 1 4).wellFormed = false ∧
    (Instr.dynCounts 257 0 4).wellFormed = false ∧ (Instr.dynCounts 257 33 4).wellFormed = false ∧
    (Instr.dynCounts 257 1 3).wellFormed = false ∧ (Instr.dynCounts 257 1 20).wellFormed = false := by
  decide

theorem test_ill_formed_repeats :
    (Instr.clRep 2).wellFormed = false ∧ (Instr.clRep 7).wellFormed = false ∧
    (Instr.clZero3 2).wellFormed = false ∧ (Instr.clZero3 11).wellFormed = false ∧
    (Instr.clZero11 10).wellFormed = false ∧ (Instr.clZero11 139).wellFormed = false := by
  decide

theorem test_ill_formed_invalid_symbols :
    (Instr.llInvalid 285).wellFormed = false ∧ (Instr.llInvalid 288).wellFormed = false ∧
    (Instr.distInvalid 29).wellFormed = false := by
  decide

theorem test_ill_formed_len_257_to_265 :
    (Instr.len257 1).wellFormed = false ∧
    (Instr.len258 1).wellFormed = false ∧
    (Instr.len259 1).wellFormed = false ∧
    (Instr.len260 1).wellFormed = false ∧
    (Instr.len261 1).wellFormed = false ∧
    (Instr.len262 1).wellFormed = false ∧
    (Instr.len263 1).wellFormed = false ∧
    (Instr.len264 1).wellFormed = false ∧
    (Instr.len265 2).wellFormed = false := by
  decide

theorem test_ill_formed_len_266_to_274 :
    (Instr.len266 2).wellFormed = false ∧
    (Instr.len267 2).wellFormed = false ∧
    (Instr.len268 2).wellFormed = false ∧
    (Instr.len269 4).wellFormed = false ∧
    (Instr.len270 4).wellFormed = false ∧
    (Instr.len271 4).wellFormed = false ∧
    (Instr.len272 4).wellFormed = false ∧
    (Instr.len273 8).wellFormed = false ∧
    (Instr.len274 8).wellFormed = false := by
  decide

theorem test_ill_formed_len_275_to_285 :
    (Instr.len275 8).wellFormed = false ∧
    (Instr.len276 8).wellFormed = false ∧
    (Instr.len277 16).wellFormed = false ∧
    (Instr.len278 16).wellFormed = false ∧
    (Instr.len279 16).wellFormed = false ∧
    (Instr.len280 16).wellFormed = false ∧
    (Instr.len285 1).wellFormed = false := by
  decide

theorem test_ill_formed_dist_0_to_9 :
    (Instr.dist0 1).wellFormed = false ∧
    (Instr.dist1 1).wellFormed = false ∧
    (Instr.dist2 1).wellFormed = false ∧
    (Instr.dist3 1).wellFormed = false ∧
    (Instr.dist4 2).wellFormed = false ∧
    (Instr.dist5 2).wellFormed = false ∧
    (Instr.dist6 4).wellFormed = false ∧
    (Instr.dist7 4).wellFormed = false ∧
    (Instr.dist8 8).wellFormed = false ∧
    (Instr.dist9 8).wellFormed = false := by
  decide

theorem test_ill_formed_dist_10_to_19 :
    (Instr.dist10 16).wellFormed = false ∧
    (Instr.dist11 16).wellFormed = false ∧
    (Instr.dist12 32).wellFormed = false ∧
    (Instr.dist13 32).wellFormed = false ∧
    (Instr.dist14 64).wellFormed = false ∧
    (Instr.dist15 64).wellFormed = false ∧
    (Instr.dist16 128).wellFormed = false ∧
    (Instr.dist17 128).wellFormed = false ∧
    (Instr.dist18 256).wellFormed = false ∧
    (Instr.dist19 256).wellFormed = false := by
  decide

theorem test_ill_formed_dist_20_to_27 :
    (Instr.dist20 512).wellFormed = false ∧
    (Instr.dist21 512).wellFormed = false ∧
    (Instr.dist22 1024).wellFormed = false ∧
    (Instr.dist23 1024).wellFormed = false ∧
    (Instr.dist24 2048).wellFormed = false ∧
    (Instr.dist25 2048).wellFormed = false ∧
    (Instr.dist26 4096).wellFormed = false ∧
    (Instr.dist27 4096).wellFormed = false := by
  decide

/-! ### Decoding: words written out from the encodings of the spec -/

/-- The context of a fixed block (R110, R111), and for the code-length alphabet nineteen codes of five bits, so that the
code of a symbol is its number. -/
def fixedCtx (f : Format) : Ctx := ⟨f, List.replicate 19 5, lengthsOf fixedLL, lengthsOf fixedD, true⟩

/-- R102: the four block headers, first bit first. -/
theorem test_decode_block_headers :
    decode (fixedCtx .bh) [true, false, false] = .ok (.blockStored true) 3 ∧
    decode (fixedCtx .bh) [false, true, false] = .ok (.blockFixed false) 3 ∧
    decode (fixedCtx .bh) [true, false, true] = .ok (.blockDynamic true) 3 ∧
    decode (fixedCtx .bh) [false, true, true] = .ok (.blockReserved false) 3 := by
  decide

/-- R103, and scenario S1 of 95_test_vectors.md: bytes 05 00 FA FF, then the data byte 48. -/
theorem test_decode_stored :
    decode (fixedCtx .stHdr) (streamBits [0x05, 0x00, 0xFA, 0xFF]) = .ok (.storedHdr 0x0005 0xFFFA) 32 ∧
    decode (fixedCtx .stData) [false, false, false, true, false, false, true, false] = .ok (.storedByte 0x48) 8 := by
  decide

/-- R221's example 1 1 1 0 1 | 1 0 1 1 1 | 1 1 1 1; R227's example 0 1 0. -/
theorem test_decode_dynamic_header :
    decode (fixedCtx .dhCounts) [true, true, true, false, true, true, false, true, true, true, true, true, true, true] =
      .ok (.dynCounts 280 30 19) 14 ∧
    decode (fixedCtx .dhCllen) [false, true, false] = .ok (.cllen 2) 3 := by
  decide

/-- R105 with R236 (extra bits 1 0), R237 (1 1 1) and R238 (0 1 1 0 1 1 0): the code of symbol s is s in five bits. -/
theorem test_decode_code_lengths :
    decode (fixedCtx .cls) [false, true, false, false, false] = .ok (.clLen 8) 5 ∧
    decode (fixedCtx .cls) [true, false, false, false, false, true, false] = .ok (.clRep 4) 7 ∧
    decode (fixedCtx .cls) [true, false, false, false, true, true, true, true] = .ok (.clZero3 10) 8 ∧
    decode (fixedCtx .cls) [true, false, false, true, false, false, true, true, false, true, true, false] =
      .ok (.clZero11 65) 12 := by
  decide +kernel

/-- R252's four examples, R253's, and R257's two codes. -/
theorem test_decode_literals :
    decode (fixedCtx .ll) [false, false, true, true, false, false, false, false] = .ok (.lit 0x00) 8 ∧
    decode (fixedCtx .ll) [true, false, false, true, false, false, false, true] = .ok (.lit 0x61) 8 ∧
    decode (fixedCtx .ll) [true, true, true, true, true, true, true, true, true] = .ok (.lit 0xFF) 9 ∧
    decode (fixedCtx .ll) [true, true, false, false, true, false, false, false, false] = .ok (.lit 0x90) 9 ∧
    decode (fixedCtx .ll) [false, false, false, false, false, false, false] = .ok .eob 7 ∧
    decode (fixedCtx .ll) [true, true, false, false, false, true, true, false] = .ok (.llInvalid 286) 8 ∧
    decode (fixedCtx .ll) [true, true, false, false, false, true, true, true] = .ok (.llInvalid 287) 8 := by
  decide +kernel

/-- R261 to R270: the fixed-block code of each length symbol, then its extra bits with the first one 1 (value 1);
none where it has none. -/
theorem test_decode_len_257_to_266 :
    decode (fixedCtx .ll) [false, false, false, false, false, false, true] =
      .ok (.len257 0) 7 ∧
    decode (fixedCtx .ll) [false, false, false, false, false, true, false] =
      .ok (.len258 0) 7 ∧
    decode (fixedCtx .ll) [false, false, false, false, false, true, true] =
      .ok (.len259 0) 7 ∧
    decode (fixedCtx .ll) [false, false, false, false, true, false, false] =
      .ok (.len260 0) 7 ∧
    decode (fixedCtx .ll) [false, false, false, false, true, false, true] =
      .ok (.len261 0) 7 ∧
    decode (fixedCtx .ll) [false, false, false, false, true, true, false] =
      .ok (.len262 0) 7 ∧
    decode (fixedCtx .ll) [false, false, false, false, true, true, true] =
      .ok (.len263 0) 7 ∧
    decode (fixedCtx .ll) [false, false, false, true, false, false, false] =
      .ok (.len264 0) 7 ∧
    decode (fixedCtx .ll) [false, false, false, true, false, false, true, true] =
      .ok (.len265 1) 8 ∧
    decode (fixedCtx .ll) [false, false, false, true, false, true, false, true] =
      .ok (.len266 1) 8 := by
  decide +kernel

/-- R271 to R280: the fixed-block code of each length symbol, then its extra bits with the first one 1 (value 1);
none where it has none. -/
theorem test_decode_len_267_to_276 :
    decode (fixedCtx .ll) [false, false, false, true, false, true, true, true] =
      .ok (.len267 1) 8 ∧
    decode (fixedCtx .ll) [false, false, false, true, true, false, false, true] =
      .ok (.len268 1) 8 ∧
    decode (fixedCtx .ll) [false, false, false, true, true, false, true, true, false] =
      .ok (.len269 1) 9 ∧
    decode (fixedCtx .ll) [false, false, false, true, true, true, false, true, false] =
      .ok (.len270 1) 9 ∧
    decode (fixedCtx .ll) [false, false, false, true, true, true, true, true, false] =
      .ok (.len271 1) 9 ∧
    decode (fixedCtx .ll) [false, false, true, false, false, false, false, true, false] =
      .ok (.len272 1) 9 ∧
    decode (fixedCtx .ll) [false, false, true, false, false, false, true, true, false, false] =
      .ok (.len273 1) 10 ∧
    decode (fixedCtx .ll) [false, false, true, false, false, true, false, true, false, false] =
      .ok (.len274 1) 10 ∧
    decode (fixedCtx .ll) [false, false, true, false, false, true, true, true, false, false] =
      .ok (.len275 1) 10 ∧
    decode (fixedCtx .ll) [false, false, true, false, true, false, false, true, false, false] =
      .ok (.len276 1) 10 := by
  decide +kernel

/-- R281 to R289: the fixed-block code of each length symbol, then its extra bits with the first one 1 (value 1);
none where it has none. -/
theorem test_decode_len_277_to_285 :
    decode (fixedCtx .ll) [false, false, true, false, true, false, true, true, false, false, false] =
      .ok (.len277 1) 11 ∧
    decode (fixedCtx .ll) [false, false, true, false, true, true, false, true, false, false, false] =
      .ok (.len278 1) 11 ∧
    decode (fixedCtx .ll) [false, false, true, false, true, true, true, true, false, false, false] =
      .ok (.len279 1) 11 ∧
    decode (fixedCtx .ll) [true, true, false, false, false, false, false, false, true, false, false, false] =
      .ok (.len280 1) 12 ∧
    decode (fixedCtx .ll) [true, true, false, false, false, false, false, true, true, false, false, false, false] =
      .ok (.len281 1) 13 ∧
    decode (fixedCtx .ll) [true, true, false, false, false, false, true, false, true, false, false, false, false] =
      .ok (.len282 1) 13 ∧
    decode (fixedCtx .ll) [true, true, false, false, false, false, true, true, true, false, false, false, false] =
      .ok (.len283 1) 13 ∧
    decode (fixedCtx .ll) [true, true, false, false, false, true, false, false, true, false, false, false, false] =
      .ok (.len284 1) 13 ∧
    decode (fixedCtx .ll) [true, true, false, false, false, true, false, true] =
      .ok (.len285 0) 8 := by
  decide +kernel

/-- R290 to R299: the fixed-block code of each distance code, then its extra bits with the first one 1 (value 1);
none where it has none. -/
theorem test_decode_dist_0_to_9 :
    decode (fixedCtx .d) [false, false, false, false, false] =
      .ok (.dist0 0) 5 ∧
    decode (fixedCtx .d) [false, false, false, false, true] =
      .ok (.dist1 0) 5 ∧
    decode (fixedCtx .d) [false, false, false, true, false] =
      .ok (.dist2 0) 5 ∧
    decode (fixedCtx .d) [false, false, false, true, true] =
      .ok (.dist3 0) 5 ∧
    decode (fixedCtx .d) [false, false, true, false, false, true] =
      .ok (.dist4 1) 6 ∧
    decode (fixedCtx .d) [false, false, true, false, true, true] =
      .ok (.dist5 1) 6 ∧
    decode (fixedCtx .d) [false, false, true, true, false, true, false] =
      .ok (.dist6 1) 7 ∧
    decode (fixedCtx .d) [false, false, true, true, true, true, false] =
      .ok (.dist7 1) 7 ∧
    decode (fixedCtx .d) [false, true, false, false, false, true, false, false] =
      .ok (.dist8 1) 8 ∧
    decode (fixedCtx .d) [false, true, false, false, true, true, false, false] =
      .ok (.dist9 1) 8 := by
  decide +kernel

/-- R300 to R309: the fixed-block code of each distance code, then its extra bits with the first one 1 (value 1);
none where it has none. -/
theorem test_decode_dist_10_to_19 :
    decode (fixedCtx .d) [false, true, false, true, false, true, false, false, false] =
      .ok (.dist10 1) 9 ∧
    decode (fixedCtx .d) [false, true, false, true, true, true, false, false, false] =
      .ok (.dist11 1) 9 ∧
    decode (fixedCtx .d) [false, true, true, false, false, true, false, false, false, false] =
      .ok (.dist12 1) 10 ∧
    decode (fixedCtx .d) [false, true, true, false, true, true, false, false, false, false] =
      .ok (.dist13 1) 10 ∧
    decode (fixedCtx .d) [false, true, true, true, false, true, false, false, false, false, false] =
      .ok (.dist14 1) 11 ∧
    decode (fixedCtx .d) [false, true, true, true, true, true, false, false, false, false, false] =
      .ok (.dist15 1) 11 ∧
    decode (fixedCtx .d) [true, false, false, false, false, true, false, false, false, false, false, false] =
      .ok (.dist16 1) 12 ∧
    decode (fixedCtx .d) [true, false, false, false, true, true, false, false, false, false, false, false] =
      .ok (.dist17 1) 12 ∧
    decode (fixedCtx .d) [true, false, false, true, false, true, false, false, false, false, false, false, false] =
      .ok (.dist18 1) 13 ∧
    decode (fixedCtx .d) [true, false, false, true, true, true, false, false, false, false, false, false, false] =
      .ok (.dist19 1) 13 := by
  decide +kernel

/-- R310 to R319: the fixed-block code of each distance code, then its extra bits with the first one 1 (value 1);
none where it has none. -/
theorem test_decode_dist_20_to_29 :
    decode (fixedCtx .d) [true, false, true, false, false, true, false, false, false, false, false, false, false, false] =
      .ok (.dist20 1) 14 ∧
    decode (fixedCtx .d) [true, false, true, false, true, true, false, false, false, false, false, false, false, false] =
      .ok (.dist21 1) 14 ∧
    decode (fixedCtx .d) [true, false, true, true, false, true, false, false, false, false, false, false, false, false, false] =
      .ok (.dist22 1) 15 ∧
    decode (fixedCtx .d) [true, false, true, true, true, true, false, false, false, false, false, false, false, false, false] =
      .ok (.dist23 1) 15 ∧
    decode (fixedCtx .d) [true, true, false, false, false, true, false, false, false, false, false, false, false, false, false, false] =
      .ok (.dist24 1) 16 ∧
    decode (fixedCtx .d) [true, true, false, false, true, true, false, false, false, false, false, false, false, false, false, false] =
      .ok (.dist25 1) 16 ∧
    decode (fixedCtx .d) [true, true, false, true, false, true, false, false, false, false, false, false, false, false, false, false, false] =
      .ok (.dist26 1) 17 ∧
    decode (fixedCtx .d) [true, true, false, true, true, true, false, false, false, false, false, false, false, false, false, false, false] =
      .ok (.dist27 1) 17 ∧
    decode (fixedCtx .d) [true, true, true, false, false, true, false, false, false, false, false, false, false, false, false, false, false, false] =
      .ok (.dist28 1) 18 ∧
    decode (fixedCtx .d) [true, true, true, false, true, true, false, false, false, false, false, false, false, false, false, false, false, false] =
      .ok (.dist29 1) 18 := by
  decide +kernel

/-- R320: codes 11110 and 11111. -/
theorem test_decode_dist_invalid :
    decode (fixedCtx .d) [true, true, true, true, false] = .ok (.distInvalid 30) 5 ∧
    decode (fixedCtx .d) [true, true, true, true, true] = .ok (.distInvalid 31) 5 := by
  decide +kernel

/-! ### One step of each instruction -/

/-- A state in phase p with one byte, 61, emitted and taken: it meets the invariant where the phase needs nothing more. -/
def one (p : Phase) : State :=
  { State.reset with phase := p, out := [0x61], outLen := 1, win := [(0, 0x61)], wrPtr := 1, histCnt := 1, outData := 0x61 }

/-- The answer is a next state of which p holds. -/
def after (r : Result) (p : State → Bool) : Bool :=
  match r with
  | .next t => p t
  | .fault _ => false
  | .refused _ => false

/-- match_len after a length element. -/
def lengthAfter (i : Instr) : Option Nat :=
  match exec i (one .symbol) with
  | .next t => some t.matchLen.toNat
  | .fault _ => none
  | .refused _ => none

/-- match_dist after a distance element. -/
def distanceAfter (i : Instr) : Option Nat :=
  match exec i { one .symbol with awaitDist := true } with
  | .next t => some t.matchDist.toNat
  | .fault _ => none
  | .refused _ => none

/-- R193: phase STORED_LEN; bfinal and btype written (R191). -/
theorem test_block_stored :
    after (exec (.blockStored true) State.reset) (fun t => t.phase = .storedLen && t.bfinal && t.btype = 0) = true := by
  decide +kernel

/-- R194: the two fixed tables, phase SYMBOL. -/
theorem test_block_fixed :
    after (exec (.blockFixed false) State.reset)
      (fun t => t.phase = .symbol && !t.bfinal && t.btype = 1 && t.tLL = fixedLL && t.tD = List.replicate 32 5) = true := by
  decide +kernel

/-- R195. -/
theorem test_block_dynamic :
    after (exec (.blockDynamic true) State.reset) (fun t => t.phase = .dynCounts && t.bfinal && t.btype = 2) = true := by
  decide +kernel

/-- R196, R377: WrongBlockType is code 2; busy falls, since no output byte is pending. -/
theorem test_block_reserved :
    after (exec (.blockReserved false) State.reset)
      (fun t => t.phase = .error && t.error && t.errCode = 2 && !t.busy && !t.done) = true := by
  decide +kernel

/-- R203: LEN 5 with NLEN FFFA passes, LEN FFFF with NLEN 0 passes, LEN 5 with NLEN 0 and with NLEN 00FA is the fault 1. -/
theorem test_stored_header_check :
    after (exec (.storedHdr 0x0005 0xFFFA) (one .storedLen)) (fun t => t.phase = .storedCopy && t.storedRem = 5) = true ∧
    after (exec (.storedHdr 0xFFFF 0x0000) (one .storedLen)) (fun t => t.phase = .storedCopy && t.storedRem = 65535) = true ∧
    after (exec (.storedHdr 0x0005 0x0000) (one .storedLen)) (fun t => t.phase = .error && t.errCode = 1) = true ∧
    after (exec (.storedHdr 0x0005 0x00FA) (one .storedLen)) (fun t => t.phase = .error && t.errCode = 1) = true := by
  decide +kernel

/-- R203, R205: an empty stored block ends in its header; R197: the final one goes to DONE. -/
theorem test_stored_header_empty :
    after (exec (.storedHdr 0x0000 0xFFFF) { one .storedLen with bfinal := true }) (fun t => t.phase = .done && t.done) = true ∧
    after (exec (.storedHdr 0x0000 0xFFFF) (one .storedLen)) (fun t => t.phase = .header && t.busy) = true := by
  decide +kernel

/-- R204: the byte is emitted unchanged; the last one ends the block. -/
theorem test_stored_byte :
    after (exec (.storedByte 0x48) { one .storedCopy with storedRem := 5 })
      (fun t => t.out = [0x61, 0x48] && t.storedRem = 4 && t.phase = .storedCopy && t.outData = 0x48 && t.outValid) = true ∧
    after (exec (.storedByte 0x6F) { one .storedCopy with storedRem := 1, bfinal := true })
      (fun t => t.out = [0x61, 0x6F] && t.storedRem = 0 && t.phase = .done && t.busy && !t.done) = true := by
  decide +kernel

/-- R221, R226: the counts, and nineteen zeros where an earlier header left something else. -/
theorem test_dyn_counts :
    after (exec (.dynCounts 280 30 19) { one .dynCounts with clLens := List.replicate 19 7, lenIdx := 3, clIdx := 2 })
      (fun t => t.phase = .dynCllens && t.hlit = 280 && t.hdist = 30 && t.hclen = 19 && t.clLens = List.replicate 19 0 &&
        t.clIdx = 0 && t.lenIdx = 0) = true := by
  decide +kernel

/-- R227's example: the first field, 2, is the code length of code-length symbol 16. -/
theorem test_cllen_position :
    after (exec (.cllen 2) { one .dynCllens with hclen := 4 })
      (fun t => t.phase = .dynCllens && t.clLens[16]? = some 2 && t.clLens[0]? = some 0 && t.clIdx = 1) = true := by
  decide +kernel

/-- R229, R165: three lengths of 1 are over-subscribed, fault 9; two are accepted. -/
theorem test_cllen_last :
    after (exec (.cllen 1) { one .dynCllens with hclen := 4, clIdx := 3, clLens := List.replicate 16 0 ++ [1, 1, 0] })
      (fun t => t.phase = .error && t.errCode = 9 && t.tCL = []) = true ∧
    after (exec (.cllen 1) { one .dynCllens with hclen := 4, clIdx := 3, clLens := List.replicate 16 0 ++ [1, 0, 0] })
      (fun t => t.phase = .dynLens && t.tCL = [1] ++ List.replicate 15 0 ++ [1, 0, 0]) = true := by
  decide +kernel

/-- A dynamic header under way: 257 and 1 code lengths expected. -/
def lensState (k : BitVec 9) (v : BitVec 4) : State :=
  { one .dynLens with hlit := 257, hdist := 1, lenIdx := k, lens := List.replicate 320 v }

/-- R232's example: len_idx = 65, symbol 8. -/
theorem test_cl_len :
    after (exec (.clLen 8) (lensState 65 0))
      (fun t => t.lens[65]? = some 8 && t.lens[66]? = some 0 && t.lenIdx = 66 && t.phase = .dynLens) = true := by
  decide +kernel

/-- R239: the last length completes the header; entry hlit is the first distance length. -/
theorem test_cl_len_last :
    after (exec (.clLen 1) (lensState 257 0))
      (fun t => t.phase = .symbol && t.tLL = List.replicate 257 0 && t.tD = [1] && t.lenIdx = 258) = true := by
  decide +kernel

/-- R236's example: the vector ends in 5, r = 4; and the fault 7 where there is no previous length. -/
theorem test_cl_rep :
    after (exec (.clRep 4) { lensState 2 0 with lens := [3, 5] ++ List.replicate 318 0 })
      (fun t => t.lens.take 8 = [3, 5, 5, 5, 5, 5, 0, 0] && t.lenIdx = 6) = true ∧
    after (exec (.clRep 4) (lensState 0 5)) (fun t => t.phase = .error && t.errCode = 7 && t.lenIdx = 0) = true := by
  decide +kernel

/-- R237's example: ten zeros, with no previous length; R234: one entry too many is the fault 8, and nothing is written. -/
theorem test_cl_zero3 :
    after (exec (.clZero3 10) (lensState 0 7))
      (fun t => t.lens.take 11 = List.replicate 10 0 ++ [7] && t.lenIdx = 10) = true ∧
    after (exec (.clZero3 10) (lensState 249 7))
      (fun t => t.errCode = 8 && t.lens = List.replicate 320 7 && t.lenIdx = 249) = true := by
  decide +kernel

/-- R238's example: 138 zeros; R234 and R239: exactly hlit + hdist is no overrun and completes the header. -/
theorem test_cl_zero11 :
    after (exec (.clZero11 138) (lensState 0 7))
      (fun t => t.lens = List.replicate 138 0 ++ List.replicate 182 7 && t.lenIdx = 138) = true ∧
    after (exec (.clZero11 138) (lensState 120 0)) (fun t => t.phase = .symbol && t.lenIdx = 258) = true := by
  decide +kernel

/-- R343's example: Emit(61) from reset. -/
theorem test_lit :
    after (exec (.lit 0x61) { State.reset with phase := .symbol })
      (fun t => t.win = [(0, 0x61)] && t.wrPtr = 1 && t.histCnt = 1 && t.outLen = 1 && t.phase = .symbol && t.outValid) =
        true := by
  decide +kernel

/-- R343, R347: wr_ptr wraps from 32767 to 0, hist_cnt saturates at 32768. -/
theorem test_lit_wraps :
    after (exec (.lit 0x61) { State.reset with phase := .symbol, wrPtr := 32767, histCnt := 32768, outLen := 65535 })
      (fun t => t.win = [(32767, 0x61)] && t.wrPtr = 0 && t.histCnt = 32768 && t.outLen = 65536) = true := by
  decide +kernel

/-- R253, R197: DONE after the final block, HEADER otherwise. -/
theorem test_eob :
    after (exec .eob { one .symbol with bfinal := true }) (fun t => t.phase = .done && t.done && !t.busy) = true ∧
    after (exec .eob (one .symbol)) (fun t => t.phase = .header && !t.done && t.busy) = true := by
  decide +kernel

/-- R257, R320: WrongSymbol is code 3. -/
theorem test_invalid_symbols :
    after (exec (.llInvalid 286) (one .symbol)) (fun t => t.phase = .error && t.errCode = 3) = true ∧
    after (exec (.distInvalid 31) { one .symbol with awaitDist := true }) (fun t => t.phase = .error && t.errCode = 3) =
      true := by
  decide +kernel

/-- R261 to R275: match_len with all extra bits 1. -/
theorem test_exec_len_257_to_271 :
    lengthAfter (.len257 0) = some 3 ∧
    lengthAfter (.len258 0) = some 4 ∧
    lengthAfter (.len259 0) = some 5 ∧
    lengthAfter (.len260 0) = some 6 ∧
    lengthAfter (.len261 0) = some 7 ∧
    lengthAfter (.len262 0) = some 8 ∧
    lengthAfter (.len263 0) = some 9 ∧
    lengthAfter (.len264 0) = some 10 ∧
    lengthAfter (.len265 1) = some 12 ∧
    lengthAfter (.len266 1) = some 14 ∧
    lengthAfter (.len267 1) = some 16 ∧
    lengthAfter (.len268 1) = some 18 ∧
    lengthAfter (.len269 3) = some 22 ∧
    lengthAfter (.len270 3) = some 26 ∧
    lengthAfter (.len271 3) = some 30 := by
  decide +kernel

/-- R276 to R289: match_len with all extra bits 1. -/
theorem test_exec_len_272_to_285 :
    lengthAfter (.len272 3) = some 34 ∧
    lengthAfter (.len273 7) = some 42 ∧
    lengthAfter (.len274 7) = some 50 ∧
    lengthAfter (.len275 7) = some 58 ∧
    lengthAfter (.len276 7) = some 66 ∧
    lengthAfter (.len277 15) = some 82 ∧
    lengthAfter (.len278 15) = some 98 ∧
    lengthAfter (.len279 15) = some 114 ∧
    lengthAfter (.len280 15) = some 130 ∧
    lengthAfter (.len281 31) = some 162 ∧
    lengthAfter (.len282 31) = some 194 ∧
    lengthAfter (.len283 31) = some 226 ∧
    lengthAfter (.len284 31) = some 258 ∧
    lengthAfter (.len285 0) = some 258 := by
  decide +kernel

/-- R290 to R304: match_dist with all extra bits 1. -/
theorem test_exec_dist_0_to_14 :
    distanceAfter (.dist0 0) = some 1 ∧
    distanceAfter (.dist1 0) = some 2 ∧
    distanceAfter (.dist2 0) = some 3 ∧
    distanceAfter (.dist3 0) = some 4 ∧
    distanceAfter (.dist4 1) = some 6 ∧
    distanceAfter (.dist5 1) = some 8 ∧
    distanceAfter (.dist6 3) = some 12 ∧
    distanceAfter (.dist7 3) = some 16 ∧
    distanceAfter (.dist8 7) = some 24 ∧
    distanceAfter (.dist9 7) = some 32 ∧
    distanceAfter (.dist10 15) = some 48 ∧
    distanceAfter (.dist11 15) = some 64 ∧
    distanceAfter (.dist12 31) = some 96 ∧
    distanceAfter (.dist13 31) = some 128 ∧
    distanceAfter (.dist14 63) = some 192 := by
  decide +kernel

/-- R305 to R319: match_dist with all extra bits 1. -/
theorem test_exec_dist_15_to_29 :
    distanceAfter (.dist15 63) = some 256 ∧
    distanceAfter (.dist16 127) = some 384 ∧
    distanceAfter (.dist17 127) = some 512 ∧
    distanceAfter (.dist18 255) = some 768 ∧
    distanceAfter (.dist19 255) = some 1024 ∧
    distanceAfter (.dist20 511) = some 1536 ∧
    distanceAfter (.dist21 511) = some 2048 ∧
    distanceAfter (.dist22 1023) = some 3072 ∧
    distanceAfter (.dist23 1023) = some 4096 ∧
    distanceAfter (.dist24 2047) = some 6144 ∧
    distanceAfter (.dist25 2047) = some 8192 ∧
    distanceAfter (.dist26 4095) = some 12288 ∧
    distanceAfter (.dist27 4095) = some 16384 ∧
    distanceAfter (.dist28 8191) = some 24576 ∧
    distanceAfter (.dist29 8191) = some 32768 := by
  decide +kernel

/-- R344: match_dist = out_len is allowed, one more is the fault 6; with out_len = 0 every distance is. -/
theorem test_distance_check :
    after (exec (.dist0 0) { one .symbol with awaitDist := true, matchLen := 4 })
      (fun t => t.phase = .copy && t.copyRem = 4 && t.matchDist = 1) = true ∧
    after (exec (.dist1 0) { one .symbol with awaitDist := true }) (fun t => t.phase = .error && t.errCode = 6) = true ∧
    after (exec (.dist0 0) { State.reset with phase := .symbol, awaitDist := true }) (fun t => t.errCode = 6) = true := by
  decide +kernel

/-- A copy of four bytes at distance 1, as in scenario S3. -/
def copying : State := { one .copy with matchLen := 4, matchDist := 1, copyRem := 4 }

/-- R345, scenario S3: the byte one position back is emitted again. -/
theorem test_copy_step :
    after (step copying) (fun t => t.out = [0x61, 0x61] && t.copyRem = 3 && t.phase = .copy && t.outValid) = true ∧
    after (step { copying with copyRem := 1 }) (fun t => t.copyRem = 0 && t.phase = .symbol) = true := by
  decide +kernel

/-- R191 and R377: a header cut short after its first bit has written bfinal, and raises TruncatedInput (code 5); R221: counts
cut short after five bits have written hlit. -/
theorem test_truncated_fields :
    after (step { one .header with rd := { Reader.reset with input := [0x80], brBit := 7, brByte := 0x80, brHave := true, inCnt := 1, inEos := true } })
      (fun t => t.bfinal && t.btype = 0 && t.errCode = 5 && t.rd.pos = 8) = true ∧
    after (step { one .dynCounts with rd := { Reader.reset with input := [0xB8], brBit := 3, brByte := 0xB8, brHave := true, inCnt := 1, inEos := true } })
      (fun t => t.hlit = 280 && t.hdist = 0 && t.errCode = 5) = true := by
  decide +kernel

/-- The placing of a table word: the words of LEN_257 and BLOCK_DYNAMIC, as spec/opcode_table.json numbers them, run as the first
instruction after reset (LEN_257's step goes on with the zeros after it, distance code 0, R254). -/
theorem test_with_fetch_word :
    after (step (State.reset.withFetchWord 16 257)) (fun t => t.matchLen = 3) = true ∧
    after (step (State.reset.withFetchWord 8 4)) (fun t => t.phase = .dynCounts) = true := by
  decide +kernel

/-! ### Witnesses: states and operands that meet the hypotheses of the statements -/

/-- A state with one byte emitted meets the invariant when its reader, status, tables and phase do. -/
theorem inv_of_one {s : State} (reader : s.rd.Inv) (out : s.out = [0x61]) (outLen : s.outLen = 1)
    (win : s.win = [(0, 0x61)]) (wrPtr : s.wrPtr = 1) (histCnt : s.histCnt = 1) (status : s.StatusInv)
    (tables : s.TablesInv) (phase : s.PhaseInv) (edge : s.rstEdge = false) : s.Inv := by
  refine ⟨reader, ⟨?_, ?_, ?_, ?_, fun d h1 h2 => ?_⟩, status, tables, phase,
    ⟨fun h => absurd (edge.symm.trans h) (by decide), fun h => absurd (edge.symm.trans h) (by decide)⟩⟩
  · rw [win]; decide
  · rw [wrPtr, outLen]; rfl
  · rw [histCnt, outLen]; rfl
  · rw [out, outLen]; rfl
  · rw [outLen] at h2
    obtain rfl : d = 1 := by omega
    rw [win, wrPtr, out, outLen]
    decide +kernel

theorem reader_inv_fresh (input : List Byte) (eos : Bool) : ({ Reader.reset with input := input, inEos := eos } : Reader).Inv :=
  ⟨rfl, rfl, Nat.zero_le _, fun h => by cases h⟩

/-- The tables of a small block: codes of 1, 2 and 2 bits for literals 1 to 3, of 1 bit for distance codes 0 and 1. -/
def smallCtx (f : Format) : Ctx :=
  ⟨f, [0, 0, 2, 2, 0, 0, 0, 0, 0, 0, 0, 0, 0, 0, 0, 0, 2, 2, 0], [0, 1, 2, 2], [1, 1], true⟩

/-- DecodeOfEncode, with operands at both ends of their range. -/
theorem witness_decode_of_encode :
    (∀ r : BitVec 8, r = 3 ∨ r = 6 → (Instr.clRep r).wellFormed = true ∧ (Instr.clRep r).format = (smallCtx .cls).fmt) ∧
    buildable (smallCtx .cls).tCL = true ∧ buildable (smallCtx .cls).tLL = true ∧ buildable (smallCtx .cls).tD = true ∧
    (∀ l ∈ (smallCtx .cls).tCL, l ≤ 15) ∧ (∀ l ∈ (smallCtx .cls).tLL, l ≤ 15) ∧ (∀ l ∈ (smallCtx .cls).tD, l ≤ 15) ∧
    (smallCtx .cls).hasPrev = true ∧
    encode (smallCtx .cls) (.clRep 3) = some [true, false, false, false] ∧
    encode (smallCtx .cls) (.clRep 6) = some [true, false, true, true] := by
  refine ⟨fun r h => ?_, by decide, by decide, by decide, by decide, by decide, by decide, rfl, by decide, by decide⟩
  rcases h with rfl | rfl <;> exact ⟨by decide, rfl⟩

/-- EncodeOfDecode and DecodeNeedsNoLookAhead. -/
theorem witness_decoded : decode (smallCtx .cls) [true, false, true, true, true] = .ok (.clRep 6) 4 := by
  decide

/-- CanonicalCode and HuffDecodeSpec: a complete code; two symbols of different length. -/
theorem witness_canonical_code :
    kraft [1, 2, 2] ≤ 2 ^ 15 ∧ (∀ l ∈ [1, 2, 2], l ≤ 15) ∧ ([1, 2, 2] : List Nat)[0]? = some 1 ∧
    ([1, 2, 2] : List Nat)[2]? = some 2 := by
  decide

/-- HuffDecodeSpec, one case of each answer (R170, R171, R164: code 0 of length 1, the bit 1 is unassigned). -/
theorem witness_huff_decode :
    huffDecode [1, 2, 2] [true, true, false] = .symbol 2 2 ∧ huffDecode [1] [true] = .absent 1 ∧
    huffDecode [] [true] = .absent 0 ∧ huffDecode [1, 2, 2] [true] = .short := by
  decide

/-- NextCodeSum at both ends. -/
theorem witness_next_code_sum : (∃ len : Nat, 1 ≤ len ∧ len = 1) ∧ ∃ len : Nat, 1 ≤ len ∧ len = 15 :=
  ⟨⟨1, by decide, rfl⟩, 15, by decide, rfl⟩

/-- FixedCodes, each range at both ends (R110, R111). -/
theorem witness_fixed_codes :
    encodeSymbol (lengthsOf fixedLL) 0 = some (codeBits 8 0b00110000) ∧
    encodeSymbol (lengthsOf fixedLL) 143 = some (codeBits 8 0b10111111) ∧
    encodeSymbol (lengthsOf fixedLL) 144 = some (codeBits 9 0b110010000) ∧
    encodeSymbol (lengthsOf fixedLL) 255 = some (codeBits 9 0b111111111) ∧
    encodeSymbol (lengthsOf fixedLL) 256 = some (codeBits 7 0b0000000) ∧
    encodeSymbol (lengthsOf fixedLL) 279 = some (codeBits 7 0b0010111) ∧
    encodeSymbol (lengthsOf fixedLL) 280 = some (codeBits 8 0b11000000) ∧
    encodeSymbol (lengthsOf fixedLL) 287 = some (codeBits 8 0b11000111) ∧
    encodeSymbol (lengthsOf fixedLL) 288 = none ∧
    encodeSymbol (lengthsOf fixedD) 31 = some (codeBits 5 0b11111) ∧ encodeSymbol (lengthsOf fixedD) 32 = none := by
  decide +kernel

/-- CodeLengthSymbolRange: a symbol of a table, and a table of 20 lengths, which the block never builds. -/
theorem witness_code_length_symbol :
    huffDecode (smallCtx .cls).tCL [true, true] = .symbol 17 2 ∧
    huffDecode (List.replicate 19 0 ++ [1]) [false] = .symbol 19 1 := by
  decide

/-- NeedByteSpec: a held byte, an offered byte, none. -/
theorem witness_need_byte :
    ({ Reader.reset with brHave := true } : Reader).brHave = true ∧
    ({ Reader.reset with input := [0x63] } : Reader).brHave = false ∧
    ({ Reader.reset with input := [0x63] } : Reader).input[0]? = some 0x63 ∧
    Reader.reset.input[Reader.reset.brIndex]? = none := by
  decide

/-- GetBitSpec: no byte; the last bit of a byte; an earlier bit. R142's example 63 begins with 1 and ends with 0. -/
theorem witness_get_bit :
    Reader.reset.needByte = none ∧
    ({ Reader.reset with input := [0x63], brBit := 7, brByte := 0x63, brHave := true } : Reader).getBit =
      some (false, { Reader.reset with input := [0x63], brByte := 0x63, brIndex := 1 }) ∧
    (({ Reader.reset with input := [0x63] } : Reader).getBit).map Prod.fst = some true := by
  decide

/-- GetBitsSpec: R143's example 1D, five bits, 29; the length of the unread bits on both sides of n. -/
theorem witness_get_bits :
    (({ Reader.reset with input := [0x1D] } : Reader).getBits 5).map Prod.fst = some 29 ∧
    ({ Reader.reset with input := [0x1D] } : Reader).unread.length = 8 ∧
    ({ Reader.reset with input := [0x1D] } : Reader).getBits 9 = none := by
  decide

/-- AlignByteSpec: on the boundary, and past it (R145's example). -/
theorem witness_align_byte :
    Reader.reset.brBit = 0 ∧
    ({ Reader.reset with brBit := 3, brHave := true } : Reader).alignByte = { Reader.reset with brIndex := 1 } := by
  decide

/-- AlignedReads: R147's example FA FF; one byte only; none. -/
theorem witness_aligned_reads :
    ({ Reader.reset with input := [0xFA, 0xFF], inEos := false } : Reader).Inv ∧
    (({ Reader.reset with input := [0xFA, 0xFF] } : Reader).getU16LE).map Prod.fst = some 0xFFFA ∧
    ({ Reader.reset with input := [0xFA] } : Reader).getU16LE = none ∧ Reader.reset.getByte = none :=
  ⟨reader_inv_fresh _ _, by decide, by decide, by decide⟩

/-- The status registers of a state in a phase that is not terminal. -/
theorem status_of {s : State} (h1 : s.error = false) (h2 : s.errCode = 0) (h3 : isTerminal s.phase = false)
    (h4 : s.busy = true) (h5 : s.done = false) : s.StatusInv := by
  have hp : s.phase ≠ .error ∧ s.phase ≠ .done := by
    constructor <;> (intro h; rw [h] at h3; cases h3)
  refine ⟨?_, fun _ => h2, fun h => ?_, ?_, ?_⟩
  · rw [h1]; exact (decide_eq_false hp.1).symm
  · rw [h1] at h; cases h
  · rw [h4, State.busyValue, h3]; rfl
  · rw [h5, State.doneValue, decide_eq_false hp.2]; rfl

/-- An empty table is accepted (R164). -/
theorem empty_buildable {w : Nat} : buildable (lengthsOf ([] : List (BitVec w))) = true := by
  show buildable [] = true
  decide

theorem small_ll_buildable : buildable (lengthsOf ([0, 1, 2, 2] : List (BitVec 4))) = true := by decide

theorem small_d_buildable : buildable (lengthsOf ([1, 1] : List (BitVec 4))) = true := by decide

theorem tables_of {s : State} (h1 : s.clLens.length = 19) (h2 : s.lens.length = 320)
    (h3 : buildable (lengthsOf s.tCL) = true) (h4 : buildable (lengthsOf s.tLL) = true)
    (h5 : buildable (lengthsOf s.tD) = true) : s.TablesInv := ⟨h1, h2, h3, h4, h5⟩

/-- BytesTaken, PosNeverDecreases, CopyStepEmits, CopyIsCyclic, StatusPorts, InvKept, InvNeverStops: a copy in progress. -/
theorem witness_copying :
    copying.Inv ∧ copying.rst = false ∧ copying.phase = .copy ∧ copying.outReady = true ∧ copying.outValid = false ∧
    ∃ t, step copying = .next t := by
  refine ⟨?_, rfl, rfl, rfl, rfl, ?_⟩
  · refine inv_of_one (reader_inv_fresh [] false) rfl rfl rfl rfl rfl (status_of rfl rfl rfl rfl rfl)
      (tables_of List.length_replicate List.length_replicate empty_buildable empty_buildable empty_buildable) ?_ rfl
    refine ⟨fun h => (by cases h), fun h => (by cases h), fun h => (by rcases h with h | h <;> cases h), fun h => (by cases h),
      fun h => (by cases h), fun h => (by cases h), fun h => (by cases h), fun _ => by decide⟩
  · exact ⟨_, rfl⟩

/-- CopyStepEmits, the other clause: the output port is occupied. -/
theorem witness_copying_waits :
    ({ copying with outValid := true, outReady := false } : State).Inv ∧
    step { copying with outValid := true, outReady := false } = .next { copying with outValid := true, outReady := false } := by
  refine ⟨?_, ?_⟩
  · refine inv_of_one (reader_inv_fresh [] false) rfl rfl rfl rfl rfl (status_of rfl rfl rfl rfl rfl)
      (tables_of List.length_replicate List.length_replicate empty_buildable empty_buildable empty_buildable) ?_ rfl
    refine ⟨fun h => (by cases h), fun h => (by cases h), fun h => (by rcases h with h | h <;> cases h), fun h => (by cases h),
      fun h => (by cases h), fun h => (by cases h), fun h => (by cases h), fun _ => by decide⟩
  · rfl

/-- BlockHeaders, StoredHeader, StoredByte, DynCounts, CodeLengthLength, ClLen, ClRep, ClZeros, Literal, EndOfBlockSymbol,
InvalidSymbols, LengthRule, DistanceRule: a state that asks for each format. -/
theorem witness_formats :
    (one .header).nextFormat = some .bh ∧ (one .storedLen).nextFormat = some .stHdr ∧
    (one .storedCopy).nextFormat = some .stData ∧ (one .dynCounts).nextFormat = some .dhCounts ∧
    (one .dynCllens).nextFormat = some .dhCllen ∧ (one .dynLens).nextFormat = some .cls ∧
    (one .symbol).nextFormat = some .ll ∧ ({ one .symbol with awaitDist := true } : State).nextFormat = some .d := by
  decide +kernel

/-- StoredHeader, its step: the cursor inside a byte, four bytes after the boundary (S1). -/
theorem witness_stored_header :
    let s : State := { one .storedLen with
      rd := { Reader.reset with input := [0x01, 0x05, 0x00, 0xFA, 0xFF], brBit := 3, brByte := 0x01, brHave := true, inCnt := 1 } }
    s.rst = false ∧ s.nextFormat = some .stHdr ∧ s.rd.held = [] ∧
    s.rd.alignByte.unread = streamBits [0x05, 0x00, 0xFA, 0xFF] ++ [] ∧
    ((0x0005#16 ^^^ 0xFFFA#16) = 0xFFFF#16 ∧ 0x0005#16 ≠ 0) ∧ (0x0000#16 ^^^ 0xFFFF#16) = 0xFFFF#16 ∧
    (0x0005#16 ^^^ 0x0000#16) ≠ 0xFFFF#16 := by
  decide +kernel

/-- StoredByte: the port free and occupied, the last byte and one before it. -/
theorem witness_stored_byte :
    ∀ rem : BitVec 16, rem = 1 ∨ rem = 65535 → ∀ v : Bool,
      ({ one .storedCopy with storedRem := rem, outValid := v } : State).nextFormat = some .stData ∧ rem ≠ 0 := by
  intro rem h v
  rcases h with rfl | rfl <;> cases v <;> decide +kernel

/-- CodeLengthLength: the first position and the last, the vector accepted and not. -/
theorem witness_cllen :
    (one .dynCllens).clLens.length = 19 ∧
    [16, 17, 18, 0, 8, 7, 9, 6, 10, 5, 11, 4, 12, 3, 13, 2, 14, 1, 15][(one .dynCllens).clIdx.toNat]? = some 16 ∧
    [16, 17, 18, 0, 8, 7, 9, 6, 10, 5, 11, 4, 12, 3, 13, 2, 14, 1, 15][18]? = some 15 ∧
    (0 : BitVec 5) + 1 ≠ 4 ∧ (18 : BitVec 5) + 1 = 19 ∧
    oversubscribed ([1, 1, 1] : List (BitVec 3)) ∧ ¬ oversubscribed ([1, 1] : List (BitVec 3)) := by
  refine ⟨by decide, by decide, by decide, by decide, by decide, ?_, ?_⟩
  · show 2 ^ 15 < kraft _; decide
  · show ¬ 2 ^ 15 < kraft _; decide

/-- ClLen, ClRep, ClZeros: symbols 15, 16, 17 and 18, and the counts on both sides of hlit + hdist. -/
theorem witness_code_lengths :
    huffDecode (List.replicate 19 5) [false, true, true, true, true] = .symbol 15 5 ∧
    huffDecode (List.replicate 19 5) [true, false, false, false, false] = .symbol 16 5 ∧
    huffDecode (List.replicate 19 5) [true, false, false, false, true] = .symbol 17 5 ∧
    huffDecode (List.replicate 19 5) [true, false, false, true, false] = .symbol 18 5 ∧
    fieldVal 2 [true, true] = some 3 ∧ fieldVal 3 [true, true, true] = some 7 ∧
    fieldVal 7 [true, true, true, true, true, true, true] = some 127 ∧
    (let s := lensState 257 5
     s.nextFormat = some .cls ∧ s.lenIdx.toNat < s.hlit.toNat + s.hdist.toNat ∧
      s.hlit.toNat + s.hdist.toNat ≤ s.lens.length ∧ s.lenIdx ≠ 0 ∧ s.lens[s.lenIdx.toNat - 1]? = some 5 ∧
      s.hlit.toNat + s.hdist.toNat < s.lenIdx.toNat + 3) ∧
    (let s := lensState 252 5
     s.lenIdx.toNat + 6 ≤ s.hlit.toNat + s.hdist.toNat) ∧ (lensState 0 5).lenIdx = 0 := by
  decide +kernel

/-- Rows of R106, the first and the last of each statement: length symbol, bits of its fixed code, the code, its extra
bits. -/
def lengthRows : List (Nat × Nat × Nat × Nat) :=
  [(257, 7, 0b0000001, 0), (268, 7, 0b0001100, 1), (269, 7, 0b0001101, 2), (280, 8, 0b11000000, 4),
    (281, 8, 0b11000001, 5), (285, 8, 0b11000101, 0)]

/-- The rows of R107: distance code, bits of its fixed code, the code, its extra bits. -/
def distanceRows : List (Nat × Nat × Nat × Nat) :=
    [(0, 5, 0b00000, 0), (1, 5, 0b00001, 0), (2, 5, 0b00010, 0), (3, 5, 0b00011, 0), (4, 5, 0b00100, 1)] ++
    [(5, 5, 0b00101, 1), (6, 5, 0b00110, 2), (7, 5, 0b00111, 2), (8, 5, 0b01000, 3), (9, 5, 0b01001, 3)] ++
    [(10, 5, 0b01010, 4), (11, 5, 0b01011, 4), (12, 5, 0b01100, 5), (13, 5, 0b01101, 5), (14, 5, 0b01110, 6)] ++
    [(15, 5, 0b01111, 6), (16, 5, 0b10000, 7), (17, 5, 0b10001, 7), (18, 5, 0b10010, 8), (19, 5, 0b10011, 8)] ++
    [(20, 5, 0b10100, 9), (21, 5, 0b10101, 9), (22, 5, 0b10110, 10), (23, 5, 0b10111, 10), (24, 5, 0b11000, 11)] ++
    [(25, 5, 0b11001, 11), (26, 5, 0b11010, 12), (27, 5, 0b11011, 12), (28, 5, 0b11100, 13), (29, 5, 0b11101, 13)]

/-- LengthRule: the code of a length symbol and its largest extra value. -/
theorem witness_length_rule :
    lengthRows.all (fun r =>
      let bits := codeBits r.2.1 r.2.2.1 ++ fieldBits r.2.2.2 (2 ^ r.2.2.2 - 1)
      decide (huffDecode (lengthsOf fixedLL) bits = .symbol r.1 r.2.1) &&
        decide (fieldVal r.2.2.2 (bits.drop r.2.1) = some (2 ^ r.2.2.2 - 1))) = true := by
  decide +kernel

/-- DistanceRule: for every distance code, its code and its largest extra value; both sides of the distance check. -/
theorem witness_distance_rule :
    distanceRows.all (fun r =>
      let bits := codeBits r.2.1 r.2.2.1 ++ fieldBits r.2.2.2 (2 ^ r.2.2.2 - 1)
      decide (huffDecode (lengthsOf fixedD) bits = .symbol r.1 r.2.1) &&
        decide (fieldVal r.2.2.2 (bits.drop r.2.1) = some (2 ^ r.2.2.2 - 1))) = true ∧
    (1 : BitVec 16).toNat ≤ (one .symbol).outLen ∧ (one .symbol).outLen < (2 : BitVec 16).toNat := by
  decide +kernel

/-- Literal, EndOfBlockSymbol, InvalidSymbols: symbols 0, 255, 256, 286 and 287, codes 30 and 31. -/
theorem witness_symbols :
    huffDecode (lengthsOf fixedLL) (codeBits 8 0b00110000) = .symbol 0 8 ∧
    huffDecode (lengthsOf fixedLL) (codeBits 9 0b111111111) = .symbol 255 9 ∧
    huffDecode (lengthsOf fixedLL) (codeBits 7 0) = .symbol 256 7 ∧
    huffDecode (lengthsOf fixedLL) (codeBits 8 0b11000110) = .symbol 286 8 ∧
    huffDecode (lengthsOf fixedLL) (codeBits 8 0b11000111) = .symbol 287 8 ∧
    huffDecode (lengthsOf fixedD) (codeBits 5 30) = .symbol 30 5 ∧
    huffDecode (lengthsOf fixedD) (codeBits 5 31) = .symbol 31 5 := by
  decide +kernel

/-- RangesTile at the ends of the tables (R322, R324). -/
theorem witness_ranges :
    distanceBase.getD 0 0 + 0 = 1 ∧ distanceBase.getD 29 0 + (2 ^ distExtra 29 - 1) = 32768 ∧
    lengthBase.getD 0 0 + 0 = 3 ∧ lengthBase.getD 27 0 + (2 ^ lenExtra 284 - 2) = 257 ∧
    lengthBase.getD 27 0 + 31 = 258 ∧ lengthBase.getD 28 0 + 0 = 258 := by
  decide

/-- The state before a match of length 3 at distance `extra + 1`: the bits of LEN_257 and of distance code 0 or 1. -/
def matching (code : Nat) : State :=
  { one .symbol with
    tLL := fixedLL
    tD := fixedD
    rd := { Reader.reset with input := packBytes 2 (codeBits 7 1 ++ codeBits 5 code) } }

/-- R250, R251: one step decodes length 3 and distance 1 and starts the copy. R323: where the stream stops after the first bit
of the distance code the step holds there; where it has ended, that is SymbolNotFound (code 4, R375). -/
theorem test_match_one_step :
    after (step (matching 0)) (fun t => t.phase = .copy && t.matchLen = 3 && t.matchDist = 1 && t.copyRem = 3 && t.rd.pos = 12) =
      true ∧
    (let s : State := { matching 0 with rd := { Reader.reset with input := packBytes 1 (codeBits 7 1) } }
     after (step s) (fun t => t.phase = .symbol && t.nextFormat = some .d && t.rd.held = [false] && t.rd.pos = 8) = true ∧
     after (step { s with rd := { s.rd with inEos := true } }) (fun t => t.phase = .error && t.errCode = 4) = true) := by
  decide +kernel

/-- R390, R412, R84: rst may fall, and another stream be presented, only once an edge has passed under it. -/
theorem test_reset_moves :
    (let s : State := { matching 0 with rst := true }
     (match s.setRst false, s.presentStream [0x03] true with
      | .refused .protocolViolation, .refused .protocolViolation => true
      | _, _ => false) = true ∧
     after (step s) (fun t =>
       after (t.presentStream [0x03] true) (fun u => u.rd.input = [0x03] && u.rd.inEos && u.rd.inCnt = 0 && !u.inReady) &&
         after (t.setRst false) (fun u => !u.rst && u.inReady)) = true) := by
  decide +kernel

/-- MatchDecodedWhole: distance 1, which is allowed after one byte, and distance 2, which is not. -/
theorem witness_match :
    ∀ code, code = 0 ∨ code = 1 →
      (matching code).rst = false ∧ (matching code).nextFormat = some .ll ∧ (matching code).rd.held = [] ∧
      decode ((matching code).ctx .ll) (matching code).rd.unread = .ok (.len257 0) 7 ∧
      (match distCtors[code]? with
        | some mk => decide (decode ((matching code).ctx .d) ((matching code).rd.unread.drop 7) = .ok (mk 0) 5)
        | none => false) = true := by
  intro code h
  rcases h with rfl | rfl <;> decide +kernel

/-- DistanceCheckForms. -/
theorem witness_distance_forms : copying.Inv ∧ (32768 : BitVec 16).toNat ≤ 32768 := ⟨witness_copying.1, by decide⟩

/-- FrameOfNonEmitting and FrameOfEmitting. -/
theorem witness_frames :
    Instr.eob.emits = false ∧ after (exec .eob (one .symbol)) (fun _ => true) = true ∧
    (Instr.lit 0x62).emits = true ∧ after (exec (.lit 0x62) (one .symbol)) (fun _ => true) = true := by
  decide +kernel

/-- RaiseEntersError: both clauses. -/
theorem witness_raise : (one .symbol).error = false ∧ ({ one .error with error := true, errCode := 3 } : State).error = true := by
  decide

/-- WhichFaultAtTheEnd: the bits end inside a code, hold no code, and end inside the extra bits of each kind. -/
theorem witness_ends :
    huffDecode [1, 2, 2] [true] = .short ∧ huffDecode [1] [true] = .absent 1 ∧
    huffDecode (List.replicate 19 5) ([true, false, false, false, false] ++ [true]) = .symbol 16 5 ∧
    huffDecode (List.replicate 19 5) ([true, false, false, false, true] ++ [true, true]) = .symbol 17 5 ∧
    huffDecode (List.replicate 19 5) ([true, false, false, true, false] ++ [true]) = .symbol 18 5 ∧
    (huffDecode (lengthsOf fixedLL) (codeBits 7 0b0001001) = .symbol 265 7 ∧ ([] : List Bool).length < lenExtra 265) ∧
    (huffDecode (lengthsOf fixedD) (codeBits 5 4) = .symbol 4 5 ∧ ([] : List Bool).length < distExtra 4) := by
  decide +kernel

/-- A symbol step with the small tables and the given input. -/
def smallBlock (input : List Byte) (eos : Bool) : State :=
  { one .symbol with tLL := [0, 1, 2, 2], tD := [1, 1], rd := { Reader.reset with input := input, inEos := eos } }

theorem witness_small_block (input : List Byte) (eos valid ready : Bool) :
    ({ smallBlock input eos with outValid := valid, outReady := ready } : State).Inv := by
  refine inv_of_one (reader_inv_fresh input eos) rfl rfl rfl rfl rfl (status_of rfl rfl rfl rfl rfl)
    (tables_of List.length_replicate List.length_replicate empty_buildable small_ll_buildable small_d_buildable) ?_ rfl
  exact ⟨fun h => (by cases h), fun h => (by cases h), fun h => (by rcases h with h | h <;> cases h), fun h => (by cases h),
    fun h => (by cases h), fun h => (by cases h), fun h => (by cases h), fun h => by cases h⟩

/-- StepAtTheEndOfTheBits: a header without bits, the stream ended and not. -/
theorem witness_step_short :
    ∀ eos : Bool,
      let s : State := { one .header with rd := { Reader.reset with inEos := eos } }
      s.rst = false ∧ s.nextFormat = some .bh ∧ decode (s.ctx .bh) (bitsFor .bh s) = .short .truncatedInput ∧
      s.rd.inEos = eos := by
  intro eos
  cases eos <;> decide +kernel

/-- StepAtAnUnassignedCode: the bit 1 under a single code of length 1 (R164); symbol 16 without a previous length (R236). -/
theorem witness_step_reject :
    (let s : State := { smallBlock [0x01] false with tLL := [1] }
     s.rst = false ∧ s.nextFormat = some .ll ∧ decode (s.ctx .ll) (s.rd.held ++ s.rd.unread) = .reject .symbolNotFound 1) ∧
    (let s : State := { lensState 0 0 with tCL := List.replicate 16 0 ++ [1], rd := { Reader.reset with input := [0x00] } }
     decode (s.ctx .cls) (s.rd.held ++ s.rd.unread) = .reject .noPreviousLength 1) := by
  decide +kernel

/-- FaultingStepEmitsNothing: a reserved block header. -/
theorem witness_faulting_step :
    let s : State := { one .header with rd := { Reader.reset with input := [0x07] } }
    s.rst = false ∧ s.error = false ∧ after (step s) (fun t => t.error) = true := by
  decide +kernel

/-- ErrorIsTerminal and DoneIsTerminal. -/
theorem witness_terminal :
    (let s : State := { one .error with error := true, errCode := 2 }
     s.rst = false ∧ s.phase = .error ∧ s.error = true) ∧
    (one .done).rst = false ∧ (one .done).phase = .done ∧ (one .done).error = false := by
  decide

/-- StepRunsDecoded: an element that emits, the port free and occupied; the aligned formats; a length, and none. -/
theorem witness_step_decoded :
    (∀ ready : Bool,
      let s : State := { smallBlock [0x01] false with outValid := true, outReady := ready }
      s.rst = false ∧ s.nextFormat = some .ll ∧ decode (s.ctx .ll) (bitsFor .ll s) = .ok (.lit 2) 2 ∧
      ((Instr.lit 2).emits && (s.outValid && !s.outReady)) = !ready) ∧
    (let s : State := { one .storedLen with
        rd := { Reader.reset with input := [0x01, 0x05, 0x00, 0xFA, 0xFF], brBit := 3, brByte := 0x01, brHave := true, inCnt := 1 } }
     s.nextFormat = some .stHdr ∧ decode (s.ctx .stHdr) (bitsFor .stHdr s) = .ok (.storedHdr 0x0005 0xFFFA) 32) ∧
    (let s : State := { one .storedCopy with storedRem := 1, rd := { Reader.reset with input := [0x48] } }
     s.nextFormat = some .stData ∧ s.rd.brBit = 0 ∧ decode (s.ctx .stData) (bitsFor .stData s) = .ok (.storedByte 0x48) 8) ∧
    (decode ((matching 0).ctx .ll) (bitsFor .ll (matching 0)) = .ok (.len257 0) 7 ∧ lengthElement (.len257 0)) ∧
    ¬ lengthElement (.lit 2) := by
  refine ⟨fun ready => ?_, ?_, ?_, ⟨by decide +kernel, 0, Instr.len257, 0, rfl, rfl⟩, ?_⟩
  · cases ready <;> decide +kernel
  · decide +kernel
  · decide +kernel
  · rintro ⟨k, mk, x, h, e⟩
    have := (IsLength.of (sym := k + 257) (by omega) (by simpa using h) x).emits
    rw [← e] at this
    cases this

/-- ModelStops: each of its clauses. -/
theorem witness_model_stops :
    (one .symbol).nextFormat ≠ some (Instr.blockStored true).format ∧
    ((one .storedCopy).nextFormat = some .stData ∧ (one .storedCopy).storedRem = 0) ∧
    (({ one .dynCllens with clIdx := 19 } : State).nextFormat = some .dhCllen ∧
      19 ≤ ({ one .dynCllens with clIdx := 19 } : State).clIdx.toNat) ∧
    ((lensState 320 0).nextFormat = some .cls ∧ (lensState 320 0).lens.length ≤ (lensState 320 0).lenIdx.toNat) ∧
    (let s : State := { one .storedCopy with rd := { Reader.reset with brBit := 1 } }
     s.rst = false ∧ s.nextFormat = some .stData ∧ s.rd.brBit ≠ 0) ∧
    ((one .copy).rst = false ∧ (one .copy).phase = .copy ∧ (one .copy).error = false ∧ (one .copy).copyRem = 0) ∧
    (let s : State := { copying with matchDist := 2 }
     s.copyRem ≠ 0 ∧ s.win.read ((s.wrPtr.toNat + 32768 - s.matchDist.toNat % 32768) % 32768) = none) := by
  decide +kernel

/-- The bits of LEN_257 and one bit of a distance code, offered so far. -/
def halfMatch : State :=
  { one .symbol with
    tLL := fixedLL
    tD := fixedD
    rd := { Reader.reset with input := packBytes 1 (codeBits 7 1) } }

theorem fixed_ll_buildable : buildable (lengthsOf fixedLL) = true := by decide +kernel

theorem fixed_d_buildable : buildable (lengthsOf fixedD) = true := by decide +kernel

/-- HoldingThenByteIsByteFirst: a symbol step without a bit; a match whose distance is not there yet. -/
theorem witness_holding :
    ((smallBlock [] false).Inv ∧ (smallBlock [] false).rst = false ∧ (smallBlock [] false).nextFormat = some .ll ∧
      (smallBlock [] false).rd.inEos = false ∧ stepShort .ll .symbolNotFound (smallBlock [] false)) ∧
    halfMatch.Inv ∧ halfMatch.rst = false ∧ halfMatch.nextFormat = some .ll ∧ halfMatch.rd.inEos = false ∧
      stepShort .ll .symbolNotFound halfMatch := by
  refine ⟨⟨witness_small_block [] false false true, rfl, rfl, rfl, .inl rfl⟩, ?_, rfl, rfl, rfl, .inr ?_⟩
  · refine inv_of_one (reader_inv_fresh _ false) rfl rfl rfl rfl rfl (status_of rfl rfl rfl rfl rfl)
      (tables_of List.length_replicate List.length_replicate empty_buildable fixed_ll_buildable fixed_d_buildable) ?_ rfl
    exact ⟨fun h => (by cases h), fun h => (by cases h), fun h => (by rcases h with h | h <;> cases h), fun h => (by cases h),
      fun h => (by cases h), fun h => (by cases h), fun h => (by cases h), fun h => by cases h⟩
  · exact ⟨rfl, .len257 0, 7, ⟨0, Instr.len257, 0, rfl, rfl⟩, Nat.zero_le _, by decide +kernel, by decide +kernel⟩

/-- SlowDownstreamOnlyDelays: a literal whose predecessor has not been taken. -/
theorem witness_slow_downstream :
    let s : State := { smallBlock [0x01] false with outValid := true, outReady := false }
    s.Inv ∧ s.rst = false ∧ s.nextFormat = some .ll ∧ decode (s.ctx .ll) (s.rd.held ++ s.rd.unread) = .ok (.lit 2) 2 ∧
    (Instr.lit 2).emits = true ∧ s.rd.held.length ≤ 2 ∧ s.outValid = true ∧ s.outReady = false :=
  ⟨witness_small_block [0x01] false true false, rfl, rfl, by decide +kernel, rfl, by decide, rfl, rfl⟩

/-- OutputOnlyGrows: a step that emits and a step that does not. -/
theorem witness_output :
    after (step (smallBlock [0x01] false)) (fun t => t.out = [0x61, 0x02]) = true ∧
    after (step (one .header)) (fun t => t.out = [0x61]) = true := by
  decide +kernel

/-- ResetState: rst in a phase in progress, and in ERROR. -/
theorem witness_reset :
    ({ copying with rst := true } : State).rst = true ∧
    after (step { one .error with rst := true, error := true, errCode := 4, busy := false })
      (fun t => t.phase = .header && !t.error && t.errCode = 0 && t.outLen = 0 && t.busy) = true := by
  decide +kernel

/-- EnvironmentMoves: each move, and each refusal. -/
theorem witness_environment :
    (one .header).rd.inEos = false ∧ ({ one .header with rd := { Reader.reset with inEos := true } } : State).rd.inEos = true ∧
    ((one .header).rst = false ∧ (one .header).rstEdge = false) ∧ ({ one .header with rst := true } : State).rst = true ∧
    (∃ t, step { one .header with rst := true } = .next t ∧ t.rst = true ∧ t.rstEdge = true) ∧
    (smallBlock [] false).Inv ∧ (∃ t, (smallBlock [] false).offerByte 0x01 = .next t) ∧
    (∃ t, (smallBlock [] false).raiseEos = .next t) ∧ (∃ t, (smallBlock [] false).setOutReady false = .next t) ∧
    ∃ t, (smallBlock [] false).setRst true = .next t :=
  ⟨rfl, rfl, ⟨rfl, rfl⟩, rfl, ⟨_, rfl, rfl, rfl⟩, witness_small_block [] false false true, ⟨_, rfl⟩, ⟨_, rfl⟩, ⟨_, rfl⟩, ⟨_, rfl⟩⟩

end Sys2Proof.Tests
end

/-! The bit reader's GetBits and AlignByte (40_bitreader.md R143, R145). -/

namespace Sys2Proof.Proofs

open Sys2Proof.Machine

/-- The converse of `Reader.getBits_some`: GetBits(n) completes when n bits are there. -/
theorem getBits_eq_some {n : Nat} {r : Reader} (h : n ≤ r.unread.length) :
    r.getBits n = some (bitsVal (r.unread.take n), r.consume n) := by
  induction n generalizing r with
  | zero => rfl
  | succ n ih =>
    cases hu : r.unread with
    | nil => simp [hu] at h
    | cons b bs =>
      obtain ⟨r', hg, hu'⟩ := Reader.getBit_cons hu
      have hn : n ≤ r'.unread.length := by simpa [hu, hu'] using h
      simp [Reader.getBits, Reader.consume, hg, ih hn, hu', bitsVal]

/-- GetBits(n) is exhausted when fewer than n bits are unread (R143, R149). -/
theorem getBits_eq_none {n : Nat} {r : Reader} (h : r.unread.length < n) : r.getBits n = none := by
  cases hg : r.getBits n with
  | none => rfl
  | some vr =>
    have hle : n ≤ r.unread.length := (Reader.getBits_some (v := vr.1) (r' := vr.2) hg).2.2
    omega

theorem fieldBits_getElem? {n i : Nat} (hi : i < n) (v : Nat) : (fieldBits n v)[i]? = some (v.testBit i) := by
  induction n generalizing i v with
  | zero => omega
  | succ n ih =>
    cases i with
    | zero => rfl
    | succ i => simp [fieldBits, ih (by omega : i < n), Nat.testBit_succ]

/-- Bit i of a value is the i-th of the bits it was made from: the first bit read is bit 0 (R143). -/
theorem getElem?_eq_testBit_bitsVal {bits : List Bool} {i : Nat} (hi : i < bits.length) :
    bits[i]? = some ((bitsVal bits).testBit i) := by
  have h := fieldBits_getElem? hi (bitsVal bits)
  rwa [fieldBits_bitsVal] at h

/-- Settles O13: GetBits(n) answers the value of the first n unread bits and consumes exactly those. -/
theorem getBitsSpec : Obligations.GetBitsSpec := by
  intro n r
  refine ⟨getBits_eq_none, fun hn => ⟨_, _, getBits_eq_some hn, ?_, fun i hi => ?_, ?_, r.consume_unread n⟩⟩
  · simpa [hn] using bitsVal_lt (r.unread.take n)
  · have hi' : i < (r.unread.take n).length := by simpa [hn] using hi
    rw [← getElem?_eq_testBit_bitsVal hi', List.getElem?_take_of_lt hi]
  · rw [(r.consume_spec n).2.1, Nat.min_eq_left hn]

theorem alignByte_of_aligned {r : Reader} (h : r.brBit = 0) : r.alignByte = r := if_pos h

theorem alignByte_of_not_aligned {r : Reader} (h : r.brBit ≠ 0) :
    r.alignByte = { r with brBit := 0, brIndex := r.brIndex + 1, brHave := false } := if_neg h

theorem pos_of_aligned {r : Reader} (h : r.brBit = 0) : r.pos = 8 * r.brIndex := by simp [Reader.pos, h]

/-- AlignByte moves pos up to the next multiple of 8 (R145). -/
theorem alignByte_pos (r : Reader) : r.alignByte.pos = 8 * ((r.pos + 7) / 8) := by
  rw [pos_of_aligned r.alignByte_brBit]
  by_cases h : r.brBit = 0
  · rw [alignByte_of_aligned h, pos_of_aligned h]
    omega
  · have hpos : r.brBit.toNat ≠ 0 := fun hc => h (BitVec.eq_of_toNat_eq hc)
    have hlt := brBit_lt r.brBit
    rw [alignByte_of_not_aligned h]
    simp only [Reader.pos]
    omega

/-- A consistent reader's cursor is at most at the end of the input: no byte before br_index is untaken (R25). -/
theorem brIndex_le_length {r : Reader} (hr : r.Inv) : r.brIndex ≤ r.input.length := by
  have hcount := hr.count
  have hbound := hr.bound
  omega

/-- Settles O14: by the two cases of br_bit; the bound is the invariant of the aligned reader. -/
theorem alignByteSpec : Obligations.AlignByteSpec := by
  intro r
  refine ⟨alignByte_of_aligned, alignByte_of_not_aligned, alignByte_pos r, r.alignByte_alignByte, fun hr => ?_⟩
  simpa using brIndex_le_length (Reader.alignByte_inv hr)

end Sys2Proof.Proofs

/-! The block headers (42_block_control.md R191 to R196): what the HEADER step decodes and does. -/

namespace Sys2Proof.Proofs

open Sys2Proof.Machine
open Sys2Proof.Says

/-- A block header is BFINAL, then BTYPE low bit first (R191, R192). -/
theorem decode_header {c : Ctx} (hc : c.fmt = .bh) (f lo hi : Bool) (rest : List Bool) :
    decode c ([f, lo, hi] ++ rest) = .ok (blockOf f (lo.toNat + 2 * hi.toNat)) 3 := by
  have hf : (f.toNat == 1) = f := by cases f <;> rfl
  simp [decode, hc, decodeHeader, withField, fieldVal, hf]

/-- A change to a phase that is not terminal leaves busy at 1 and done at 0 (R39). -/
theorem goto_eq_entered {p : Phase} (hp : isTerminal p = false) (s : State) : s.goto p = entered p s := by
  have hdone : p ≠ .done := by rintro rfl; cases hp
  simp [State.goto, State.settle, State.busyValue, State.doneValue, entered, hp, hdone]

/-- The first fault writes err_code (60_exceptions.md R377). -/
theorem raise_eq_raised {s : State} (h : s.error = false) (k : ErrKind) : s.raise k = raised (errCodeOf k) s := by
  simp [State.raise, State.settle, State.busyValue, State.doneValue, isTerminal, raised, h]

section HeaderStep
variable {s : State} (hs : s.nextFormat = some .bh) (f : Bool)
include hs

/-- R193. -/
theorem exec_blockStored :
    exec (.blockStored f) s = .next (entered .storedLen { s with bfinal := f, btype := 0 }) := by
  calc exec (.blockStored f) s
      = .next ((s.openBlock f 0).goto .storedLen) := inFormat_of hs _
    _ = _ := congrArg _ (goto_eq_entered rfl _)

/-- R194: the two fixed tables are in force from here on. -/
theorem exec_blockFixed :
    exec (.blockFixed f) s =
      .next (entered .symbol { s with bfinal := f, btype := 1, tLL := fixedLL, tD := fixedD }) := by
  calc exec (.blockFixed f) s
      = .next (State.goto .symbol { s.openBlock f 1 with tLL := fixedLL, tD := fixedD }) := inFormat_of hs _
    _ = _ := congrArg _ (goto_eq_entered rfl _)

/-- R195. -/
theorem exec_blockDynamic :
    exec (.blockDynamic f) s = .next (entered .dynCounts { s with bfinal := f, btype := 2 }) := by
  calc exec (.blockDynamic f) s
      = .next ((s.openBlock f 2).goto .dynCounts) := inFormat_of hs _
    _ = _ := congrArg _ (goto_eq_entered rfl _)

/-- R196: the fault is WrongBlockType, code 2 (60_exceptions.md R371). -/
theorem exec_blockReserved :
    exec (.blockReserved f) s = .next (raised 2 { s with bfinal := f, btype := 3 }) := by
  have herr : (s.openBlock f 3).error = false := (nextFormat_some hs).1
  calc exec (.blockReserved f) s
      = .next ((s.openBlock f 3).raise .wrongBlockType) := inFormat_of hs _
    _ = _ := congrArg _ (raise_eq_raised herr _)

end HeaderStep

/-- Settles O18: the four bit patterns by `decode_header`, the four effects by the `exec` lemma of each header. -/
theorem blockHeaders : Obligations.BlockHeaders := by
  refine ⟨fun c f rest hc => ?_, fun s f hs => ?_⟩
  · exact ⟨decode_header hc f false false rest, decode_header hc f true false rest,
      decode_header hc f false true rest, decode_header hc f true true rest⟩
  · exact ⟨exec_blockStored hs f, exec_blockFixed hs f, exec_blockDynamic hs f, exec_blockReserved hs f⟩

end Sys2Proof.Proofs

/-! Symbol 256, EOB (44_symbols.md R253): how it is decoded and what it does. -/

namespace Sys2Proof.Proofs

open Sys2Proof.Machine
open Sys2Proof.Says

/-- In format LL a decoded symbol selects the element; its extra bits follow the code (R251). -/
theorem decode_ll_of_symbol {c : Ctx} {bits : List Bool} {v n : Nat} (hc : c.fmt = .ll)
    (h : huffDecode c.tLL bits = .symbol v n) : decode c bits = decodeLLRest (bits.drop n) v n := by
  simp [decode, hc, withSymbol, h]

/-- Symbol 256 is EOB, and no extra bits are read (R253). -/
theorem decode_eob {c : Ctx} {bits : List Bool} {n : Nat} (hc : c.fmt = .ll)
    (h : huffDecode c.tLL bits = .symbol 256 n) : decode c bits = .ok .eob n := by
  calc decode c bits = decodeLLRest (bits.drop n) 256 n := decode_ll_of_symbol hc h
    _ = .ok .eob n := rfl

/-- The fixed table gives symbol 256 the code of seven zero bits (41_huffman.md R167). -/
theorem huffDecode_fixed_eob (rest : List Bool) :
    huffDecode (lengthsOf fixedLL) (codeBits 7 0b0000000 ++ rest) = .symbol 256 7 := by
  have hcode : huffDecode (lengthsOf fixedLL) (codeBits 7 0b0000000) = .symbol 256 7 := by decide +kernel
  obtain ⟨-, -, -, hmore⟩ := huffDecode_symbol hcode rest
  exact hmore

/-- A change to DONE leaves busy and done to the output port: a byte may still wait to be taken (R39, R198). -/
theorem goto_done (s : State) : s.goto .done = { s with phase := .done, busy := s.outValid, done := !s.outValid } := by
  simp [State.goto, State.settle, State.busyValue, State.doneValue, isTerminal]

/-- EndOfBlock after the final block (42_block_control.md R197). -/
theorem endOfBlock_final {s : State} (h : s.bfinal = true) :
    s.endOfBlock = { s with phase := .done, busy := s.outValid, done := !s.outValid } := by
  simp [State.endOfBlock, h, goto_done]

/-- EndOfBlock where another block follows (42_block_control.md R197). -/
theorem endOfBlock_not_final {s : State} (h : s.bfinal = false) : s.endOfBlock = entered .header s := by
  simpa [State.endOfBlock, h] using goto_eq_entered rfl s

/-- The element EOB is EndOfBlock (R253). -/
theorem exec_eob {s : State} (hs : s.nextFormat = some .ll) : exec .eob s = .next s.endOfBlock := inFormat_of hs _

/-- Settles O27: symbol 256 by `decode_eob`, its fixed code by `huffDecode_fixed_eob`, its effect by the two cases of
bfinal in EndOfBlock. -/
theorem endOfBlockSymbol : Obligations.EndOfBlockSymbol := by
  refine ⟨fun c bits n => decode_eob, fun c rest hc ht => ?_, fun s hs => ⟨fun hf => ?_, fun hf => ?_⟩⟩
  · exact decode_eob hc (ht ▸ huffDecode_fixed_eob rest)
  · rw [exec_eob hs, endOfBlock_final hf]
  · rw [exec_eob hs, endOfBlock_not_final hf]

end Sys2Proof.Proofs

/-! BuildCode (41_huffman.md R162 to R165): the first codes in closed form, and the canonical code they give. -/

namespace Sys2Proof.Proofs

open Sys2Proof.Machine

theorem nextCode_succ {len : Nat} (h : 1 ≤ len) (L : List Nat) :
    nextCode L (len + 1) = 2 * (nextCode L len + blCount L len) := by
  obtain ⟨k, rfl⟩ : ∃ k, len = k + 1 := ⟨len - 1, by omega⟩
  rfl

/-- The summand of the closed form doubles with the length, and the newest length adds its own count. -/
theorem sum_blCount_succ (L : List Nat) (k : Nat) :
    ((List.range (k + 1)).map (fun i => blCount L (i + 1) * 2 ^ (k + 2 - (i + 1)))).sum =
      2 * (((List.range k).map (fun i => blCount L (i + 1) * 2 ^ (k + 1 - (i + 1)))).sum + blCount L (k + 1)) := by
  have hdouble : (List.range k).map (fun i => blCount L (i + 1) * 2 ^ (k + 2 - (i + 1))) =
      (List.range k).map (fun i => 2 * (blCount L (i + 1) * 2 ^ (k + 1 - (i + 1)))) := by
    refine List.map_congr_left fun i hi => ?_
    have hlt : i < k := List.mem_range.mp hi
    rw [show k + 2 - (i + 1) = k + 1 - (i + 1) + 1 by omega, Nat.pow_succ]
    ring
  rw [List.range_succ, List.map_append, List.sum_append, hdouble, List.sum_map_mul_left]
  simp [Nat.mul_add, Nat.mul_comm]

/-- Settles O6, by induction on the length along the recurrence of R162. -/
theorem nextCodeSum : Obligations.NextCodeSum := by
  intro L len hlen
  induction len, hlen using Nat.le_induction with
  | base => rfl
  | succ len hlen ih =>
    obtain ⟨k, rfl⟩ : ∃ k, len = k + 1 := ⟨len - 1, by omega⟩
    rw [nextCode_succ hlen, ih]
    exact (sum_blCount_succ L k).symm

/-- The codes used up to length k, each counted with the 15-bit words that begin with it, are the first k summands of K
(R163, R165). -/
theorem nextCode_add_blCount_mul {k : Nat} (hk : k < 15) (L : List Nat) :
    (nextCode L (k + 1) + blCount L (k + 1)) * 2 ^ (14 - k) =
      ∑ i ∈ Finset.range (k + 1), blCount L (i + 1) * 2 ^ (14 - i) := by
  induction k with
  | zero => simp [nextCode]
  | succ k ih =>
    rw [Finset.sum_range_succ, ← ih (by omega), nextCode_succ (by omega),
      show 14 - k = 14 - (k + 1) + 1 by omega, Nat.pow_succ]
    ring

theorem kraft_eq_sum (L : List Nat) : kraft L = ∑ i ∈ Finset.range 15, blCount L (i + 1) * 2 ^ (14 - i) := rfl

/-- Where BuildCode accepts the lengths, the codes of a length and of all shorter ones leave room for each other. -/
theorem nextCode_add_blCount_le {L : List Nat} (hK : kraft L ≤ 2 ^ 15) {len : Nat} (h1 : 1 ≤ len) (h15 : len ≤ 15) :
    nextCode L len + blCount L len ≤ 2 ^ len := by
  obtain ⟨k, rfl⟩ : ∃ k, len = k + 1 := ⟨len - 1, by omega⟩
  have hpart : (nextCode L (k + 1) + blCount L (k + 1)) * 2 ^ (14 - k) ≤ kraft L := by
    rw [nextCode_add_blCount_mul (by omega), kraft_eq_sum]
    exact Finset.sum_le_sum_of_subset (Finset.range_mono (by omega))
  have hpow : 2 ^ 15 = 2 ^ (k + 1) * 2 ^ (14 - k) := by rw [← Nat.pow_add]; congr 1; omega
  exact Nat.le_of_mul_le_mul_right (hpow ▸ hpart.trans hK) (by positivity)

/-- From one length to a longer one the first code grows by every code of the shorter length, extended. -/
theorem mul_le_nextCode (L : List Nat) {len : Nat} (h1 : 1 ≤ len) (d : Nat) :
    2 ^ (d + 1) * (nextCode L len + blCount L len) ≤ nextCode L (len + d + 1) := by
  induction d with
  | zero => exact (nextCode_succ h1 L).ge
  | succ d ih =>
    rw [show len + (d + 1) + 1 = (len + d + 1) + 1 by omega, nextCode_succ (by omega), Nat.pow_succ]
    nlinarith [Nat.zero_le (blCount L (len + d + 1))]

/-- The code of a symbol of length l (R162). -/
theorem codeOf_eq {L : List Nat} {s l : Nat} (h : L[s]? = some l) :
    codeOf L s = nextCode L l + blCount (L.take s) l := by
  simp [codeOf, List.getD, h]

/-- Later symbols of one length come after earlier ones (R163 (b)). -/
theorem blCount_take_lt {L : List Nat} {s l n : Nat} (h : L[s]? = some l) (hn : s < n) :
    blCount (L.take s) l < blCount (L.take n) l := by
  have hlt : s < (L.take n).length := by
    have := (List.getElem?_eq_some_iff.mp h).1
    simp; omega
  have hget : (L.take n)[s] = l := by
    simpa [List.getElem?_eq_getElem, List.getElem_take] using (List.getElem?_eq_some_iff.mp h).2
  have hsplit : L.take n = L.take s ++ l :: (L.take n).drop (s + 1) := by
    rw [← hget, ← List.drop_eq_getElem_cons hlt]
    conv_lhs => rw [← List.take_append_drop s (L.take n)]
    rw [List.take_take, Nat.min_eq_left hn.le]
  rw [hsplit]
  simp [blCount, List.countP_append]

theorem blCount_take_lt_blCount {L : List Nat} {s l : Nat} (h : L[s]? = some l) :
    blCount (L.take s) l < blCount L l := by
  simpa using blCount_take_lt h (List.getElem?_eq_some_iff.mp h).1

/-- Within one length a code has one symbol. -/
theorem codeOf_injective {L : List Nat} {s s' l : Nat} (h : L[s]? = some l) (h' : L[s']? = some l)
    (he : codeOf L s = codeOf L s') : s = s' := by
  rw [codeOf_eq h, codeOf_eq h'] at he
  rcases Nat.lt_trichotomy s s' with hlt | heq | hgt
  · have := blCount_take_lt h hlt; omega
  · exact heq
  · have := blCount_take_lt h' hgt; omega

/-- R163 (a): a code fits its length. -/
theorem codeOf_lt {L : List Nat} (hK : kraft L ≤ 2 ^ 15) (h15 : ∀ l ∈ L, l ≤ 15) {s l : Nat} (h : L[s]? = some l)
    (hl : 0 < l) : codeOf L s < 2 ^ l := by
  have hroom := nextCode_add_blCount_le hK hl (h15 l (List.mem_of_getElem? h))
  have hcount := blCount_take_lt_blCount h
  rw [codeOf_eq h]
  omega

/-- The codes of a longer length lie above every extension of a shorter code. -/
theorem codeOf_lt_div {L : List Nat} {s s' l l' : Nat} (h : L[s]? = some l) (h' : L[s']? = some l') (hl : 0 < l)
    (hlt : l < l') : codeOf L s < codeOf L s' / 2 ^ (l' - l) := by
  obtain ⟨d, rfl⟩ : ∃ d, l' = l + d + 1 := ⟨l' - l - 1, by omega⟩
  have hnext := mul_le_nextCode L hl d
  have hcount := blCount_take_lt_blCount h
  refine Nat.lt_of_succ_le ((Nat.le_div_iff_mul_le (by positivity)).mpr ?_)
  rw [codeOf_eq h, codeOf_eq h', show l + d + 1 - l = d + 1 by omega]
  calc (nextCode L l + blCount (L.take s) l + 1) * 2 ^ (d + 1)
      ≤ (nextCode L l + blCount L l) * 2 ^ (d + 1) := Nat.mul_le_mul_right _ (by omega)
    _ ≤ nextCode L (l + d + 1) := by rwa [Nat.mul_comm]
    _ ≤ nextCode L (l + d + 1) + blCount (L.take s') (l + d + 1) := Nat.le_add_right _ _

/-- The first bits of a code are the code without its last bits. -/
theorem codeBits_take {n k : Nat} (h : k ≤ n) (c : Nat) : (codeBits n c).take k = codeBits k (c / 2 ^ (n - k)) := by
  induction k generalizing n with
  | zero => rfl
  | succ k ih =>
    obtain ⟨m, rfl⟩ : ∃ m, n = m + 1 := ⟨n - 1, by omega⟩
    have hbit : (c / 2 ^ (m - k)).testBit k = c.testBit m := by
      rw [Nat.testBit_div_two_pow, Nat.add_sub_cancel' (by omega)]
    simp only [codeBits, List.take_succ_cons, ih (by omega : k ≤ m), Nat.add_sub_add_right, hbit]

/-- The number that the bits of a code spell (00_scope.md R9 (b)). -/
theorem foldl_codeBits (n acc c : Nat) :
    (codeBits n c).foldl (fun acc b => 2 * acc + b.toNat) acc = 2 ^ n * acc + c % 2 ^ n := by
  induction n generalizing acc with
  | zero => simp [codeBits, Nat.mod_one]
  | succ n ih =>
    simp only [codeBits, List.foldl_cons, ih, Nat.toNat_testBit, Nat.pow_succ 2 n, Nat.mod_mul]
    ring

/-- The bits of a code spell the code. -/
theorem msbVal_codeBits {n c : Nat} (h : c < 2 ^ n) : Says.msbVal (codeBits n c) = c := by
  simpa [Says.msbVal, Nat.mod_eq_of_lt h] using foldl_codeBits n 0 c

theorem msbVal_snoc (bits : List Bool) (b : Bool) : Says.msbVal (bits ++ [b]) = 2 * Says.msbVal bits + b.toNat := by
  simp [Says.msbVal]

theorem codeBits_snoc (n v : Nat) (b : Bool) : codeBits (n + 1) (2 * v + b.toNat) = codeBits n v ++ [b] := by
  induction n generalizing v with
  | zero => cases b <;> simp [codeBits]
  | succ n ih =>
    have htop : (2 * v + b.toNat).testBit (n + 1) = v.testBit n := by
      rw [Nat.testBit_succ]
      congr 1
      cases b <;> simp; omega
    rw [codeBits, ih, htop]
    rfl

/-- A bit string is the code of the number it spells. -/
theorem codeBits_msbVal {bits : List Bool} {n : Nat} (h : bits.length = n) : codeBits n (Says.msbVal bits) = bits := by
  subst h
  induction bits using List.reverseRecOn with
  | nil => rfl
  | append_singleton bits b ih => rw [msbVal_snoc, List.length_append, List.length_singleton, codeBits_snoc, ih]

/-- R163 (c): no code begins with another symbol's code. -/
theorem codeBits_take_ne {L : List Nat} (hK : kraft L ≤ 2 ^ 15) (h15 : ∀ l ∈ L, l ≤ 15) {s s' l l' : Nat}
    (h : L[s]? = some l) (h' : L[s']? = some l') (hl : 0 < l) (hle : l ≤ l') (hne : s ≠ s') :
    (codeBits l' (codeOf L s')).take l ≠ codeBits l (codeOf L s) := by
  intro heq
  have hfit : codeOf L s' / 2 ^ (l' - l) < 2 ^ l := by
    rw [Nat.div_lt_iff_lt_mul (by positivity), ← Nat.pow_add, Nat.add_sub_cancel' hle]
    exact codeOf_lt hK h15 h' (by omega)
  have hcode : codeOf L s' / 2 ^ (l' - l) = codeOf L s := by
    rw [← msbVal_codeBits hfit, ← codeBits_take hle, heq, msbVal_codeBits (codeOf_lt hK h15 h hl)]
  rcases hle.lt_or_eq with hlt | rfl
  · exact absurd hcode (codeOf_lt_div h h' hl hlt).ne'
  · refine hne (codeOf_injective h h' ?_)
    simpa using hcode.symm

/-- Settles O5: (a) by `codeOf_lt`, (b) by `codeOf_eq`, (c) by `codeBits_take_ne`. -/
theorem canonicalCode : Obligations.CanonicalCode :=
  fun _ hK h15 => ⟨fun _ _ h hl => codeOf_lt hK h15 h hl, fun _ _ h _ => codeOf_eq h,
    fun _ _ _ _ h h' hl hle hne => codeBits_take_ne hK h15 h h' hl hle hne⟩

/-! ### HuffDecode (41_huffman.md R170, R171) -/

open Sys2Proof.Says (spells msbVal)

/-- The lookup of R170 after `n` bits: it finds the symbol whose code they are. -/
theorem findCode_iff_spells {L : List Nat} {bits : List Bool} {n s : Nat} :
    findCode n (msbVal (bits.take n)) 0 (nextCode L n) L = some s ↔ spells L bits n s := by
  rw [findCode_iff, spells, eq_comm (a := codeOf L s)]

/-- The lookup of R170 finds nothing exactly when the bits are no code. -/
theorem findCode_eq_none_iff {L : List Nat} {bits : List Bool} {n : Nat} :
    findCode n (msbVal (bits.take n)) 0 (nextCode L n) L = none ↔ ∀ s, ¬ spells L bits n s := by
  simp [Option.eq_none_iff_forall_ne_some, findCode_iff_spells]

/-- What an answer of HuffDecode says of the bits, `len` of which were read before (R170). -/
def Answers (L : List Nat) (bits : List Bool) (len fuel : Nat) : HuffResult → Prop
  | .symbol s n => len < n ∧ n ≤ bits.length ∧ spells L bits n s ∧ ∀ m s', len < m → m < n → ¬ spells L bits m s'
  | .absent n => n = len + fuel ∧ n ≤ bits.length ∧ ∀ m s', len < m → m ≤ n → ¬ spells L bits m s'
  | .short => bits.length < len + fuel ∧ ∀ m s', len < m → m ≤ bits.length → ¬ spells L bits m s'

/-- The walk of R170, by induction on the lengths left. -/
theorem huffWalk_answers (L : List Nat) (fuel : Nat) (before rest : List Bool) :
    Answers L (before ++ rest) before.length fuel (huffWalk L fuel before.length (msbVal before) rest) := by
  induction fuel generalizing before rest with
  | zero => exact ⟨rfl, by simp, fun m s' h1 h2 => by omega⟩
  | succ fuel ih =>
    cases rest with
    | nil => exact ⟨by simp, fun m s' h1 h2 => by simp at h2; omega⟩
    | cons b rest =>
      have hbits : before ++ b :: rest = (before ++ [b]) ++ rest := by simp
      have htake : (before ++ b :: rest).take (before.length + 1) = before ++ [b] := by
        rw [hbits]; exact List.take_left' (by simp)
      rw [huffWalk, ← msbVal_snoc, ← htake]
      cases hfind : findCode (before.length + 1) (msbVal ((before ++ b :: rest).take (before.length + 1))) 0
          (nextCode L (before.length + 1)) L with
      | some s => exact ⟨by omega, by simp, findCode_iff_spells.mp hfind, fun m s' h1 h2 => by omega⟩
      | none =>
        have hnone := findCode_eq_none_iff.mp hfind
        have hrest := ih (before ++ [b]) rest
        rw [← hbits, List.length_append, List.length_singleton] at hrest
        simp only [htake]
        cases hw : huffWalk L fuel (before.length + 1) (msbVal (before ++ [b])) rest <;> rw [hw] at hrest
        case symbol s n =>
          obtain ⟨h1, h2, h3, h4⟩ := hrest
          refine ⟨by omega, h2, h3, fun m s' hm hn => ?_⟩
          rcases Nat.eq_or_lt_of_le hm with rfl | hm
          exacts [hnone s', h4 m s' hm hn]
        case absent n =>
          obtain ⟨h1, h2, h3⟩ := hrest
          refine ⟨by omega, h2, fun m s' hm hn => ?_⟩
          rcases Nat.eq_or_lt_of_le hm with rfl | hm
          exacts [hnone s', h3 m s' hm hn]
        case short =>
          obtain ⟨h1, h2⟩ := hrest
          refine ⟨by omega, fun m s' hm hn => ?_⟩
          rcases Nat.eq_or_lt_of_le hm with rfl | hm
          exacts [hnone s', h2 m s' hm hn]

theorem huffDecode_answers (L : List Nat) (bits : List Bool) :
    Answers L bits 0 (maxLen L) (huffDecode L bits) := huffWalk_answers L (maxLen L) [] bits

theorem le_maxLen {L : List Nat} {l : Nat} (h : l ∈ L) : l ≤ maxLen L := by
  induction L with
  | nil => simp at h
  | cons a L ih =>
    simp only [maxLen, List.foldr_cons]
    rcases List.mem_cons.mp h with rfl | h
    · exact Nat.le_max_left _ _
    · exact (ih h).trans (Nat.le_max_right _ _)

theorem spells_le_maxLen {L : List Nat} {bits : List Bool} {n s : Nat} (h : spells L bits n s) : n ≤ maxLen L :=
  le_maxLen (List.mem_of_getElem? h.1)

theorem spells_unique {L : List Nat} {bits : List Bool} {n s s' : Nat} (h : spells L bits n s)
    (h' : spells L bits n s') : s = s' :=
  codeOf_injective h.1 h'.1 (h.2.symm.trans h'.2)

/-- HuffDecode answers a symbol exactly where the first code the bits spell is its code. -/
theorem huffDecode_eq_symbol_iff {L : List Nat} {bits : List Bool} {s n : Nat} :
    huffDecode L bits = .symbol s n ↔
      0 < n ∧ n ≤ bits.length ∧ spells L bits n s ∧ ∀ m s', 0 < m → m < n → ¬ spells L bits m s' := by
  have answers := huffDecode_answers L bits
  refine ⟨fun h => by rwa [h] at answers, fun ⟨hpos, hlen, hs, hfirst⟩ => ?_⟩
  cases h : huffDecode L bits <;> rw [h] at answers
  case symbol s' n' =>
    obtain ⟨hpos', -, hs', hfirst'⟩ := answers
    obtain hlt | rfl | hgt := Nat.lt_trichotomy n n'
    · exact absurd hs (hfirst' n s hpos hlt)
    · rw [spells_unique hs hs']
    · exact absurd hs' (hfirst n' s' hpos' hgt)
  case absent m =>
    obtain ⟨hm, -, hnone⟩ := answers
    exact absurd hs (hnone n s hpos (by have := spells_le_maxLen hs; omega))
  case short => exact absurd hs (answers.2 n s hpos hlen)

/-- HuffDecode finds no code exactly where maxlen(T) bits are there and none of their beginnings is a code. -/
theorem huffDecode_eq_absent_iff {L : List Nat} {bits : List Bool} {n : Nat} :
    huffDecode L bits = .absent n ↔
      n = maxLen L ∧ maxLen L ≤ bits.length ∧ ∀ m s', 0 < m → m ≤ maxLen L → ¬ spells L bits m s' := by
  have answers := huffDecode_answers L bits
  constructor
  · intro h
    rw [h] at answers
    obtain ⟨hn, hlen, hnone⟩ := answers
    obtain rfl : n = maxLen L := by omega
    exact ⟨rfl, hlen, hnone⟩
  · rintro ⟨rfl, hlen, hnone⟩
    cases h : huffDecode L bits <;> rw [h] at answers
    case symbol s n => exact absurd answers.2.2.1 (hnone n s answers.1 (spells_le_maxLen answers.2.2.1))
    case absent m => rw [answers.1, Nat.zero_add]
    case short => exact absurd answers.1 (by omega)

/-- The bits end inside a code exactly where fewer than maxlen(T) are there and none of their beginnings is a code. -/
theorem huffDecode_eq_short_iff {L : List Nat} {bits : List Bool} :
    huffDecode L bits = .short ↔
      bits.length < maxLen L ∧ ∀ m s', 0 < m → m ≤ bits.length → ¬ spells L bits m s' := by
  have answers := huffDecode_answers L bits
  refine ⟨fun h => ?_, fun ⟨hlen, hnone⟩ => ?_⟩
  · rw [h] at answers
    exact ⟨by simpa using answers.1, answers.2⟩
  · cases h : huffDecode L bits <;> rw [h] at answers
    case symbol s n => exact absurd answers.2.2.1 (hnone n s answers.1 answers.2.1)
    case absent m => exact absurd answers.2.1 (by have := answers.1; omega)

/-- Settles O9: one `iff` for each answer, from what the walk says of the bits. -/
theorem huffDecodeSpec : Obligations.HuffDecodeSpec :=
  fun _ _ _ _ => ⟨fun _ _ => huffDecode_eq_symbol_iff, fun _ => huffDecode_eq_absent_iff, huffDecode_eq_short_iff⟩

/-- A symbol that has a code has a positive length, and its code is that of R162. -/
theorem encodeSymbol_some {L : List Nat} {s : Nat} {code : List Bool} (h : encodeSymbol L s = some code) :
    ∃ l, L[s]? = some l ∧ 0 < l ∧ code = codeBits l (codeOf L s) := by
  unfold encodeSymbol at h
  split at h
  · cases h
  · rename_i hpos
    injection h with h
    refine ⟨L.getD s 0, ?_, Nat.pos_of_ne_zero hpos, h.symm⟩
    cases hs : L[s]? <;> simp_all [List.getD]

/-- A symbol with a code is decoded from its code, whatever follows: no shorter code is at the front (R163 (c)). -/
theorem huffDecode_encodeSymbol {L : List Nat} (hK : kraft L ≤ 2 ^ 15) (h15 : ∀ l ∈ L, l ≤ 15) {s : Nat}
    {code : List Bool} (h : encodeSymbol L s = some code) (rest : List Bool) :
    huffDecode L (code ++ rest) = .symbol s code.length := by
  obtain ⟨l, hget, hl, rfl⟩ := encodeSymbol_some h
  have hspell : msbVal (codeBits l (codeOf L s)) = codeOf L s := msbVal_codeBits (codeOf_lt hK h15 hget hl)
  rw [codeBits_length]
  refine huffDecode_eq_symbol_iff.mpr ⟨hl, by simp, ⟨hget, ?_⟩, fun m s' hm hlt ⟨hget', hval⟩ => ?_⟩
  · rw [List.take_left' (codeBits_length l _), hspell]
  · have hne : s' ≠ s := by
      rintro rfl
      have : m = l := Option.some.inj (hget'.symm.trans hget)
      omega
    have hlen : ((codeBits l (codeOf L s)).take m).length = m := by simp; omega
    rw [List.take_append_of_le_length (by simp; omega)] at hval
    refine codeBits_take_ne hK h15 hget' hget hm hlt.le hne ?_
    rw [← hval, codeBits_msbVal hlen]

/-- The bits a symbol was decoded from are its code. -/
theorem encodeSymbol_of_huffDecode {L : List Nat} {bits : List Bool} {s n : Nat}
    (h : huffDecode L bits = .symbol s n) : n ≤ bits.length ∧ encodeSymbol L s = some (bits.take n) := by
  obtain ⟨hpos, hlen, ⟨hget, hval⟩, -⟩ := huffDecode_eq_symbol_iff.mp h
  have hgetD : L.getD s 0 = n := by simp [List.getD, hget]
  refine ⟨hlen, ?_⟩
  rw [encodeSymbol, hgetD, if_neg hpos.ne', ← hval, codeBits_msbVal (List.length_take_of_le hlen)]

end Sys2Proof.Proofs

/-! Decoding and encoding (30_encoding.md): what the decoder reads is what the encoder writes. -/

namespace Sys2Proof.Proofs

open Sys2Proof.Machine

/-! ### One field, one symbol -/

theorem withField_fieldBits {n v : Nat} (h : v < 2 ^ n) (rest : List Bool) (k : Nat → Decoded) :
    withField n (fieldBits n v ++ rest) k = k v := by
  simp [withField, fieldVal_fieldBits h]

theorem drop_fieldBits (n v : Nat) (rest : List Bool) : (fieldBits n v ++ rest).drop n = rest :=
  List.drop_left' (fieldBits_length n v)

/-- Where a field is read, its bits are there, and they are the encoding of its value. -/
theorem withField_eq_ok {n m : Nat} {bits : List Bool} {k : Nat → Decoded} {i : Instr}
    (h : withField n bits k = .ok i m) :
    ∃ v, k v = .ok i m ∧ v < 2 ^ n ∧ n ≤ bits.length ∧ bits.take n = fieldBits n v := by
  unfold withField at h
  split at h
  · cases h
  · rename_i v hv
    obtain ⟨rfl, hlt, hlen⟩ := fieldVal_some hv
    refine ⟨_, h, hlt, hlen, ?_⟩
    have := fieldBits_bitsVal (bits.take n)
    rwa [List.length_take_of_le hlen, eq_comm] at this

theorem withSymbol_of {L : List Nat} {bits : List Bool} {s n : Nat} (h : huffDecode L bits = .symbol s n)
    (k : Nat → Nat → Decoded) : withSymbol L bits k = k s n := by
  simp [withSymbol, h]

theorem withSymbol_eq_ok {L : List Nat} {bits : List Bool} {k : Nat → Nat → Decoded} {i : Instr} {m : Nat}
    (h : withSymbol L bits k = .ok i m) : ∃ s n, huffDecode L bits = .symbol s n ∧ k s n = .ok i m := by
  unfold withSymbol at h
  split at h
  · exact ⟨_, _, ‹_›, h⟩
  · cases h
  · cases h

/-! ### What follows a symbol, one equation for each element (R105 to R107) -/

theorem decode_cls_of_symbol {c : Ctx} {bits : List Bool} {s n : Nat} (hc : c.fmt = .cls)
    (h : huffDecode c.tCL bits = .symbol s n) : decode c bits = decodeClsRest c.hasPrev (bits.drop n) s n := by
  simp only [decode, hc, withSymbol_of h]

theorem decode_d_of_symbol {c : Ctx} {bits : List Bool} {s n : Nat} (hc : c.fmt = .d)
    (h : huffDecode c.tD bits = .symbol s n) : decode c bits = decodeDistRest (bits.drop n) s n := by
  simp only [decode, hc, withSymbol_of h]

theorem decodeClsRest_clLen {s : Nat} (h : s ≤ 15) (p : Bool) (rest : List Bool) (n : Nat) :
    decodeClsRest p rest s n = .ok (.clLen (BitVec.ofNat 4 s)) n := if_pos h

theorem decodeClsRest_clRep (rest : List Bool) (n : Nat) :
    decodeClsRest true rest 16 n = withField 2 rest fun v => .ok (.clRep (BitVec.ofNat 8 (v + 3))) (n + 2) := rfl

theorem decodeClsRest_noPrevious (rest : List Bool) (n : Nat) :
    decodeClsRest false rest 16 n = .reject .noPreviousLength n := rfl

theorem decodeClsRest_clZero3 (p : Bool) (rest : List Bool) (n : Nat) :
    decodeClsRest p rest 17 n = withField 3 rest fun v => .ok (.clZero3 (BitVec.ofNat 8 (v + 3))) (n + 3) := rfl

theorem decodeClsRest_clZero11 (p : Bool) (rest : List Bool) (n : Nat) :
    decodeClsRest p rest 18 n = withField 7 rest fun v => .ok (.clZero11 (BitVec.ofNat 8 (v + 11))) (n + 7) := rfl

theorem decodeClsRest_wrong {s : Nat} (h : 18 < s) (p : Bool) (rest : List Bool) (n : Nat) :
    decodeClsRest p rest s n = .reject .wrongSymbol n := by
  rw [decodeClsRest, if_neg (by omega), if_neg (by omega), if_neg (by omega), if_neg (by omega)]

theorem decodeLLRest_lit {s : Nat} (h : s ≤ 255) (rest : List Bool) (n : Nat) :
    decodeLLRest rest s n = .ok (.lit (BitVec.ofNat 8 s)) n := if_pos h

theorem decodeLLRest_length {s : Nat} {mk : BitVec 5 → Instr} (h : 257 ≤ s) (hmk : lenCtors[s - 257]? = some mk)
    (rest : List Bool) (n : Nat) :
    decodeLLRest rest s n = withField (lenExtra s) rest fun x => .ok (mk (BitVec.ofNat 5 x)) (n + lenExtra s) := by
  rw [decodeLLRest, if_neg (by omega), if_neg (by omega), hmk]

theorem decodeLLRest_invalid {s : Nat} (h : s = 286 ∨ s = 287) (rest : List Bool) (n : Nat) :
    decodeLLRest rest s n = .ok (.llInvalid (BitVec.ofNat 9 s)) n := by
  obtain rfl | rfl := h <;> rfl

theorem decodeDistRest_distance {s : Nat} {mk : BitVec 13 → Instr} (hmk : distCtors[s]? = some mk)
    (rest : List Bool) (n : Nat) :
    decodeDistRest rest s n = withField (distExtra s) rest fun y => .ok (mk (BitVec.ofNat 13 y)) (n + distExtra s) := by
  rw [decodeDistRest, hmk]

theorem decodeDistRest_invalid {s : Nat} (h : s = 30 ∨ s = 31) (rest : List Bool) (n : Nat) :
    decodeDistRest rest s n = .ok (.distInvalid (BitVec.ofNat 5 s)) n := by
  obtain rfl | rfl := h <;> rfl

/-! ### The encoder's bits decode to the element -/

/-- An element with a code is its code, then its fields. -/
theorem encode_some {c : Ctx} {i : Instr} {bits : List Bool} (h : encode c i = some bits) :
    ∃ code, encodeCode c i = some code ∧ bits = code ++ encodeFields i.fields := by
  obtain ⟨code, hcode, rfl⟩ := Option.map_eq_some_iff.mp h
  exact ⟨code, hcode, rfl⟩

theorem decode_storedHdr {c : Ctx} (hc : c.fmt = .stHdr) (len nlen : BitVec 16) (rest : List Bool) :
    decode c (fieldBits 16 len.toNat ++ (fieldBits 16 nlen.toNat ++ rest)) = .ok (.storedHdr len nlen) 32 := by
  simp only [decode, hc, decodeStoredHdr, withField_fieldBits len.isLt, drop_fieldBits, withField_fieldBits nlen.isLt,
    BitVec.ofNat_toNat, BitVec.setWidth_eq]

theorem decode_storedByte {c : Ctx} (hc : c.fmt = .stData) (b : Byte) (rest : List Bool) :
    decode c (fieldBits 8 b.toNat ++ rest) = .ok (.storedByte b) 8 := by
  simp only [decode, hc, decodeStoredByte, withField_fieldBits b.isLt, BitVec.ofNat_toNat, BitVec.setWidth_eq]

theorem decode_dynCounts {c : Ctx} (hc : c.fmt = .dhCounts) {l d n : Nat} (hl : l < 2 ^ 5) (hd : d < 2 ^ 5)
    (hn : n < 2 ^ 4) (rest : List Bool) :
    decode c (fieldBits 5 l ++ (fieldBits 5 d ++ (fieldBits 4 n ++ rest))) =
      .ok (.dynCounts (BitVec.ofNat 9 (l + 257)) (BitVec.ofNat 6 (d + 1)) (BitVec.ofNat 5 (n + 4))) 14 := by
  have hdrop : (fieldBits 5 l ++ (fieldBits 5 d ++ (fieldBits 4 n ++ rest))).drop 10 = fieldBits 4 n ++ rest := by
    rw [show 10 = 5 + 5 from rfl, ← List.drop_drop, drop_fieldBits, drop_fieldBits]
  simp only [decode, hc, decodeCounts, withField_fieldBits hl, drop_fieldBits, withField_fieldBits hd, hdrop,
    withField_fieldBits hn]

theorem decode_cllen {c : Ctx} (hc : c.fmt = .dhCllen) (v : BitVec 3) (rest : List Bool) :
    decode c (fieldBits 3 v.toNat ++ rest) = .ok (.cllen v) 3 := by
  simp only [decode, hc, decodeCllen, withField_fieldBits v.isLt, BitVec.ofNat_toNat, BitVec.setWidth_eq]

/-- A literal/length symbol's code, then what follows it. -/
theorem decode_ll_of_encodeSymbol {c : Ctx} (hc : c.fmt = .ll) (hK : buildable c.tLL = true)
    (h15 : ∀ l ∈ c.tLL, l ≤ 15) {s : Nat} {code : List Bool} (h : encodeSymbol c.tLL s = some code)
    (rest : List Bool) : decode c (code ++ rest) = decodeLLRest rest s code.length := by
  rw [decode_ll_of_symbol hc (huffDecode_encodeSymbol (of_decide_eq_true hK) h15 h rest), List.drop_left' rfl]

/-- A distance symbol's code, then what follows it. -/
theorem decode_d_of_encodeSymbol {c : Ctx} (hc : c.fmt = .d) (hK : buildable c.tD = true)
    (h15 : ∀ l ∈ c.tD, l ≤ 15) {s : Nat} {code : List Bool} (h : encodeSymbol c.tD s = some code)
    (rest : List Bool) : decode c (code ++ rest) = decodeDistRest rest s code.length := by
  rw [decode_d_of_symbol hc (huffDecode_encodeSymbol (of_decide_eq_true hK) h15 h rest), List.drop_left' rfl]

/-- A code-length symbol's code, then what follows it. -/
theorem decode_cls_of_encodeSymbol {c : Ctx} (hc : c.fmt = .cls) (hK : buildable c.tCL = true)
    (h15 : ∀ l ∈ c.tCL, l ≤ 15) {s : Nat} {code : List Bool} (h : encodeSymbol c.tCL s = some code)
    (rest : List Bool) : decode c (code ++ rest) = decodeClsRest c.hasPrev rest s code.length := by
  rw [decode_cls_of_symbol hc (huffDecode_encodeSymbol (of_decide_eq_true hK) h15 h rest), List.drop_left' rfl]

/-- The code in front of an element of each Huffman format (R105 to R107). -/
theorem encodeCode_of {c : Ctx} {i : Instr} :
    (i.format = .cls → encodeCode c i = encodeSymbol c.tCL i.selector) ∧
      (i.format = .ll → encodeCode c i = encodeSymbol c.tLL i.selector) ∧
      (i.format = .d → encodeCode c i = encodeSymbol c.tD i.selector) := by
  refine ⟨fun h => ?_, fun h => ?_, fun h => ?_⟩ <;> simp only [encodeCode, h]

theorem ofNat_sub_add {w k : Nat} {r : BitVec w} (h : k ≤ r.toNat) : BitVec.ofNat w (r.toNat - k + k) = r := by
  rw [Nat.sub_add_cancel h, BitVec.ofNat_toNat, BitVec.setWidth_eq]

section Encoded
variable {c : Ctx} {code : List Bool} (rest : List Bool)

/-- A code-length element from its code and its extra bits. -/
theorem decode_clRep {r : BitVec 8} (hc : c.fmt = .cls) (hK : buildable c.tCL = true) (h15 : ∀ l ∈ c.tCL, l ≤ 15)
    (hprev : c.hasPrev = true) (hwf : (Instr.clRep r).wellFormed = true) (h : encodeSymbol c.tCL 16 = some code) :
    decode c (code ++ (fieldBits 2 (r.toNat - 3) ++ rest)) = .ok (.clRep r) (code.length + 2) := by
  obtain ⟨hlo, hhi⟩ := Laws.SelectsRow.range_of hwf
  rw [decode_cls_of_encodeSymbol hc hK h15 h, hprev, decodeClsRest_clRep, withField_fieldBits (by omega),
    ofNat_sub_add hlo]

theorem decode_clZero3 {r : BitVec 8} (hc : c.fmt = .cls) (hK : buildable c.tCL = true) (h15 : ∀ l ∈ c.tCL, l ≤ 15)
    (hwf : (Instr.clZero3 r).wellFormed = true) (h : encodeSymbol c.tCL 17 = some code) :
    decode c (code ++ (fieldBits 3 (r.toNat - 3) ++ rest)) = .ok (.clZero3 r) (code.length + 3) := by
  obtain ⟨hlo, hhi⟩ := Laws.SelectsRow.range_of hwf
  rw [decode_cls_of_encodeSymbol hc hK h15 h, decodeClsRest_clZero3, withField_fieldBits (by omega), ofNat_sub_add hlo]

theorem decode_clZero11 {r : BitVec 8} (hc : c.fmt = .cls) (hK : buildable c.tCL = true) (h15 : ∀ l ∈ c.tCL, l ≤ 15)
    (hwf : (Instr.clZero11 r).wellFormed = true) (h : encodeSymbol c.tCL 18 = some code) :
    decode c (code ++ (fieldBits 7 (r.toNat - 11) ++ rest)) = .ok (.clZero11 r) (code.length + 7) := by
  obtain ⟨hlo, hhi⟩ := Laws.SelectsRow.range_of hwf
  rw [decode_cls_of_encodeSymbol hc hK h15 h, decodeClsRest_clZero11, withField_fieldBits (by omega), ofNat_sub_add hlo]

/-- A length element from its code and its extra bits. -/
theorem decode_length {sym : Nat} {mk : BitVec 5 → Instr} {x : BitVec 5} (hc : c.fmt = .ll)
    (hK : buildable c.tLL = true) (h15 : ∀ l ∈ c.tLL, l ≤ 15) (hlo : 257 ≤ sym) (hmk : lenCtors[sym - 257]? = some mk)
    (hx : x.toNat < 2 ^ lenExtra sym) (h : encodeSymbol c.tLL sym = some code) :
    decode c (code ++ (fieldBits (lenExtra sym) x.toNat ++ rest)) = .ok (mk x) (code.length + lenExtra sym) := by
  rw [decode_ll_of_encodeSymbol hc hK h15 h, decodeLLRest_length hlo hmk, withField_fieldBits hx, BitVec.ofNat_toNat,
    BitVec.setWidth_eq]

/-- A distance element from its code and its extra bits. -/
theorem decode_distance {d : Nat} {mk : BitVec 13 → Instr} {y : BitVec 13} (hc : c.fmt = .d)
    (hK : buildable c.tD = true) (h15 : ∀ l ∈ c.tD, l ≤ 15) (hmk : distCtors[d]? = some mk)
    (hy : y.toNat < 2 ^ distExtra d) (h : encodeSymbol c.tD d = some code) :
    decode c (code ++ (fieldBits (distExtra d) y.toNat ++ rest)) = .ok (mk y) (code.length + distExtra d) := by
  rw [decode_d_of_encodeSymbol hc hK h15 h, decodeDistRest_distance hmk, withField_fieldBits hy, BitVec.ofNat_toNat,
    BitVec.setWidth_eq]

end Encoded

/-- A number in a two-element range is one of the two. -/
theorem eq_or_eq_of_range {a v : Nat} (h : inRange a (a + 1) v = true) : v = a ∨ v = a + 1 := by
  have := Laws.SelectsRow.range_of h
  omega

/-- Settles O2: a plain format by reading its fields back, a Huffman format by decoding its code and then its extra
bits. -/
theorem decodeOfEncode : Obligations.DecodeOfEncode := by
  intro c i bits rest hwf hfmt hCL hLL hD hCL15 hLL15 hD15 hprev henc
  obtain ⟨code, hcode, rfl⟩ := encode_some henc
  rw [List.append_assoc]
  replace hfmt := hfmt.symm
  induction i using Instr.byShape
  case blockStored f => cases hcode; cases f <;> exact decode_header hfmt _ false false rest
  case blockFixed f => cases hcode; cases f <;> exact decode_header hfmt _ true false rest
  case blockDynamic f => cases hcode; cases f <;> exact decode_header hfmt _ false true rest
  case blockReserved f => cases hcode; cases f <;> exact decode_header hfmt _ true true rest
  case storedHdr len nlen =>
    cases hcode
    simpa [Instr.fields, encodeFields] using decode_storedHdr hfmt len nlen rest
  case storedByte b =>
    cases hcode
    simpa [Instr.fields, encodeFields] using decode_storedByte hfmt b rest
  case dynCounts hlit hdist hclen =>
    cases hcode
    obtain ⟨h12, h3⟩ := Laws.SelectsRow.and_of hwf
    obtain ⟨h1, h2⟩ := Laws.SelectsRow.and_of h12
    have h1 := Laws.SelectsRow.range_of h1
    have h2 := Laws.SelectsRow.range_of h2
    have h3 := Laws.SelectsRow.range_of h3
    have hdec := decode_dynCounts hfmt (l := hlit.toNat - 257) (d := hdist.toNat - 1) (n := hclen.toNat - 4) (by omega)
      (by omega) (by omega) rest
    rw [ofNat_sub_add h1.1, ofNat_sub_add h2.1, ofNat_sub_add h3.1] at hdec
    simpa [Instr.fields, encodeFields] using hdec
  case cllen v =>
    cases hcode
    simpa [Instr.fields, encodeFields] using decode_cllen hfmt v rest
  case clLen n =>
    rw [decode_cls_of_encodeSymbol hfmt hCL hCL15 hcode,
      decodeClsRest_clLen (Nat.le_of_lt_succ n.isLt : (Instr.clLen n).selector ≤ 15)]
    simp [Instr.selector, Instr.fields, encodeFields]
  case clRep r => simpa [Instr.fields, encodeFields] using decode_clRep rest hfmt hCL hCL15 (hprev ⟨r, rfl⟩) hwf hcode
  case clZero3 r => simpa [Instr.fields, encodeFields] using decode_clZero3 rest hfmt hCL hCL15 hwf hcode
  case clZero11 r => simpa [Instr.fields, encodeFields] using decode_clZero11 rest hfmt hCL hCL15 hwf hcode
  case lit b =>
    rw [decode_ll_of_encodeSymbol hfmt hLL hLL15 hcode,
      decodeLLRest_lit (Nat.le_of_lt_succ b.isLt : (Instr.lit b).selector ≤ 255)]
    simp [Instr.selector, Instr.fields, encodeFields]
  case eob =>
    rw [decode_ll_of_encodeSymbol hfmt hLL hLL15 hcode]
    simp [Instr.selector, Instr.fields, encodeFields, decodeLLRest]
  case llInvalid s =>
    rw [decode_ll_of_encodeSymbol hfmt hLL hLL15 hcode, decodeLLRest_invalid (s := (Instr.llInvalid s).selector)
      (eq_or_eq_of_range hwf)]
    simp [Instr.selector, Instr.fields, encodeFields]
  case distInvalid s =>
    rw [decode_d_of_encodeSymbol hfmt hD hD15 hcode, decodeDistRest_invalid (s := (Instr.distInvalid s).selector)
      (eq_or_eq_of_range hwf)]
    simp [Instr.selector, Instr.fields, encodeFields]
  case length i sym x hi =>
    obtain ⟨mk, hmk, rfl⟩ := hi.made
    rw [encodeCode_of.2.1 hi.format, hi.selector] at hcode
    rw [hi.fields]
    simpa [encodeFields] using
      decode_length rest (hi.format ▸ hfmt) hLL hLL15 hi.lo hmk (of_decide_eq_true (hi.wellFormed ▸ hwf)) hcode
  case distance i d y hi =>
    obtain ⟨mk, hmk, rfl⟩ := hi.made
    rw [encodeCode_of.2.2 hi.format, hi.selector] at hcode
    rw [hi.fields]
    simpa [encodeFields] using
      decode_distance rest (hi.format ▸ hfmt) hD hD15 hmk (of_decide_eq_true (hi.wellFormed ▸ hwf)) hcode

/-! ### The element's encoding is the bits it was read from -/

/-- The element i is in order, and the first n bits are its encoding. -/
def EncodesFront (c : Ctx) (bits : List Bool) (i : Instr) (n : Nat) : Prop :=
  i.wellFormed = true ∧ i.format = c.fmt ∧ n ≤ bits.length ∧ encode c i = some (bits.take n)

/-- An element whose code is the first n bits and whose fields are the m bits after them. -/
theorem encode_eq_take {c : Ctx} {i : Instr} {bits : List Bool} {n m : Nat}
    (hcode : encodeCode c i = some (bits.take n)) (hfields : encodeFields i.fields = (bits.drop n).take m) :
    encode c i = some (bits.take (n + m)) := by
  rw [encode, hcode, Option.map_some, hfields, ← List.take_add]

/-- The fields of an element with one field, where they were read. -/
theorem encodeFields_eq_take {fields : List (Nat × Nat)} {bits : List Bool} {m v : Nat} (hf : fields = [(m, v)])
    (hv : bits.take m = fieldBits m v) : encodeFields fields = bits.take m := by
  rw [hf, hv]
  simp [encodeFields]

theorem toNat_ofNat_of_lt {w v : Nat} (h : v < 2 ^ w) : (BitVec.ofNat w v).toNat = v := by
  rw [BitVec.toNat_ofNat, Nat.mod_eq_of_lt h]

theorem decodeHeader_encodes {c : Ctx} {bits : List Bool} {i : Instr} {n : Nat} (hc : c.fmt = .bh)
    (h : decodeHeader bits = .ok i n) : EncodesFront c bits i n := by
  obtain ⟨f, h, hf, -, hft⟩ := withField_eq_ok h
  obtain ⟨t, h, ht, hlen, htt⟩ := withField_eq_ok h
  cases h
  rw [List.length_drop] at hlen
  have htake : bits.take 3 = fieldBits 1 f ++ fieldBits 2 t := by rw [← hft, ← htt, ← List.take_add]
  rw [EncodesFront, htake, hc]
  refine ⟨?_, ?_, by omega, ?_⟩ <;> interval_cases f <;> interval_cases t <;> rfl

theorem decodeStoredHdr_encodes {c : Ctx} {bits : List Bool} {i : Instr} {n : Nat} (hc : c.fmt = .stHdr)
    (h : decodeStoredHdr bits = .ok i n) : EncodesFront c bits i n := by
  obtain ⟨len, h, hl, -, hlt⟩ := withField_eq_ok h
  obtain ⟨nlen, h, hn, hlen, hnt⟩ := withField_eq_ok h
  cases h
  rw [List.length_drop] at hlen
  have htake : bits.take 32 = fieldBits 16 len ++ fieldBits 16 nlen := by rw [← hlt, ← hnt, ← List.take_add]
  refine ⟨rfl, hc.symm, by omega, ?_⟩
  rw [htake]
  simp only [encode, encodeCode, Instr.format, Instr.fields, encodeFields, toNat_ofNat_of_lt hl, toNat_ofNat_of_lt hn,
    Option.map_some, List.nil_append, List.append_nil]

theorem decodeStoredByte_encodes {c : Ctx} {bits : List Bool} {i : Instr} {n : Nat} (hc : c.fmt = .stData)
    (h : decodeStoredByte bits = .ok i n) : EncodesFront c bits i n := by
  obtain ⟨b, h, hb, hlen, hbt⟩ := withField_eq_ok h
  cases h
  refine ⟨rfl, hc.symm, hlen, ?_⟩
  rw [hbt]
  simp only [encode, encodeCode, Instr.format, Instr.fields, encodeFields, toNat_ofNat_of_lt hb, Option.map_some,
    List.nil_append, List.append_nil]

theorem decodeCounts_encodes {c : Ctx} {bits : List Bool} {i : Instr} {n : Nat} (hc : c.fmt = .dhCounts)
    (h : decodeCounts bits = .ok i n) : EncodesFront c bits i n := by
  obtain ⟨l, h, hl, -, hlt⟩ := withField_eq_ok h
  obtain ⟨d, h, hd, -, hdt⟩ := withField_eq_ok h
  obtain ⟨v, h, hv, hlen, hvt⟩ := withField_eq_ok h
  cases h
  rw [List.length_drop] at hlen
  have htake : bits.take 14 = fieldBits 5 l ++ (fieldBits 5 d ++ fieldBits 4 v) := by
    rw [← hlt, ← hdt, ← hvt, ← List.append_assoc, ← List.take_add, ← List.take_add]
  have h1 : (BitVec.ofNat 9 (l + 257)).toNat = l + 257 := toNat_ofNat_of_lt (by omega)
  have h2 : (BitVec.ofNat 6 (d + 1)).toNat = d + 1 := toNat_ofNat_of_lt (by omega)
  have h3 : (BitVec.ofNat 5 (v + 4)).toNat = v + 4 := toNat_ofNat_of_lt (by omega)
  refine ⟨?_, hc.symm, by omega, ?_⟩
  · simp only [Instr.wellFormed, inRange, h1, h2, h3, Bool.and_eq_true, decide_eq_true_eq]
    omega
  · rw [htake]
    simp only [encode, encodeCode, Instr.format, Instr.fields, encodeFields, h1, h2, h3, Nat.add_sub_cancel,
      Option.map_some, List.nil_append, List.append_nil]

theorem decodeCllen_encodes {c : Ctx} {bits : List Bool} {i : Instr} {n : Nat} (hc : c.fmt = .dhCllen)
    (h : decodeCllen bits = .ok i n) : EncodesFront c bits i n := by
  obtain ⟨v, h, hv, hlen, hvt⟩ := withField_eq_ok h
  cases h
  refine ⟨rfl, hc.symm, hlen, ?_⟩
  rw [hvt]
  simp only [encode, encodeCode, Instr.format, Instr.fields, encodeFields, toNat_ofNat_of_lt hv, Option.map_some,
    List.nil_append, List.append_nil]

/-- An element that is its code alone. -/
theorem encodesFront_code {c : Ctx} {bits : List Bool} {i : Instr} {n : Nat} (hwf : i.wellFormed = true)
    (hfmt : i.format = c.fmt) (hlen : n ≤ bits.length) (hcode : encodeCode c i = some (bits.take n))
    (hf : i.fields = []) : EncodesFront c bits i n :=
  ⟨hwf, hfmt, hlen, encode_eq_take (m := 0) hcode (by simp [hf, encodeFields])⟩

/-- An element that is its code and m extra bits. -/
theorem encodesFront_extra {c : Ctx} {bits : List Bool} {i : Instr} {n m v : Nat} (hwf : i.wellFormed = true)
    (hfmt : i.format = c.fmt) (hlen : n ≤ bits.length) (hm : m ≤ (bits.drop n).length)
    (hcode : encodeCode c i = some (bits.take n)) (hf : i.fields = [(m, v)])
    (hv : (bits.drop n).take m = fieldBits m v) : EncodesFront c bits i (n + m) := by
  rw [List.length_drop] at hm
  exact ⟨hwf, hfmt, by omega, encode_eq_take hcode (encodeFields_eq_take hf hv)⟩

theorem inRange_of {lo hi v : Nat} (h1 : lo ≤ v) (h2 : v ≤ hi) : inRange lo hi v = true := by
  simp [inRange, h1, h2]

theorem decodeClsRest_encodes {c : Ctx} {bits : List Bool} {i : Instr} {s n m : Nat} (hc : c.fmt = .cls)
    (hlen : n ≤ bits.length) (hcode : encodeSymbol c.tCL s = some (bits.take n))
    (h : decodeClsRest c.hasPrev (bits.drop n) s n = .ok i m) : EncodesFront c bits i m := by
  obtain hs | rfl | rfl | rfl | hs : s ≤ 15 ∨ s = 16 ∨ s = 17 ∨ s = 18 ∨ 18 < s := by omega
  · rw [decodeClsRest_clLen hs] at h
    cases h
    have hsel : (BitVec.ofNat 4 s).toNat = s := toNat_ofNat_of_lt (by omega)
    exact encodesFront_code rfl hc.symm hlen
      (by rw [← hcode]; simp only [encodeCode, Instr.format, Instr.selector, hsel]) rfl
  · cases hp : c.hasPrev <;> rw [hp] at h
    · cases h
    · obtain ⟨v, h, hv, hm, hvt⟩ := withField_eq_ok h
      cases h
      have hr : (BitVec.ofNat 8 (v + 3)).toNat = v + 3 := toNat_ofNat_of_lt (by omega)
      exact encodesFront_extra (inRange_of (by omega) (by omega)) hc.symm hlen hm hcode
        (by simp only [Instr.fields, hr, Nat.add_sub_cancel]) hvt
  · obtain ⟨v, h, hv, hm, hvt⟩ := withField_eq_ok h
    cases h
    have hr : (BitVec.ofNat 8 (v + 3)).toNat = v + 3 := toNat_ofNat_of_lt (by omega)
    exact encodesFront_extra (inRange_of (by omega) (by omega)) hc.symm hlen hm hcode
      (by simp only [Instr.fields, hr, Nat.add_sub_cancel]) hvt
  · obtain ⟨v, h, hv, hm, hvt⟩ := withField_eq_ok h
    cases h
    have hr : (BitVec.ofNat 8 (v + 11)).toNat = v + 11 := toNat_ofNat_of_lt (by omega)
    exact encodesFront_extra (inRange_of (by omega) (by omega)) hc.symm hlen hm hcode
      (by simp only [Instr.fields, hr, Nat.add_sub_cancel]) hvt
  · rw [decodeClsRest_wrong hs] at h
    cases h

/-- A length symbol has at most five extra bits (44_symbols.md R255). -/
theorem lenExtra_le (s : Nat) (h : s ≤ 285) : lenExtra s ≤ 5 := by
  interval_cases s <;> decide

/-- A distance code has at most thirteen extra bits (44_symbols.md R260). -/
theorem distExtra_le (c : Nat) (h : c ≤ 29) : distExtra c ≤ 13 := by
  interval_cases c <;> decide

theorem decodeLLRest_encodes {c : Ctx} {bits : List Bool} {i : Instr} {s n m : Nat} (hc : c.fmt = .ll)
    (hlen : n ≤ bits.length) (hcode : encodeSymbol c.tLL s = some (bits.take n))
    (h : decodeLLRest (bits.drop n) s n = .ok i m) : EncodesFront c bits i m := by
  obtain hs | rfl | hs : s ≤ 255 ∨ s = 256 ∨ 257 ≤ s := by omega
  · rw [decodeLLRest_lit hs] at h
    cases h
    have hsel : (BitVec.ofNat 8 s).toNat = s := toNat_ofNat_of_lt (by omega)
    exact encodesFront_code rfl hc.symm hlen
      (by rw [← hcode]; simp only [encodeCode, Instr.format, Instr.selector, hsel]) rfl
  · cases h
    exact encodesFront_code rfl hc.symm hlen hcode rfl
  · cases hmk : lenCtors[s - 257]? with
    | some mk =>
      rw [decodeLLRest_length hs hmk] at h
      obtain ⟨x, h, hx, hm, hxt⟩ := withField_eq_ok h
      cases h
      have hi := IsLength.of hs hmk (BitVec.ofNat 5 x)
      have hxr : (BitVec.ofNat 5 x).toNat = x :=
        toNat_ofNat_of_lt (hx.trans_le (Nat.pow_le_pow_right (by omega) (lenExtra_le s hi.hi)))
      refine encodesFront_extra ?_ (hi.format.trans hc.symm) hlen hm ?_ (hi.fields.trans (by rw [hxr])) hxt
      · rw [hi.wellFormed, hxr, decide_eq_true hx]
      · rw [encodeCode_of.2.1 hi.format, hi.selector, hcode]
    | none =>
      have h286 : 286 ≤ s := by
        have hlen : lenCtors.length ≤ s - 257 := List.getElem?_eq_none_iff.mp hmk
        have hlenCtors : lenCtors.length = 29 := rfl
        omega
      rw [decodeLLRest, if_neg (by omega), if_neg (by omega), hmk] at h
      by_cases hs' : s ≤ 287 <;> simp only [hs', if_true, if_false] at h <;> cases h
      have hsel : (BitVec.ofNat 9 s).toNat = s := toNat_ofNat_of_lt (by omega)
      refine encodesFront_code (inRange_of (by omega) (by omega)) hc.symm hlen ?_ rfl
      rw [encodeCode_of.2.1 rfl, ← hcode, Instr.selector, hsel]

theorem decodeDistRest_encodes {c : Ctx} {bits : List Bool} {i : Instr} {s n m : Nat} (hc : c.fmt = .d)
    (hlen : n ≤ bits.length) (hcode : encodeSymbol c.tD s = some (bits.take n))
    (h : decodeDistRest (bits.drop n) s n = .ok i m) : EncodesFront c bits i m := by
  cases hmk : distCtors[s]? with
  | some mk =>
    rw [decodeDistRest_distance hmk] at h
    obtain ⟨y, h, hy, hm, hyt⟩ := withField_eq_ok h
    cases h
    have hi := IsDistance.of hmk (BitVec.ofNat 13 y)
    have hyr : (BitVec.ofNat 13 y).toNat = y :=
      toNat_ofNat_of_lt (hy.trans_le (Nat.pow_le_pow_right (by omega) (distExtra_le s hi.hi)))
    refine encodesFront_extra ?_ (hi.format.trans hc.symm) hlen hm ?_ (hi.fields.trans (by rw [hyr])) hyt
    · rw [hi.wellFormed, hyr, decide_eq_true hy]
    · rw [encodeCode_of.2.2 hi.format, hi.selector, hcode]
  | none =>
    have h30 : 30 ≤ s := List.getElem?_eq_none_iff.mp hmk
    rw [decodeDistRest, hmk] at h
    by_cases hs' : s ≤ 31 <;> simp only [hs', if_true, if_false] at h <;> cases h
    have hsel : (BitVec.ofNat 5 s).toNat = s := toNat_ofNat_of_lt (by omega)
    refine encodesFront_code (inRange_of (by omega) (by omega)) hc.symm hlen ?_ rfl
    rw [encodeCode_of.2.2 rfl, ← hcode, Instr.selector, hsel]

/-- What the decoder answers is what the bits at the front encode. -/
theorem decode_encodesFront {c : Ctx} {bits : List Bool} {i : Instr} {n : Nat} (h : decode c bits = .ok i n) :
    EncodesFront c bits i n := by
  unfold decode at h
  cases hc : c.fmt <;> rw [hc] at h
  case bh => exact decodeHeader_encodes hc h
  case stHdr => exact decodeStoredHdr_encodes hc h
  case stData => exact decodeStoredByte_encodes hc h
  case dhCounts => exact decodeCounts_encodes hc h
  case dhCllen => exact decodeCllen_encodes hc h
  case cls =>
    obtain ⟨s, k, hs, h⟩ := withSymbol_eq_ok h
    obtain ⟨hlen, hcode⟩ := encodeSymbol_of_huffDecode hs
    exact decodeClsRest_encodes hc hlen hcode h
  case ll =>
    obtain ⟨s, k, hs, h⟩ := withSymbol_eq_ok h
    obtain ⟨hlen, hcode⟩ := encodeSymbol_of_huffDecode hs
    exact decodeLLRest_encodes hc hlen hcode h
  case d =>
    obtain ⟨s, k, hs, h⟩ := withSymbol_eq_ok h
    obtain ⟨hlen, hcode⟩ := encodeSymbol_of_huffDecode hs
    exact decodeDistRest_encodes hc hlen hcode h

/-- Settles O3: by the format asked for. -/
theorem encodeOfDecode : Obligations.EncodeOfDecode := fun _ _ _ _ => decode_encodesFront

/-- What the decoder answers is well-formed. -/
theorem decode_wellFormed {c : Ctx} {bits : List Bool} {i : Instr} {n : Nat} (h : decode c bits = .ok i n) :
    i.wellFormed = true := (decode_encodesFront h).1

/-- What the decoder answers is of the format asked for. -/
theorem decode_format {c : Ctx} {bits : List Bool} {i : Instr} {n : Nat} (h : decode c bits = .ok i n) :
    i.format = c.fmt := (decode_encodesFront h).2.1

/-- Settles O4: the answer on the first n bits is extended by all of the bits, so it is no other element and no end of
the bits. -/
theorem decodeNeedsNoLookAhead : Obligations.DecodeNeedsNoLookAhead := by
  intro c bits i n h rest
  have hext := decode_extends c (bits.take n) (bits.drop n)
  rw [List.take_append_drop, h] at hext
  suffices hn : decode c (bits.take n) = .ok i n from (decode_ok_append hn rest).2
  cases hd : decode c (bits.take n) <;> rw [hd] at hext
  case ok j m =>
    obtain ⟨-, hext⟩ := hext
    exact hext.symm
  case short k =>
    have : (bits.take n).length < n := hext
    have := (decode_ok_append h []).1
    simp at *
    omega
  case reject k m => cases hext.2

end Sys2Proof.Proofs

/-! The fixed tables (41_huffman.md R167, R168; 30_encoding.md R110, R111) and the base tables (R108): the code and the
numbers of every symbol. -/

namespace Sys2Proof.Proofs

open Sys2Proof.Machine
open Sys2Proof.Says

/-! ### The fixed codes -/

/-- FIXED_LL as runs of equal lengths (R167). -/
theorem fixedLL_eq :
    fixedLL = List.replicate 144 8 ++ (List.replicate 112 9 ++ (List.replicate 24 7 ++ List.replicate 8 8)) := by
  decide +kernel

/-- FIXED_D is one run (R168). -/
theorem fixedD_eq : fixedD = List.replicate 32 5 := by decide +kernel

/-- The entries of a vector that is a run and then others. -/
theorem getElem?_replicate_append {α : Type} (n : Nat) (a : α) (l : List α) (s : Nat) :
    (List.replicate n a ++ l)[s]? = if s < n then some a else l[s - n]? := by
  split
  · rw [List.getElem?_append_left (by simpa), List.getElem?_replicate, if_pos ‹_›]
  · rw [List.getElem?_append_right (by simp; omega), List.length_replicate]

/-- The entries of FIXED_LL (R167). -/
theorem fixedLL_get (s : Nat) :
    fixedLL[s]? = if s < 144 then some 8 else if s < 256 then some 9 else if s < 280 then some 7
      else if s < 288 then some 8 else none := by
  rw [fixedLL_eq, getElem?_replicate_append, getElem?_replicate_append, getElem?_replicate_append,
    List.getElem?_replicate]
  grind

/-- The entries of FIXED_D (R168). -/
theorem fixedD_get (c : Nat) : fixedD[c]? = if c < 32 then some 5 else none := by
  rw [fixedD_eq, List.getElem?_replicate]

theorem lengthsOf_get {w : Nat} (table : List (BitVec w)) (s : Nat) :
    (lengthsOf table)[s]? = table[s]?.map BitVec.toNat := List.getElem?_map

theorem blCount_append (l r : List Nat) (len : Nat) : blCount (l ++ r) len = blCount l len + blCount r len :=
  List.countP_append

theorem blCount_replicate (n l len : Nat) : blCount (List.replicate n l) len = if l = len then n else 0 := by
  simp [blCount, List.countP_replicate]

theorem blCount_take_replicate (n l s len : Nat) :
    blCount ((List.replicate n l).take s) len = if l = len then min s n else 0 := by
  rw [List.take_replicate, blCount_replicate]

theorem blCount_take_replicate_append (n l : Nat) (r : List Nat) (s len : Nat) :
    blCount ((List.replicate n l ++ r).take s) len =
      (if l = len then min s n else 0) + blCount (r.take (s - n)) len := by
  rw [List.take_append, blCount_append, blCount_take_replicate, List.length_replicate]

/-- The lengths of FIXED_LL as numbers. -/
theorem lengthsOf_fixedLL :
    lengthsOf fixedLL =
      List.replicate 144 8 ++ (List.replicate 112 9 ++ (List.replicate 24 7 ++ List.replicate 8 8)) := by
  decide +kernel

theorem lengthsOf_fixedD : lengthsOf fixedD = List.replicate 32 5 := by decide +kernel

/-- How many of the first s entries of FIXED_LL have a length. -/
theorem blCount_take_fixedLL (s len : Nat) :
    blCount ((lengthsOf fixedLL).take s) len =
      (if 8 = len then min s 144 else 0) + ((if 9 = len then min (s - 144) 112 else 0) +
        ((if 7 = len then min (s - 144 - 112) 24 else 0) + if 8 = len then min (s - 144 - 112 - 24) 8 else 0)) := by
  rw [lengthsOf_fixedLL, blCount_take_replicate_append, blCount_take_replicate_append, blCount_take_replicate_append,
    blCount_take_replicate]

/-- The first codes of FIXED_LL (R162). -/
theorem nextCode_fixedLL :
    nextCode (lengthsOf fixedLL) 7 = 0 ∧ nextCode (lengthsOf fixedLL) 8 = 0x30 ∧
      nextCode (lengthsOf fixedLL) 9 = 0x190 := by decide +kernel

theorem nextCode_fixedD : nextCode (lengthsOf fixedD) 5 = 0 := by decide +kernel

theorem encodeSymbol_of_get {L : List Nat} {s l : Nat} (h : L[s]? = some l) (hl : l ≠ 0) :
    encodeSymbol L s = some (codeBits l (nextCode L l + blCount (L.take s) l)) := by
  have hgetD : L.getD s 0 = l := by simp [List.getD, h]
  rw [encodeSymbol, hgetD, if_neg hl, codeOf_eq h]

theorem encodeSymbol_of_get_none {L : List Nat} {s : Nat} (h : L[s]? = none) : encodeSymbol L s = none := by
  simp [encodeSymbol, List.getD, h]

section FixedLL
variable {s : Nat}

/-- R110, symbols 0 to 143. -/
theorem encodeSymbol_fixedLL_low (h : s ≤ 143) : encodeSymbol (lengthsOf fixedLL) s = some (codeBits 8 (0x30 + s)) := by
  have hget : (lengthsOf fixedLL)[s]? = some 8 := by
    rw [lengthsOf_get, fixedLL_get, if_pos (by omega)]; rfl
  have hcount : blCount ((lengthsOf fixedLL).take s) 8 = s := by rw [blCount_take_fixedLL]; simp; omega
  rw [encodeSymbol_of_get hget (by omega), nextCode_fixedLL.2.1, hcount]

/-- R110, symbols 144 to 255. -/
theorem encodeSymbol_fixedLL_nine (h1 : 144 ≤ s) (h2 : s ≤ 255) :
    encodeSymbol (lengthsOf fixedLL) s = some (codeBits 9 (0x190 + (s - 144))) := by
  have hget : (lengthsOf fixedLL)[s]? = some 9 := by
    rw [lengthsOf_get, fixedLL_get, if_neg (by omega), if_pos (by omega)]; rfl
  have hcount : blCount ((lengthsOf fixedLL).take s) 9 = s - 144 := by rw [blCount_take_fixedLL]; simp; omega
  rw [encodeSymbol_of_get hget (by omega), nextCode_fixedLL.2.2, hcount]

/-- R110, symbols 256 to 279. -/
theorem encodeSymbol_fixedLL_seven (h1 : 256 ≤ s) (h2 : s ≤ 279) :
    encodeSymbol (lengthsOf fixedLL) s = some (codeBits 7 (s - 256)) := by
  have hget : (lengthsOf fixedLL)[s]? = some 7 := by
    rw [lengthsOf_get, fixedLL_get, if_neg (by omega), if_neg (by omega), if_pos (by omega)]; rfl
  have hcount : blCount ((lengthsOf fixedLL).take s) 7 = s - 256 := by rw [blCount_take_fixedLL]; simp; omega
  rw [encodeSymbol_of_get hget (by omega), nextCode_fixedLL.1, hcount, Nat.zero_add]

/-- R110, symbols 280 to 287. -/
theorem encodeSymbol_fixedLL_high (h1 : 280 ≤ s) (h2 : s ≤ 287) :
    encodeSymbol (lengthsOf fixedLL) s = some (codeBits 8 (0xC0 + (s - 280))) := by
  have hget : (lengthsOf fixedLL)[s]? = some 8 := by
    rw [lengthsOf_get, fixedLL_get, if_neg (by omega), if_neg (by omega), if_neg (by omega), if_pos (by omega)]; rfl
  have hcount : blCount ((lengthsOf fixedLL).take s) 8 = 144 + (s - 280) := by
    rw [blCount_take_fixedLL]; simp; omega
  rw [encodeSymbol_of_get hget (by omega), nextCode_fixedLL.2.1, hcount, ← Nat.add_assoc]

end FixedLL

/-- R111: the code of a distance symbol is its number. -/
theorem encodeSymbol_fixedD {c : Nat} (h : c ≤ 31) : encodeSymbol (lengthsOf fixedD) c = some (codeBits 5 c) := by
  have hget : (lengthsOf fixedD)[c]? = some 5 := by
    rw [lengthsOf_get, fixedD_get, if_pos (by omega)]; rfl
  have hcount : blCount ((lengthsOf fixedD).take c) 5 = c := by
    rw [lengthsOf_fixedD, blCount_take_replicate]; simp; omega
  rw [encodeSymbol_of_get hget (by omega), nextCode_fixedD, hcount, Nat.zero_add]

/-- Settles O8: the entries by the runs of the vectors, the codes by counting the entries before a symbol. -/
theorem fixedCodes : Obligations.FixedCodes := by
  refine ⟨⟨by decide +kernel, by decide +kernel, fun s h => ?_, fun s h1 h2 => ?_, fun s h1 h2 => ?_,
    fun s h1 h2 => ?_, fun s h => ?_⟩, fun s h => encodeSymbol_fixedLL_low h,
    fun s h1 h2 => encodeSymbol_fixedLL_nine h1 h2, fun s h1 h2 => encodeSymbol_fixedLL_seven h1 h2,
    fun s h1 h2 => encodeSymbol_fixedLL_high h1 h2, fun s h => encodeSymbol_of_get_none ?_,
    fun c h => encodeSymbol_fixedD h, fun c h => encodeSymbol_of_get_none ?_⟩
  · rw [fixedLL_get, if_pos (by omega)]
  · rw [fixedLL_get, if_neg (by omega), if_pos (by omega)]
  · rw [fixedLL_get, if_neg (by omega), if_neg (by omega), if_pos (by omega)]
  · rw [fixedLL_get, if_neg (by omega), if_neg (by omega), if_neg (by omega), if_pos (by omega)]
  · rw [fixedD_get, if_pos (by omega)]
  · rw [lengthsOf_get, fixedLL_get, if_neg (by omega), if_neg (by omega), if_neg (by omega), if_neg (by omega)]; rfl
  · rw [lengthsOf_get, fixedD_get, if_neg (by omega)]; rfl

theorem le_fifteen_of_mem_lengthsOf {table : List (BitVec 4)} : ∀ l ∈ lengthsOf table, l ≤ 15 := by
  intro l hl
  obtain ⟨v, -, rfl⟩ := List.mem_map.mp hl
  exact Nat.le_of_lt_succ v.isLt

/-- A literal/length symbol is decoded from its fixed code. -/
theorem huffDecode_fixedLL {s : Nat} {code : List Bool} (h : encodeSymbol (lengthsOf fixedLL) s = some code)
    (rest : List Bool) : huffDecode (lengthsOf fixedLL) (code ++ rest) = .symbol s code.length :=
  huffDecode_encodeSymbol (of_decide_eq_true Tests.fixed_ll_buildable) le_fifteen_of_mem_lengthsOf h rest

/-- A distance symbol is decoded from its fixed code. -/
theorem huffDecode_fixedD {c : Nat} (h : c ≤ 31) (rest : List Bool) :
    huffDecode (lengthsOf fixedD) (codeBits 5 c ++ rest) = .symbol c 5 := by
  have := huffDecode_encodeSymbol (of_decide_eq_true Tests.fixed_d_buildable) le_fifteen_of_mem_lengthsOf
    (encodeSymbol_fixedD h) rest
  rwa [codeBits_length] at this

/-! ### The base tables (44_symbols.md R322, R324) -/

/-- Neighbouring ranges `b c .. b c + w c - 1`, each ending where the next begins, hold every number exactly once. -/
theorem existsUnique_of_ranges {b w : Nat → Nat} {n : Nat} (hstep : ∀ c, c < n → b (c + 1) = b c + w c) {v : Nat}
    (hlo : b 0 ≤ v) (hhi : v < b n + w n) : ∃! p : Nat × Nat, p.1 ≤ n ∧ p.2 < w p.1 ∧ v = b p.1 + p.2 := by
  have hmono : ∀ c c', c < c' → c' ≤ n → b c + w c ≤ b c' := by
    intro c c' hc hn
    induction c', hc using Nat.le_induction with
    | base => exact (hstep c (by omega)).ge
    | succ c' hc ih => have := hstep c' (by omega); have := ih (by omega); omega
  have hex : ∃ c, c ≤ n ∧ b c ≤ v ∧ v < b c + w c := by
    induction n with
    | zero => exact ⟨0, le_rfl, hlo, hhi⟩
    | succ n ih =>
      by_cases hv : b (n + 1) ≤ v
      · exact ⟨n + 1, le_rfl, hv, hhi⟩
      · have hn := hstep n (by omega)
        obtain ⟨c, hc, h⟩ := ih (fun c hc => hstep c (by omega)) (by omega)
          (fun c c' h1 h2 => hmono c c' h1 (by omega))
        exact ⟨c, by omega, h⟩
  obtain ⟨c, hc, h1, h2⟩ := hex
  refine ⟨(c, v - b c), ⟨hc, by simp only; omega, by simp only; omega⟩, fun ⟨c', x⟩ ⟨hc', hx, hv⟩ => ?_⟩
  simp only at hc' hx hv
  obtain hlt | rfl | hgt := Nat.lt_trichotomy c c'
  · have := hmono c c' hlt hc'; omega
  · simp only [Prod.mk.injEq, true_and]; omega
  · have := hmono c' c hgt hc; omega

/-- Each distance range ends where the next begins (R108, R260). -/
theorem distanceBase_succ : ∀ c, c < 29 → distanceBase.getD (c + 1) 0 = distanceBase.getD c 0 + 2 ^ distExtra c := by
  decide

/-- Each length range ends where the next begins, up to symbol 284 (R108, R255). -/
theorem lengthBase_succ :
    ∀ k, k < 27 → lengthBase.getD (k + 1) 0 = lengthBase.getD k 0 + 2 ^ lenExtra (k + 257) := by
  decide

/-- The end of each distance range. -/
theorem distanceBase_add_le : ∀ c, c ≤ 29 →
    1 ≤ distanceBase.getD c 0 ∧ distanceBase.getD c 0 + 2 ^ distExtra c ≤ 32769 := by
  decide

/-- The ends of each length range; only those of symbols 284 and 285 reach 258. -/
theorem lengthBase_add_le : ∀ k, k ≤ 28 →
    3 ≤ lengthBase.getD k 0 ∧ lengthBase.getD k 0 + 2 ^ lenExtra (k + 257) ≤ 259 ∧
      (k < 27 → lengthBase.getD k 0 + 2 ^ lenExtra (k + 257) ≤ 258) := by
  decide

theorem lengthBase_bounds {sym x : Nat} (h1 : 257 ≤ sym) (h2 : sym ≤ 285) (hx : x < 2 ^ lenExtra sym) :
    3 ≤ lengthBase.getD (sym - 257) 0 + x ∧ lengthBase.getD (sym - 257) 0 + x ≤ 258 := by
  obtain ⟨hlo, hhi, -⟩ := lengthBase_add_le (sym - 257) (by omega)
  rw [Nat.sub_add_cancel h1] at hhi
  omega

theorem distanceBase_bounds {c y : Nat} (hc : c ≤ 29) (hy : y < 2 ^ distExtra c) :
    1 ≤ distanceBase.getD c 0 + y ∧ distanceBase.getD c 0 + y ≤ 32768 := by
  obtain ⟨hlo, hhi⟩ := distanceBase_add_le c hc
  omega

/-- Length 258 has two spellings (R324). -/
theorem length_eq_258_iff {sym x : Nat} (h1 : 257 ≤ sym) (h2 : sym ≤ 285) (hx : x < 2 ^ lenExtra sym) :
    lengthBase.getD (sym - 257) 0 + x = 258 ↔ (sym = 284 ∧ x = 31) ∨ (sym = 285 ∧ x = 0) := by
  have h284 : lengthBase.getD 27 0 = 227 ∧ lenExtra 284 = 5 := by decide
  have h285 : lengthBase.getD 28 0 = 258 ∧ lenExtra 285 = 0 := by decide
  obtain hs | rfl | rfl : sym < 284 ∨ sym = 284 ∨ sym = 285 := by omega
  · have hshort := (lengthBase_add_le (sym - 257) (by omega)).2.2 (by omega)
    rw [Nat.sub_add_cancel h1] at hshort
    omega
  · rw [h284.2] at hx
    simp only [h284.1, Nat.reduceSub]
    simp; omega
  · rw [h285.2] at hx
    simp only [h285.1, Nat.reduceSub]
    simp

/-- Lengths up to 257 have one spelling. -/
theorem existsUnique_length {m : Nat} (h1 : 3 ≤ m) (h2 : m ≤ 257) :
    ∃! p : Nat × Nat, 257 ≤ p.1 ∧ p.1 ≤ 285 ∧ p.2 < 2 ^ lenExtra p.1 ∧ m = lengthBase.getD (p.1 - 257) 0 + p.2 := by
  have h27 : lengthBase.getD 0 0 = 3 ∧ lengthBase.getD 27 0 + 2 ^ lenExtra (27 + 257) = 259 ∧
      lengthBase.getD 28 0 = 258 := by decide
  obtain ⟨⟨k, x⟩, ⟨hk, hx, hm⟩, huniq⟩ := existsUnique_of_ranges (b := fun k => lengthBase.getD k 0)
    (w := fun k => 2 ^ lenExtra (k + 257)) lengthBase_succ (v := m) (by omega) (by omega)
  simp only at hk hx hm
  refine ⟨(k + 257, x), ⟨by simp, by simp only; omega, hx, by simpa using hm⟩, fun ⟨sym, y⟩ ⟨hs1, hs2, hy, he⟩ => ?_⟩
  simp only at hs1 hs2 hy he
  obtain ⟨j, rfl⟩ : ∃ j, sym = j + 257 := ⟨sym - 257, by omega⟩
  rw [Nat.add_sub_cancel] at he
  have hj : j ≠ 28 := by rintro rfl; omega
  have := huniq (j, y) ⟨by simp only; omega, hy, he⟩
  simpa using this

/-- Settles O35: the ranges of distances, and of lengths up to symbol 284, adjoin; only symbol 285 repeats a length. -/
theorem rangesTile : Obligations.RangesTile := by
  refine ⟨fun c y => distanceBase_bounds, fun d h1 h2 => ?_, fun sym x => lengthBase_bounds,
    fun m => existsUnique_length, fun sym x => length_eq_258_iff⟩
  have hends : distanceBase.getD 0 0 = 1 ∧ distanceBase.getD 29 0 + 2 ^ distExtra 29 = 32769 := by decide
  exact existsUnique_of_ranges (b := fun c => distanceBase.getD c 0) (w := fun c => 2 ^ distExtra c) distanceBase_succ
    (by omega) (by omega)

/-! ### Bits that run out -/

theorem withField_short {n : Nat} {bits : List Bool} (h : bits.length < n) (k : Nat → Decoded) :
    withField n bits k = .short .truncatedInput := by
  simp [withField, fieldVal_none.mpr h]

/-- A field after d bits, and then more fields: the bits run out exactly where they are fewer than all m bits. -/
theorem withField_drop_eq_short_iff {d n m : Nat} {bits : List Bool} {k : Nat → Decoded}
    (hk : ∀ v, k v = .short .truncatedInput ↔ bits.length < m) (hm : d + n ≤ m) :
    withField n (bits.drop d) k = .short .truncatedInput ↔ bits.length < m := by
  unfold withField
  split
  · rename_i hnone
    have hlen := fieldVal_none.mp hnone
    rw [List.length_drop] at hlen
    exact iff_of_true rfl (by omega)
  · exact hk _

/-- The last field of an element. -/
theorem withField_drop_ok_eq_short_iff {d n u : Nat} {bits : List Bool} {mk : Nat → Instr} :
    (withField n (bits.drop d) fun v => .ok (mk v) u) = .short .truncatedInput ↔ bits.length < d + n ∧ 0 < n := by
  cases h : fieldVal n (bits.drop d) with
  | none =>
    have hlen := fieldVal_none.mp h
    rw [List.length_drop] at hlen
    simp only [withField, h, true_iff]
    omega
  | some v =>
    have hlen := (fieldVal_some h).2.2
    rw [List.length_drop] at hlen
    simp only [withField, h, reduceCtorEq, false_iff]
    omega

theorem decode_of_huffDecode_short {c : Ctx} {bits : List Bool} :
    (c.fmt = .cls → huffDecode c.tCL bits = .short → decode c bits = .short .symbolNotFound) ∧
    (c.fmt = .ll → huffDecode c.tLL bits = .short → decode c bits = .short .symbolNotFound) ∧
    (c.fmt = .d → huffDecode c.tD bits = .short → decode c bits = .short .symbolNotFound) := by
  refine ⟨fun hc h => ?_, fun hc h => ?_, fun hc h => ?_⟩ <;> simp only [decode, hc, withSymbol, h]

theorem decode_of_huffDecode_absent {c : Ctx} {bits : List Bool} {n : Nat} :
    (c.fmt = .cls → huffDecode c.tCL bits = .absent n → decode c bits = .reject .symbolNotFound n) ∧
    (c.fmt = .ll → huffDecode c.tLL bits = .absent n → decode c bits = .reject .symbolNotFound n) ∧
    (c.fmt = .d → huffDecode c.tD bits = .absent n → decode c bits = .reject .symbolNotFound n) := by
  refine ⟨fun hc h => ?_, fun hc h => ?_, fun hc h => ?_⟩ <;> simp only [decode, hc, withSymbol, h]

/-- A length symbol has its entry in `lenCtors`. -/
theorem lenCtors_get {sym : Nat} (h1 : 257 ≤ sym) (h2 : sym ≤ 285) : ∃ mk, lenCtors[sym - 257]? = some mk :=
  ⟨_, List.getElem?_eq_getElem (show sym - 257 < 29 by omega)⟩

/-- A distance code has its entry in `distCtors`. -/
theorem distCtors_get {c : Nat} (h : c ≤ 29) : ∃ mk, distCtors[c]? = some mk :=
  ⟨_, List.getElem?_eq_getElem (show c < 30 by omega)⟩

/-- Settles O44: a plain format field by field; a Huffman format by what HuffDecode answers. -/
theorem whichFaultAtTheEnd : Obligations.WhichFaultAtTheEnd := by
  intro c bits
  refine ⟨fun hc => ?_, fun hc => ?_, fun hc => ?_, fun hc => ?_, fun hc => ?_, decode_of_huffDecode_short.1,
    decode_of_huffDecode_short.2.1, decode_of_huffDecode_short.2.2, fun n => decode_of_huffDecode_absent.1,
    fun n => decode_of_huffDecode_absent.2.1, fun n => decode_of_huffDecode_absent.2.2, fun n hc h hp hlen => ?_,
    fun n hc h hlen => ?_, fun n hc h hlen => ?_, fun s n hc h h1 h2 hlen => ?_, fun s n hc h h1 hlen => ?_⟩
  · simp only [decode, hc, decodeHeader]
    refine withField_drop_eq_short_iff (d := 0) (fun f => ?_) (by omega)
    simpa using withField_drop_ok_eq_short_iff (d := 1) (n := 2)
  · simp only [decode, hc, decodeStoredHdr]
    refine withField_drop_eq_short_iff (d := 0) (fun len => ?_) (by omega)
    simpa using withField_drop_ok_eq_short_iff (d := 16) (n := 16)
  · simp only [decode, hc, decodeStoredByte]
    simpa using withField_drop_ok_eq_short_iff (d := 0) (n := 8)
  · simp only [decode, hc, decodeCounts]
    refine withField_drop_eq_short_iff (d := 0) (fun l => ?_) (by omega)
    refine withField_drop_eq_short_iff (d := 5) (fun d => ?_) (by omega)
    simpa using withField_drop_ok_eq_short_iff (d := 10) (n := 4)
  · simp only [decode, hc, decodeCllen]
    simpa using withField_drop_ok_eq_short_iff (d := 0) (n := 3)
  · rw [decode_cls_of_symbol hc h, hp, decodeClsRest_clRep, withField_short hlen]
  · rw [decode_cls_of_symbol hc h, decodeClsRest_clZero3, withField_short hlen]
  · rw [decode_cls_of_symbol hc h, decodeClsRest_clZero11, withField_short hlen]
  · obtain ⟨mk, hmk⟩ := lenCtors_get h1 h2
    rw [decode_ll_of_symbol hc h, decodeLLRest_length h1 hmk, withField_short hlen]
  · obtain ⟨mk, hmk⟩ := distCtors_get h1
    rw [decode_d_of_symbol hc h, decodeDistRest_distance hmk, withField_short hlen]

/-! ### Symbols and their tables -/

/-- Settles O10: the symbol has an entry in the vector; beyond 18 no arm of R230 to R238 applies. -/
theorem codeLengthSymbolRange : Obligations.CodeLengthSymbolRange := by
  refine ⟨fun L bits s n h => ?_, fun c bits s n hc h hs => ?_⟩
  · obtain ⟨-, -, ⟨hget, -⟩, -⟩ := huffDecode_eq_symbol_iff.mp h
    exact (List.getElem?_eq_some_iff.mp hget).1
  · rw [decode_cls_of_symbol hc h, decodeClsRest_wrong hs]

/-- Settles O1: eight closed words, evaluated. -/
theorem fewWordsDecode : Obligations.FewWordsDecode := by
  unfold Obligations.FewWordsDecode
  decide

/-- Settles O7: closed length vectors, evaluated. -/
theorem huffmanExamples : Obligations.HuffmanExamples := by
  unfold Obligations.HuffmanExamples
  decide +kernel

end Sys2Proof.Proofs

/-! What each element does (42_block_control.md, 43_dynamic_header.md, 44_symbols.md), in the words of the
statements. -/

namespace Sys2Proof.Proofs

open Sys2Proof.Machine
open Sys2Proof.Says

/-! ### The shared operations -/

/-- Emit in the words of R343: a byte is pending, so busy is 1 and done is 0 (R39). -/
theorem emit_eq_emitted (b : Byte) (s : State) : s.emit b = emitted b s := by
  simp [State.emit, State.settle, State.busyValue, State.doneValue, emitted, Config.windowSize]

/-- EndOfBlock (42_block_control.md R197). -/
theorem endOfBlock_eq_blockEnd (s : State) : s.endOfBlock = blockEnd s := by
  cases hb : s.bfinal
  · rw [endOfBlock_not_final hb]
    simp [entered, blockEnd, hb]
  · rw [endOfBlock_final hb]
    simp [blockEnd, hb]

theorem whenPortFree_of_free {s : State} (h : s.outValid = false) (act : State → State) :
    whenPortFree s act = .next (act s) := by
  simp [whenPortFree, h]

theorem whenPortFree_of_occupied {s : State} (h : s.outValid = true) (act : State → State) :
    whenPortFree s act = .next s := by
  simp [whenPortFree, h]

/-- The check of R165 in the words of the statements. -/
theorem buildable_lengthsOf {w : Nat} (L : List (BitVec w)) : buildable (lengthsOf L) = true ↔ ¬ oversubscribed L := by
  rw [oversubscribed, Nat.not_lt]
  exact decide_eq_true_iff

/-- Settles O37: the write, by the laws of the window memory; wr_ptr has 15 bits. -/
theorem emitWritesOneByte : Obligations.EmitWritesOneByte := by
  intro s b
  refine ⟨emit_eq_emitted b s, ?_, fun a ha => ?_, fun h => State.emit_win_wf h b, ?_⟩
  · rw [State.emit_win_read, if_pos rfl]
  · rw [State.emit_win_read, if_neg ha]
  · rw [State.emit_wrPtr, BitVec.toNat_add]
    rfl

/-- Settles O43: the first fault by `raise_eq_raised`; a later one keeps err_code (R377). -/
theorem raiseEntersError : Obligations.RaiseEntersError :=
  ⟨fun _ k h => raise_eq_raised h k, fun s k h => by rw [State.raise_errCode, if_pos h],
    rfl, rfl, rfl, rfl, rfl, rfl, rfl, rfl,    rfl⟩

/-! ### The stored block -/

/-- The length check of R203 decides what STORED_HDR does. -/
theorem exec_storedHdr {s : State} (hs : s.nextFormat = some .stHdr) (len nlen : BitVec 16) :
    ((len ^^^ nlen) = 0xFFFF#16 → len ≠ 0 →
      exec (.storedHdr len nlen) s = .next (entered .storedCopy { s with storedRem := len })) ∧
    ((len ^^^ nlen) = 0xFFFF#16 → len = 0 →
      exec (.storedHdr len nlen) s = .next (blockEnd { s with storedRem := 0 })) ∧
    ((len ^^^ nlen) ≠ 0xFFFF#16 → exec (.storedHdr len nlen) s = .next (raised 1 s)) := by
  have hexec : exec (.storedHdr len nlen) s = if storedLengthsOk Config.storedCheck len nlen then
      if len = 0 then .next (State.endOfBlock { s with storedRem := len })
      else .next (State.goto .storedCopy { s with storedRem := len })
    else .next (s.raise .wrongUncompressedBlockLengths) := inFormat_of hs _
  rw [hexec]
  refine ⟨fun hok hne => ?_, fun hok hz => ?_, fun hbad => ?_⟩
  · rw [if_pos ((storedLengthsOk_iff len nlen).mpr hok), if_neg hne, goto_eq_entered rfl]
  · rw [if_pos ((storedLengthsOk_iff len nlen).mpr hok), if_pos hz, endOfBlock_eq_blockEnd, hz]
  · rw [if_neg (fun h => hbad ((storedLengthsOk_iff len nlen).mp h)), raise_eq_raised (nextFormat_some hs).1]
    rfl

/-- STORED_BYTE with bytes left is Emit, then the count (R204). -/
theorem exec_storedByte {s : State} (hs : s.nextFormat = some .stData) (hrem : s.storedRem ≠ 0) (b : Byte) :
    exec (.storedByte b) s = whenPortFree s (fun s => (s.emit b).storedOne) := by
  calc exec (.storedByte b) s
      = if s.storedRem = 0 then .fault .counterUnderflow else whenPortFree s (fun s => (s.emit b).storedOne) :=
        inFormat_of hs _
    _ = _ := if_neg hrem

/-- Eight bits in stream order are the field of their byte. -/
theorem byteBits_eq_fieldBits (b : Byte) : byteBits b = fieldBits 8 b.toNat := by
  simp only [byteBits, fieldBits, BitVec.getLsbD, Nat.testBit_succ]

theorem storedRem_sub_one {r : BitVec 16} : r - 1 = 0 ↔ r = 1 := by
  constructor
  · intro h; bv_omega
  · rintro rfl; rfl

/-- The count of a stored byte: one less, or, at the last, the end of the block (R204). -/
theorem storedOne_eq (s : State) :
    (s.storedRem ≠ 1 → s.storedOne = { s with storedRem := s.storedRem - 1 }) ∧
    (s.storedRem = 1 → s.storedOne = blockEnd { s with storedRem := 0 }) := by
  refine ⟨fun hmore => if_neg (fun h => hmore (storedRem_sub_one.mp h)), fun hlast => ?_⟩
  rw [State.storedOne, if_pos (storedRem_sub_one.mpr hlast), endOfBlock_eq_blockEnd, hlast]
  rfl

/-- Settles O20: the byte is the field of its eight bits; the last byte is the one at stored_rem = 1. -/
theorem storedByte : Obligations.StoredByte := by
  refine ⟨fun c b rest hc => ?_, fun s b hs hrem => ⟨fun hfree hmore => ?_, fun hfree hlast => ?_, fun hocc => ?_⟩⟩
  · rw [byteBits_eq_fieldBits, decode_storedByte hc]
  · rw [exec_storedByte hs hrem, whenPortFree_of_free hfree, emit_eq_emitted]
    exact congrArg _ ((storedOne_eq (emitted b s)).1 hmore)
  · rw [exec_storedByte hs hrem, whenPortFree_of_free hfree, emit_eq_emitted]
    exact congrArg _ ((storedOne_eq (emitted b s)).2 hlast)
  · rw [exec_storedByte hs hrem, whenPortFree_of_occupied hocc]

/-! ### The dynamic header -/

/-- Settles O21: the fields by `decode_dynCounts`; the element changes the phase to one that is not terminal. -/
theorem dynCounts : Obligations.DynCounts := by
  refine ⟨fun c l d n rest hc hl hd hn => ?_, fun s hlit hdist hclen hs => ?_⟩
  · simpa only [List.append_assoc] using decode_dynCounts hc hl hd hn rest
  · exact (inFormat_of hs _).trans (congrArg _ (goto_eq_entered rfl _))

/-- What the last CLLEN does, and what one before it does (R227, R229). -/
theorem closeCllens_eq {s : State} (he : s.error = false) :
    (s.clIdx ≠ s.hclen → s.closeCllens = s) ∧
    (s.clIdx = s.hclen → ¬ oversubscribed s.clLens → s.closeCllens = entered .dynLens { s with tCL := s.clLens }) ∧
    (s.clIdx = s.hclen → oversubscribed s.clLens → s.closeCllens = raised 9 s) := by
  refine ⟨fun h => if_neg h, fun h hok => ?_, fun h hbad => ?_⟩
  · rw [State.closeCllens, if_pos h, if_pos ((buildable_lengthsOf _).mpr hok), goto_eq_entered rfl]
  · rw [State.closeCllens, if_pos h, if_neg (fun hb => (buildable_lengthsOf _).mp hb hbad), raise_eq_raised he]
    rfl

/-- A position of CL_ORDER is a code-length symbol (R109). -/
theorem clOrder_lt {k p : Nat} (h : clOrder[k]? = some p) : p < 19 :=
  (show ∀ p ∈ clOrder, p < 19 by decide) p (List.mem_of_getElem? h)

/-- CLLEN writes the position of CL_ORDER that cl_idx gives (R227). -/
theorem exec_cllen {s : State} (hs : s.nextFormat = some .dhCllen) (hlen : s.clLens.length = 19) {p : Nat}
    (hp : clOrder[s.clIdx.toNat]? = some p) (v : BitVec 3) :
    exec (.cllen v) s = .next (State.closeCllens { s with clLens := s.clLens.set p v, clIdx := s.clIdx + 1 }) := by
  have hlt : p < s.clLens.length := by rw [hlen]; exact clOrder_lt hp
  refine (inFormat_of hs _).trans ?_
  rw [hp]
  exact if_pos hlt

/-- Settles O22: the write by `exec_cllen`, the end of the vector by `closeCllens_eq`. -/
theorem codeLengthLength : Obligations.CodeLengthLength := by
  refine ⟨fun c v rest hc => decode_cllen hc v rest, fun s v p hs hlen hp => ?_⟩
  have hclose := closeCllens_eq (s := { s with clLens := s.clLens.set p v, clIdx := s.clIdx + 1 })
    (nextFormat_some hs).1
  rw [exec_cllen hs hlen hp]
  exact ⟨fun h => congrArg _ (hclose.1 h), fun h hok => congrArg _ (hclose.2.1 h hok),
    fun h hbad => congrArg _ (hclose.2.2 h hbad)⟩

/-- Completion of a dynamic header (R239): T_LL before T_D. -/
theorem buildTables_eq {s : State} (he : s.error = false) :
    (oversubscribed s.litLens → s.buildTables = raised 9 s) ∧
    (¬ oversubscribed s.litLens → oversubscribed s.distLens →
      s.buildTables = raised 9 { s with tLL := s.litLens }) ∧
    (¬ oversubscribed s.litLens → ¬ oversubscribed s.distLens →
      s.buildTables = entered .symbol { s with tLL := s.litLens, tD := s.distLens }) := by
  refine ⟨fun hll => ?_, fun hll hd => ?_, fun hll hd => ?_⟩
  · rw [State.buildTables, if_neg (fun hb => (buildable_lengthsOf _).mp hb hll), raise_eq_raised he]
    rfl
  · rw [State.buildTables, if_pos ((buildable_lengthsOf _).mpr hll),
      if_neg (fun hb => (buildable_lengthsOf _).mp hb hd), raise_eq_raised (s := { s with tLL := s.litLens }) he]
    rfl
  · rw [State.buildTables, if_pos ((buildable_lengthsOf _).mpr hll), if_pos ((buildable_lengthsOf _).mpr hd),
      goto_eq_entered rfl]

/-- n code lengths v are written, and the header goes on or is complete (R230, R232, R239). -/
theorem putLens_fills {s : State} (he : s.error = false) {n : Nat} (v : BitVec 4)
    (hfit : s.lenIdx.toNat + n ≤ s.hlit.toNat + s.hdist.toNat) (hlen : s.hlit.toNat + s.hdist.toNat ≤ s.lens.length) :
    ∃ lens' t, fills s n v lens' ∧ lensDone s n lens' t ∧ s.putLens n v = .next t := by
  have hin : s.lenIdx.toNat + n ≤ s.lens.length := hfit.trans hlen
  let u : State := { s with
    lens := fillLens s.lens s.lenIdx.toNat n v, lenIdx := BitVec.ofNat 9 (s.lenIdx.toNat + n) }
  have hfill : fills s n v u.lens := ⟨fillLens_length hin, fillLens_get hin⟩
  have hput : s.putLens n v = .next (if s.lenIdx.toNat + n = s.lensTotal then u.buildTables else u) := if_pos hin
  by_cases hall : s.lenIdx.toNat + n = s.lensTotal
  · rw [if_pos hall] at hput
    exact ⟨_, _, hfill, ⟨fun hmore => absurd hall hmore, fun _ => buildTables_eq (s := u) he⟩, hput⟩
  · rw [if_neg hall] at hput
    exact ⟨_, _, hfill, ⟨fun _ => rfl, fun h => absurd h hall⟩, hput⟩

/-- Settles O23: CL_LEN puts one length. -/
theorem clLen : Obligations.ClLen := by
  refine ⟨fun c bits v n hc h hv => ?_, fun s v hs hlt hlen => ?_⟩
  · rw [decode_cls_of_symbol hc h, decodeClsRest_clLen hv]
  · obtain ⟨lens', t, hfill, hdone, hput⟩ := putLens_fills (nextFormat_some hs).1 (n := 1) v hlt hlen
    exact ⟨lens', t, hfill, hdone, (inFormat_of hs _).trans hput⟩

/-- A repeat that fits is a write of its length (R234). -/
theorem repeatLens_of_fits {s : State} {r : BitVec 8} (h : s.lenIdx.toNat + r.toNat ≤ s.hlit.toNat + s.hdist.toNat)
    (p : BitVec 4) : s.repeatLens r (some p) = s.putLens r.toNat p := if_neg (Nat.not_lt.mpr h)

/-- A repeat that does not fit is CodeLengthOverrun (R234). -/
theorem repeatLens_of_overrun {s : State} (he : s.error = false) {r : BitVec 8}
    (h : s.hlit.toNat + s.hdist.toNat < s.lenIdx.toNat + r.toNat) (v : Option (BitVec 4)) :
    s.repeatLens r v = .next (raised 8 s) :=
  (if_pos h).trans (congrArg _ (raise_eq_raised he _))

/-- have_prev (R233). -/
theorem havePrev_eq (s : State) : s.havePrev = decide (s.lenIdx ≠ 0) := by
  have : 0 < s.lenIdx.toNat ↔ s.lenIdx ≠ 0 := by
    constructor <;> intro h
    · rintro hz; rw [hz] at h; exact absurd h (by decide)
    · exact Nat.pos_of_ne_zero fun hz => h (BitVec.eq_of_toNat_eq hz)
  simp [State.havePrev, this]

/-- CL_REP with a previous length is a repeat of it; without one it is NoPreviousLength (R236). -/
theorem exec_clRep {s : State} (hs : s.nextFormat = some .cls) (r : BitVec 8) :
    (s.lenIdx ≠ 0 → exec (.clRep r) s = s.repeatLens r s.lens[s.lenIdx.toNat - 1]?) ∧
    (s.lenIdx = 0 → exec (.clRep r) s = .next (raised 7 s)) := by
  have hexec : exec (.clRep r) s = if s.havePrev then s.repeatLens r s.lens[s.lenIdx.toNat - 1]?
      else .next (s.raise .noPreviousLength) := inFormat_of hs _
  rw [hexec, havePrev_eq, raise_eq_raised (nextFormat_some hs).1]
  refine ⟨fun h => if_pos (decide_eq_true h), fun h => if_neg (by simp [h])⟩

/-- Settles O24: decoding by the previous length's presence; the effect by the overrun check, then `putLens_fills`. -/
theorem clRep : Obligations.ClRep := by
  refine ⟨fun c bits n v hc h => ⟨fun hp => ?_, fun hp hv => ?_⟩, fun s => havePrev_eq s,
    fun s r p hs hne hget hfit hlen => ?_,
    fun s r hs => ⟨(exec_clRep hs r).2, fun hne hover => ?_⟩⟩
  · rw [decode_cls_of_symbol hc h, hp, decodeClsRest_noPrevious]
  · rw [decode_cls_of_symbol hc h, hp, decodeClsRest_clRep, withField, hv]
  · rw [(exec_clRep hs r).1 hne, hget, repeatLens_of_fits hfit]
    exact putLens_fills (nextFormat_some hs).1 p hfit hlen
  · rw [(exec_clRep hs r).1 hne, repeatLens_of_overrun (nextFormat_some hs).1 hover]

/-- CL_ZERO3 and CL_ZERO11 are repeats of 0 (R237, R238). -/
theorem exec_clZeros {s : State} (hs : s.nextFormat = some .cls) (r : BitVec 8) :
    exec (.clZero3 r) s = s.repeatLens r (some 0) ∧ exec (.clZero11 r) s = s.repeatLens r (some 0) :=
  ⟨inFormat_of hs _, inFormat_of hs _⟩

/-- Settles O25: both are repeats of 0; the effect by the overrun check, then `putLens_fills`. -/
theorem clZeros : Obligations.ClZeros := by
  refine ⟨fun c bits n v hc => ⟨fun h hv => ?_, fun h hv => ?_⟩, fun s r hs hfit hlen => ?_, fun s r hs hover => ?_⟩
  · rw [decode_cls_of_symbol hc h, decodeClsRest_clZero3, withField, hv]
  · rw [decode_cls_of_symbol hc h, decodeClsRest_clZero11, withField, hv]
  · obtain ⟨h3, h11⟩ := exec_clZeros hs r
    simp only [h3, h11, repeatLens_of_fits hfit, and_self]
    exact putLens_fills (nextFormat_some hs).1 0 hfit hlen
  · obtain ⟨h3, h11⟩ := exec_clZeros hs r
    rw [h3, h11, repeatLens_of_overrun (nextFormat_some hs).1 hover, and_self]

/-! ### Symbols -/

theorem ofNat_toNat {w : Nat} (b : BitVec w) : BitVec.ofNat w b.toNat = b := by simp

/-- A literal/length symbol under the fixed table, and what follows its code. -/
theorem decode_fixedLL {c : Ctx} (hc : c.fmt = .ll) (ht : c.tLL = lengthsOf fixedLL) {s : Nat} {code : List Bool}
    (h : encodeSymbol (lengthsOf fixedLL) s = some code) (rest : List Bool) :
    decode c (code ++ rest) = decodeLLRest rest s code.length := by
  rw [decode_ll_of_symbol hc (ht ▸ huffDecode_fixedLL h rest), List.drop_left' rfl]

/-- A distance code under the fixed table, and what follows it. -/
theorem decode_fixedD {c : Ctx} (hc : c.fmt = .d) (ht : c.tD = lengthsOf fixedD) {d : Nat} (h : d ≤ 31)
    (rest : List Bool) : decode c (codeBits 5 d ++ rest) = decodeDistRest rest d 5 := by
  rw [decode_d_of_symbol hc (ht ▸ huffDecode_fixedD h rest), List.drop_left' (codeBits_length 5 d)]

/-- LIT is Emit (R252). -/
theorem exec_lit {s : State} (hs : s.nextFormat = some .ll) (b : Byte) :
    exec (.lit b) s = whenPortFree s (State.emit b) := inFormat_of hs _

/-- Settles O26: the fixed codes by R110; the effect is Emit, by the output port's two states. -/
theorem literal : Obligations.Literal := by
  refine ⟨fun c bits v n hc h hv => ?_, fun c b rest hc ht => ⟨fun hb => ?_, fun hb => ?_⟩,
    fun s b hs => ⟨fun hfree => ?_, fun hocc => ?_⟩⟩
  · rw [decode_ll_of_symbol hc h, decodeLLRest_lit hv]
  · rw [decode_fixedLL hc ht (encodeSymbol_fixedLL_low hb), decodeLLRest_lit (by omega), ofNat_toNat, codeBits_length]
  · have h255 : b.toNat ≤ 255 := Nat.le_of_lt_succ b.isLt
    rw [decode_fixedLL hc ht (encodeSymbol_fixedLL_nine hb h255), decodeLLRest_lit h255, ofNat_toNat, codeBits_length]
  · rw [exec_lit hs, whenPortFree_of_free hfree, emit_eq_emitted]
  · rw [exec_lit hs, whenPortFree_of_occupied hocc]

/-- Settles O28: the fixed codes by R110 and R111; the effect is the fault (R257, R320). -/
theorem invalidSymbols : Obligations.InvalidSymbols := by
  refine ⟨fun c bits v n hc h hv => ?_, fun c rest hc ht => ⟨?_, ?_⟩, fun c bits v n hc h hv => ?_,
    fun c rest hc ht => ⟨?_, ?_⟩, fun s v hs => ?_, fun s v hs => ?_⟩
  · rw [decode_ll_of_symbol hc h, decodeLLRest_invalid hv]
  · exact decode_fixedLL hc ht (encodeSymbol_fixedLL_high (s := 286) (by omega) (by omega)) rest
  · exact decode_fixedLL hc ht (encodeSymbol_fixedLL_high (s := 287) (by omega) (by omega)) rest
  · rw [decode_d_of_symbol hc h, decodeDistRest_invalid hv]
  · exact decode_fixedD hc ht (d := 30) (by omega) rest
  · exact decode_fixedD hc ht (d := 31) (by omega) rest
  · exact (inFormat_of hs _).trans (congrArg _ (raise_eq_raised (nextFormat_some hs).1 _))
  · exact (inFormat_of hs _).trans
      (congrArg _ (raise_eq_raised (s := { s with awaitDist := false }) (nextFormat_some hs).1 _))

/-- A length element writes match_len and waits for the distance code (R254, R256). -/
theorem exec_length {i : Instr} {sym : Nat} {x : BitVec 5} (hi : IsLength i sym x) {s : State}
    (hs : s.nextFormat = some .ll) :
    exec i s = .next { s with matchLen := matchLength sym x, awaitDist := true } := by
  rw [hi.exec]
  exact inFormat_of hs _

/-- match_len holds the base and the extra value without loss (R256). -/
theorem matchLength_toNat {sym : Nat} {x : BitVec 5} (h1 : 257 ≤ sym) (h2 : sym ≤ 285)
    (hx : x.toNat < 2 ^ lenExtra sym) :
    (matchLength sym x).toNat = lengthBase.getD (sym - 257) 0 + x.toNat := by
  have := (lengthBase_bounds h1 h2 hx).2
  exact toNat_ofNat_of_lt (by omega)

/-- match_dist holds the base and the extra value without loss (R321). -/
theorem matchDistance_toNat {c : Nat} {y : BitVec 13} (hc : c ≤ 29) (hy : y.toNat < 2 ^ distExtra c) :
    (matchDistance c y).toNat = distanceBase.getD c 0 + y.toNat := by
  have := (distanceBase_bounds hc hy).2
  exact toNat_ofNat_of_lt (by omega)

/-- The rule of a length symbol, from its table entries and its fixed code. -/
theorem lengthRule {sym base extra width code : Nat} {mk : BitVec 5 → Instr} (hlo : 257 ≤ sym)
    (hmk : lenCtors[sym - 257]? = some mk) (hbase : lengthBase.getD (sym - 257) 0 = base)
    (hextra : lenExtra sym = extra)
    (hcode : encodeSymbol (lengthsOf fixedLL) sym = some (codeBits width code)) :
    LengthRule sym base extra width code mk := by
  subst hbase hextra
  refine ⟨fun c bits n v hc h hv => ?_, fun c x rest hc ht hx => ?_, fun s x hx hs => ?_⟩
  · rw [decode_ll_of_symbol hc h, decodeLLRest_length hlo hmk, withField, hv]
  · rw [List.append_assoc, decode_fixedLL hc ht hcode, decodeLLRest_length hlo hmk, withField_fieldBits hx, ofNat_toNat,
      codeBits_length]
  · have hi := IsLength.of hlo hmk x
    exact ⟨_, matchLength_toNat hlo hi.hi hx, exec_length hi hs⟩

/-- A length symbol with a fixed code of seven bits (R110). -/
theorem lengthRule_seven {sym base extra : Nat} {mk : BitVec 5 → Instr} (hlo : 257 ≤ sym) (hhi : sym ≤ 279)
    (hmk : lenCtors[sym - 257]? = some mk) (hbase : lengthBase.getD (sym - 257) 0 = base)
    (hextra : lenExtra sym = extra) : LengthRule sym base extra 7 (sym - 256) mk :=
  lengthRule hlo hmk hbase hextra (encodeSymbol_fixedLL_seven (by omega) hhi)

/-- A length symbol with a fixed code of eight bits (R110). -/
theorem lengthRule_eight {sym base extra : Nat} {mk : BitVec 5 → Instr} (hlo : 280 ≤ sym) (hhi : sym ≤ 285)
    (hmk : lenCtors[sym - 257]? = some mk) (hbase : lengthBase.getD (sym - 257) 0 = base)
    (hextra : lenExtra sym = extra) : LengthRule sym base extra 8 (0xC0 + (sym - 280)) mk :=
  lengthRule (by omega) hmk hbase hextra (encodeSymbol_fixedLL_high hlo (by omega))

/-- Settles O29: each symbol by the rule of a length symbol. -/
theorem lengthSymbols257To268 : Obligations.LengthSymbols257To268 := by
  refine ⟨?_, ?_, ?_, ?_, ?_, ?_, ?_, ?_, ?_, ?_, ?_, ?_⟩
  all_goals exact lengthRule_seven (by decide) (by decide) rfl rfl rfl

/-- Settles O30: each symbol by the rule of a length symbol; 280 is the first with eight bits. -/
theorem lengthSymbols269To280 : Obligations.LengthSymbols269To280 := by
  refine ⟨?_, ?_, ?_, ?_, ?_, ?_, ?_, ?_, ?_, ?_, ?_, lengthRule_eight (by decide) (by decide) rfl rfl rfl⟩
  all_goals exact lengthRule_seven (by decide) (by decide) rfl rfl rfl

/-- Settles O31: each symbol by the rule of a length symbol. -/
theorem lengthSymbols281To285 : Obligations.LengthSymbols281To285 := by
  refine ⟨?_, ?_, ?_, ?_, ?_⟩
  all_goals exact lengthRule_eight (by decide) (by decide) rfl rfl rfl

/-- A distance element starts the copy, or takes DistanceTooFar (R251, 45_window_copy.md R344). -/
theorem exec_distance {i : Instr} {c : Nat} {y : BitVec 13} (hi : IsDistance i c y) {s : State}
    (hs : s.nextFormat = some .d) : exec i s = .next (s.startCopy (matchDistance c y)) := by
  rw [hi.exec]
  exact inFormat_of hs _

theorem startCopy_near {s : State} {d : BitVec 16} (h : d.toNat ≤ s.outLen) :
    s.startCopy d = entered .copy { s with matchDist := d, awaitDist := false, copyRem := s.matchLen } := by
  rw [State.startCopy, if_neg (Nat.not_lt.mpr h), goto_eq_entered rfl]

theorem startCopy_far {s : State} (he : s.error = false) {d : BitVec 16} (h : s.outLen < d.toNat) :
    s.startCopy d = raised 6 { s with matchDist := d, awaitDist := false } := by
  rw [State.startCopy, if_pos h, raise_eq_raised (s := { s with matchDist := d, awaitDist := false }) he]
  rfl

/-- The rule of a distance code, from its table entries; its fixed code is its number (R111). -/
theorem distanceRule {code base extra : Nat} {mk : BitVec 13 → Instr} (hmk : distCtors[code]? = some mk)
    (hbase : distanceBase.getD code 0 = base) (hextra : distExtra code = extra) :
    DistanceRule code base extra code mk := by
  subst hbase hextra
  have hle : code ≤ 29 := (IsDistance.of hmk 0).hi
  refine ⟨fun c bits n v hc h hv => ?_, fun c y rest hc ht hy => ?_, fun s y hy hs => ?_⟩
  · rw [decode_d_of_symbol hc h, decodeDistRest_distance hmk, withField, hv]
  · rw [List.append_assoc, decode_fixedD hc ht (by omega), decodeDistRest_distance hmk, withField_fieldBits hy,
      ofNat_toNat]
  · have hexec := exec_distance (IsDistance.of hmk y) hs
    exact ⟨_, matchDistance_toNat hle hy, fun hnear => hexec.trans (congrArg _ (startCopy_near hnear)),
      fun hfar => hexec.trans (congrArg _ (startCopy_far (nextFormat_some hs).1 hfar))⟩

/-- Settles O32: each code by the rule of a distance code. -/
theorem distanceCodes0To11 : Obligations.DistanceCodes0To11 := by
  refine ⟨?_, ?_, ?_, ?_, ?_, ?_, ?_, ?_, ?_, ?_, ?_, ?_⟩
  all_goals exact distanceRule rfl rfl rfl

/-- Settles O33: each code by the rule of a distance code. -/
theorem distanceCodes12To23 : Obligations.DistanceCodes12To23 := by
  refine ⟨?_, ?_, ?_, ?_, ?_, ?_, ?_, ?_, ?_, ?_, ?_, ?_⟩
  all_goals exact distanceRule rfl rfl rfl

/-- Settles O34: each code by the rule of a distance code. -/
theorem distanceCodes24To29 : Obligations.DistanceCodes24To29 := by
  refine ⟨?_, ?_, ?_, ?_, ?_, ?_⟩
  all_goals exact distanceRule rfl rfl rfl

end Sys2Proof.Proofs

/-! What each element leaves unchanged (10_state.md, section 9). -/

namespace Sys2Proof.Proofs

open Sys2Proof.Machine
open Sys2Proof.Says

/-- What lies outside the block's control registers: window, output, reader, the neighbours' levels, and the model's
counter of free values. -/
structure Outside where
  win : Memory
  wrPtr : BitVec 15
  histCnt : BitVec 16
  outLen : Nat
  out : List Byte
  outData : Byte
  outValid : Bool
  rd : Reader
  outReady : Bool
  rst : Bool
  rstEdge : Bool
  freeCtr : Nat

/-- The part of a state outside its control registers. -/
def outside (s : State) : Outside where
  win := s.win
  wrPtr := s.wrPtr
  histCnt := s.histCnt
  outLen := s.outLen
  out := s.out
  outData := s.outData
  outValid := s.outValid
  rd := s.rd
  outReady := s.outReady
  rst := s.rst
  rstEdge := s.rstEdge
  freeCtr := s.freeCtr

theorem outside_closeCllens (s : State) : outside s.closeCllens = outside s := by
  unfold State.closeCllens
  split
  · split <;> rfl
  · rfl

theorem outside_buildTables (s : State) : outside s.buildTables = outside s := by
  unfold State.buildTables
  split
  · split <;> rfl
  · rfl

theorem outside_putLens {s t : State} {n : Nat} {v : BitVec 4} (h : s.putLens n v = .next t) :
    outside t = outside s := by
  obtain ⟨-, h⟩ | ⟨-, h⟩ := (putLens_next h).2
  · rw [h, outside_buildTables]; rfl
  · rw [h]; rfl

theorem outside_repeatLens {s t : State} {r : BitVec 8} {v : Option (BitVec 4)} (h : s.repeatLens r v = .next t) :
    outside t = outside s := by
  obtain ⟨-, rfl⟩ | ⟨-, p, -, hput⟩ := repeatLens_next h
  · rfl
  · exact outside_putLens hput

theorem outside_startCopy (d : BitVec 16) (s : State) : outside (s.startCopy d) = outside s := by
  unfold State.startCopy
  dsimp only
  split <;> rfl

/-- What CLLEN can do (R227). -/
theorem exec_cllen_next {s t : State} {v : BitVec 3} (h : exec (.cllen v) s = .next t) :
    ∃ p, clOrder[s.clIdx.toNat]? = some p ∧ p < s.clLens.length ∧
      t = State.closeCllens { s with clLens := s.clLens.set p v, clIdx := s.clIdx + 1 } := by
  have h := (inFormat_next h).2
  split at h
  · cases h
  · rename_i p hp
    split at h
    · rename_i hlt
      cases h
      exact ⟨p, hp, hlt, rfl⟩
    · cases h

/-- What CL_REP can do (R236). -/
theorem exec_clRep_next {s t : State} {r : BitVec 8} (h : exec (.clRep r) s = .next t) :
    s.havePrev = true ∧ s.repeatLens r s.lens[s.lenIdx.toNat - 1]? = .next t ∨
      s.havePrev = false ∧ t = s.raise .noPreviousLength := by
  have h := (inFormat_next h).2
  split at h
  · exact .inl ⟨‹_›, h⟩
  · rename_i hp
    cases h
    exact .inr ⟨by simpa using hp, rfl⟩

/-- What STORED_HDR can do (R203). -/
theorem exec_storedHdr_next {s t : State} {len nlen : BitVec 16} (h : exec (.storedHdr len nlen) s = .next t) :
    t = State.endOfBlock { s with storedRem := len } ∨
      len ≠ 0 ∧ t = State.goto .storedCopy { s with storedRem := len } ∨
        t = s.raise .wrongUncompressedBlockLengths := by
  have h := (inFormat_next h).2
  split at h
  · split at h <;> cases h
    · exact .inl rfl
    · exact .inr (.inl ⟨‹_›, rfl⟩)
  · cases h
    exact .inr (.inr rfl)

/-- What STORED_BYTE can do (R204). -/
theorem exec_storedByte_next {s t : State} {b : Byte} (h : exec (.storedByte b) s = .next t) :
    s.nextFormat = some .stData ∧ s.storedRem ≠ 0 ∧
      (s.outValid = true ∧ t = s ∨ s.outValid = false ∧ t = (s.emit b).storedOne) := by
  obtain ⟨hs, h⟩ := inFormat_next h
  split at h
  · cases h
  · exact ⟨hs, ‹_›, whenPortFree_next h⟩

/-- What LIT can do (R252). -/
theorem exec_lit_next {s t : State} {b : Byte} (h : exec (.lit b) s = .next t) :
    s.outValid = true ∧ t = s ∨ s.outValid = false ∧ t = s.emit b := whenPortFree_next (inFormat_next h).2

/-- Only LIT and STORED_BYTE emit (R382). -/
theorem emits_cases {i : Instr} (h : i.emits = true) : (∃ b, i = .lit b) ∨ ∃ b, i = .storedByte b := by
  induction i using Instr.byShape
  case lit b => exact .inl ⟨b, rfl⟩
  case storedByte b => exact .inr ⟨b, rfl⟩
  case length i sym x hi => rw [hi.emits] at h; cases h
  case distance i c y hi => rw [hi.emits] at h; cases h
  all_goals cases h

/-- An element that does not emit changes control registers only. -/
theorem outside_exec {i : Instr} {s t : State} (he : i.emits = false) (h : exec i s = .next t) :
    outside t = outside s := by
  induction i using Instr.byShape
  case storedHdr len nlen => obtain rfl | ⟨-, rfl⟩ | rfl := exec_storedHdr_next h <;> rfl
  case storedByte b => cases he
  case lit b => cases he
  case cllen v =>
    obtain ⟨p, -, -, rfl⟩ := exec_cllen_next h
    rw [outside_closeCllens]; rfl
  case clLen n => exact outside_putLens (inFormat_next h).2
  case clRep r =>
    obtain ⟨-, h⟩ | ⟨-, rfl⟩ := exec_clRep_next h
    · exact outside_repeatLens h
    · rfl
  case clZero3 r => exact outside_repeatLens (inFormat_next h).2
  case clZero11 r => exact outside_repeatLens (inFormat_next h).2
  case length i sym x hi =>
    rw [hi.exec] at h
    cases (inFormat_next h).2
    rfl
  case distance i c y hi =>
    rw [hi.exec] at h
    cases (inFormat_next h).2
    exact outside_startCopy _ s
  all_goals
    cases (inFormat_next h).2
    rfl

/-- Settles O41: the frame of `outside_exec`. -/
theorem frameOfNonEmitting : Obligations.FrameOfNonEmitting := by
  intro i s t hi h
  have io := outside_exec hi h
  have hwin : t.win = s.win := congrArg Outside.win io
  exact ⟨fun a => by rw [hwin], congrArg Outside.wrPtr io, congrArg Outside.histCnt io, congrArg Outside.outLen io,
    congrArg Outside.out io, congrArg Outside.outData io, congrArg Outside.outValid io, congrArg Outside.rd io,
    congrArg Outside.outReady io, congrArg Outside.rst io, congrArg Outside.rstEdge io, congrArg Outside.freeCtr io⟩

/-- s with the window, the output, stored_rem, the phase and the status of t. -/
def outputRegistersOf (t s : State) : State :=
  { s with
    win := t.win, wrPtr := t.wrPtr, histCnt := t.histCnt, outLen := t.outLen, out := t.out, outData := t.outData,
    outValid := t.outValid, storedRem := t.storedRem, phase := t.phase, busy := t.busy, done := t.done }

theorem storedOne_eq_outputRegistersOf (s : State) :
    s.storedOne = outputRegistersOf s.storedOne s ∧ s.storedOne.win = s.win ∧ s.storedOne.out = s.out := by
  unfold State.storedOne
  split <;> exact ⟨rfl, rfl, rfl⟩

/-- Settles O42: LIT is Emit, STORED_BYTE is Emit and the count; either may wait. -/
theorem frameOfEmitting : Obligations.FrameOfEmitting := by
  intro i s t hi h
  obtain ⟨b, rfl⟩ | ⟨b, rfl⟩ := emits_cases hi
  · obtain ⟨-, rfl⟩ | ⟨-, rfl⟩ := exec_lit_next h
    · simp
    · refine ⟨fun a ha => ?_, fun k hk => List.getElem?_append_left hk, ?_⟩
      · rw [State.emit_win_read, if_neg ha]
      · simp
  · obtain ⟨hs, -, ⟨-, rfl⟩ | ⟨-, rfl⟩⟩ := exec_storedByte_next h
    · simp
    · obtain ⟨hone, hwin, hout⟩ := storedOne_eq_outputRegistersOf (s.emit b)
      refine ⟨fun a ha => ?_, fun k hk => ?_, ?_⟩
      · rw [hwin, State.emit_win_read, if_neg ha]
      · rw [hout]
        exact List.getElem?_append_left hk
      · rw [hone]
        exact ⟨rfl, rfl, rfl, rfl, rfl, rfl, rfl, rfl, rfl, rfl, rfl, rfl, rfl, rfl, rfl, rfl, rfl, rfl, rfl, rfl, rfl,
          rfl, rfl, .inr (nextFormat_some hs).2.1⟩

end Sys2Proof.Proofs

/-! The invariant (10_state.md; 20_memory.md; 45_window_copy.md R349): every element keeps it, and none stops under
it. -/

namespace Sys2Proof.Proofs

open Sys2Proof.Machine
open Sys2Proof.Says

/-! ### The invariant without its phase -/

/-- What the invariant says of a state without a fault, whatever its phase. -/
structure Sound (s : State) : Prop where
  reader : s.rd.Inv
  window : s.WindowInv
  tables : s.TablesInv
  edge : s.EdgeInv
  error : s.error = false
  code : s.errCode = 0

theorem Sound.of_inv {s : State} (h : s.Inv) (he : s.error = false) : Sound s :=
  ⟨h.reader, h.window, h.tables, h.edge, he, h.status.code_none he⟩

theorem windowInv_of_outside {s t : State} (h : outside t = outside s) (hw : s.WindowInv) : t.WindowInv := by
  have hwin : t.win = s.win := congrArg Outside.win h
  have hptr : t.wrPtr = s.wrPtr := congrArg Outside.wrPtr h
  have hhist : t.histCnt = s.histCnt := congrArg Outside.histCnt h
  have hlen : t.outLen = s.outLen := congrArg Outside.outLen h
  have hout : t.out = s.out := congrArg Outside.out h
  refine ⟨?_, ?_, ?_, ?_, ?_⟩
  · rw [hwin]; exact hw.wf
  · rw [hptr, hlen]; exact hw.ptr
  · rw [hhist, hlen]; exact hw.hist
  · rw [hout, hlen]; exact hw.len
  · rw [hlen, hwin, hptr, hout]; exact hw.cells

theorem edgeInv_of_outside {s t : State} (h : outside t = outside s) (he : s.EdgeInv) : t.EdgeInv := by
  have hrst : t.rst = s.rst := congrArg Outside.rst h
  have hedge : t.rstEdge = s.rstEdge := congrArg Outside.rstEdge h
  have hrd : t.rd = s.rd := congrArg Outside.rd h
  exact ⟨by rw [hrst, hedge]; exact he.rst, by rw [hedge, hrd]; exact he.reader⟩

/-- Control registers may change as long as the tables stay in order and no fault is taken. -/
theorem Sound.of_outside {s t : State} (h : Sound s) (ho : outside t = outside s) (ht : t.TablesInv)
    (he : t.error = s.error) (hc : t.errCode = s.errCode) : Sound t := by
  have hrd : t.rd = s.rd := congrArg Outside.rd ho
  exact ⟨hrd ▸ h.reader, windowInv_of_outside ho h.window, ht, edgeInv_of_outside ho h.edge, he.trans h.error,
    hc.trans h.code⟩

theorem edgeInv_of_no_edge {s : State} (h : s.rstEdge = false) : s.EdgeInv :=
  ⟨fun hc => absurd (h.symm.trans hc) (by decide), fun hc => absurd (h.symm.trans hc) (by decide)⟩

/-- A change of phase settles the status. -/
theorem goto_inv {s : State} (h : Sound s) {p : Phase} (hp : p ≠ .error) (hph : (s.goto p).PhaseInv) :
    (s.goto p).Inv := by
  refine ⟨h.reader, windowInv_of_outside (s := s) rfl h.window, ⟨?_, fun _ => h.code, fun he => ?_, rfl, rfl⟩,
    ⟨h.tables.clLens, h.tables.lens, h.tables.tCL, h.tables.tLL, h.tables.tD⟩, hph,
    edgeInv_of_outside (s := s) rfl h.edge⟩
  · rw [State.goto_error, h.error, State.goto_phase, decide_eq_false hp]
  · exact absurd (h.error.symm.trans he) (by decide)

theorem errCodeOf_bounds (k : ErrKind) : 1 ≤ (errCodeOf k).toNat ∧ (errCodeOf k).toNat ≤ 9 := by
  cases k <;> decide

/-- What the phase asks of the registers in ERROR: only that a length already decoded is one. -/
theorem phaseInv_error {s : State} (hp : s.phase = .error)
    (hlen : s.awaitDist = true → 3 ≤ s.matchLen.toNat ∧ s.matchLen.toNat ≤ 258) : s.PhaseInv := by
  refine ⟨fun h => ?_, fun h => ?_, fun h => ?_, fun h => ?_, fun h => ?_, fun _ => .inr hp, hlen, fun h => ?_⟩ <;>
    simp [hp] at h

/-- A fault taken (60_exceptions.md R377). -/
theorem raise_inv {s : State} (h : Sound s) (k : ErrKind)
    (hlen : s.awaitDist = true → 3 ≤ s.matchLen.toNat ∧ s.matchLen.toNat ≤ 258) : (s.raise k).Inv := by
  refine ⟨h.reader, windowInv_of_outside (s := s) rfl h.window, ⟨rfl, nofun, fun _ => ?_, rfl, rfl⟩,
    ⟨h.tables.clLens, h.tables.lens, h.tables.tCL, h.tables.tLL, h.tables.tD⟩, phaseInv_error rfl hlen,
    edgeInv_of_outside (s := s) rfl h.edge⟩
  rw [State.raise_errCode_first k s h.error]
  exact errCodeOf_bounds k

/-- The phases that ask nothing of the registers, no length being decoded. -/
theorem phaseInv_free {s : State} (hp : s.phase = .header ∨ s.phase = .dynCounts ∨ s.phase = .symbol ∨ s.phase = .done)
    (ha : ¬ s.awaitDist = true) : s.PhaseInv := by
  obtain hp | hp | hp | hp := hp <;>
    refine ⟨fun h => ?_, fun h => ?_, fun h => ?_, fun h => ?_, fun h => ?_, fun h => ?_, fun h => ?_, fun h => ?_⟩ <;>
      simp [hp, ha] at h

/-- EndOfBlock enters HEADER or DONE. -/
theorem endOfBlock_inv {s : State} (h : Sound s) (ha : ¬ s.awaitDist = true) : s.endOfBlock.Inv := by
  unfold State.endOfBlock
  cases s.bfinal
  · exact goto_inv h (by decide) (phaseInv_free (.inl rfl) ha)
  · exact goto_inv h (by decide) (phaseInv_free (.inr (.inr (.inr rfl))) ha)

/-- A length stands decoded only where a distance code is asked for (44_symbols.md R323). -/
theorem not_awaitDist {s : State} (h : s.PhaseInv) {f : Format} (hf : s.nextFormat = some f) (hd : f ≠ .d) :
    ¬ s.awaitDist = true := by
  intro ha
  obtain ⟨-, hp, hll, -⟩ := nextFormat_some hf
  by_cases hf' : f = .ll
  · exact absurd (ha.symm.trans (hll hf')) (by decide)
  · have hsym := h.await ha
    rw [hp] at hsym
    cases f <;> simp_all [phaseOf]

/-! ### Emit -/

theorem windowInv_emit {s : State} (h : s.WindowInv) (b : Byte) : (s.emit b).WindowInv := by
  obtain ⟨wf, ptr, hist, len, cells⟩ := h
  have hp : (s.wrPtr + 1).toNat = (s.wrPtr.toNat + 1) % 32768 := by rw [BitVec.toNat_add]; rfl
  refine ⟨State.emit_win_wf wf b, ?_, ?_, ?_, fun d h1 h2 => ?_⟩
  · rw [State.emit_wrPtr, State.emit_outLen, hp, ptr]; omega
  · rw [State.emit_histCnt, State.emit_outLen, Config.windowSize, toNat_ofNat_of_lt (by omega), hist]; omega
  · rw [State.emit_out, State.emit_outLen, List.length_append, len]; rfl
  · have hlt := s.wrPtr.isLt
    rw [State.emit_outLen] at h2
    rw [State.emit_win_read, State.emit_wrPtr, State.emit_out, State.emit_outLen, hp]
    by_cases hd : d = 1
    · subst hd
      rw [if_pos (by omega), List.getElem?_append_right (by omega)]
      simp [len]
    · have hcell := cells (d - 1) (by omega) (by omega)
      rw [if_neg (by omega), List.getElem?_append_left (by omega), show s.outLen + 1 - d = s.outLen - (d - 1) by omega,
        ← hcell]
      congr 1
      omega

/-- Emit keeps the invariant. -/
theorem emit_inv {s : State} (h : s.Inv) (b : Byte) : (s.emit b).Inv := by
  obtain ⟨hr, hw, hs, ht, hp, he⟩ := h
  refine ⟨hr, windowInv_emit hw b, ⟨hs.error_iff, hs.code_none, hs.code_some, rfl, rfl⟩,
    ⟨ht.clLens, ht.lens, ht.tCL, ht.tLL, ht.tD⟩,
    ⟨hp.storedLen, hp.storedCopy, hp.counts, hp.dynCllens, hp.dynLens, hp.await, hp.length, fun hc => ?_⟩,
    ⟨he.rst, he.reader⟩⟩
  obtain ⟨h1, h2, h3, h4, h5⟩ := hp.copy hc
  exact ⟨h1, h2, h3, h4, Nat.le_succ_of_le h5⟩

/-! ### The elements keep the invariant -/

section Elements
variable {s t : State} (h : s.Inv)
include h

/-- A state that asks for an element has taken no fault. -/
theorem sound_of_format {f : Format} (hf : s.nextFormat = some f) : Sound s := Sound.of_inv h (nextFormat_some hf).1

/-- Outside SYMBOL there is no length whose range a fault has to keep. -/
theorem raise_of_no_length {f : Format} (hf : s.nextFormat = some f) (hd : f ≠ .d) (k : ErrKind) : (s.raise k).Inv :=
  raise_inv (sound_of_format h hf) k fun ha => absurd ha (not_awaitDist h.phase hf hd)

theorem sound_openBlock (hf : s.nextFormat = some .bh) (f : Bool) (b : BitVec 2) : Sound (s.openBlock f b) :=
  (sound_of_format h hf).of_outside rfl
    ⟨h.tables.clLens, h.tables.lens, h.tables.tCL, h.tables.tLL, h.tables.tD⟩ rfl rfl

theorem inv_blockStored (hf : s.nextFormat = some .bh) (hheld : s.rd.held = []) (f : Bool) :
    ((s.openBlock f 0).goto .storedLen).Inv := by
  have ha := not_awaitDist h.phase hf (by decide)
  refine goto_inv (sound_openBlock h hf f 0) (by decide)
    ⟨fun _ => ?_, nofun, fun hc => ?_, nofun, nofun, fun hc => absurd hc ha, fun hc => absurd hc ha, nofun⟩
  · simp [hheld]
  · simp at hc

theorem inv_blockFixed (hf : s.nextFormat = some .bh) (f : Bool) :
    (State.goto .symbol { s.openBlock f 1 with tLL := fixedLL, tD := fixedD }).Inv := by
  have ha := not_awaitDist h.phase hf (by decide)
  have hsound : Sound { s.openBlock f 1 with tLL := fixedLL, tD := fixedD } := (sound_of_format h hf).of_outside rfl
    ⟨h.tables.clLens, h.tables.lens, h.tables.tCL, Tests.fixed_ll_buildable, Tests.fixed_d_buildable⟩ rfl rfl
  exact goto_inv hsound (by decide) (phaseInv_free (.inr (.inr (.inl rfl))) ha)

theorem inv_blockDynamic (hf : s.nextFormat = some .bh) (f : Bool) : ((s.openBlock f 2).goto .dynCounts).Inv := by
  have ha := not_awaitDist h.phase hf (by decide)
  exact goto_inv (sound_openBlock h hf f 2) (by decide) (phaseInv_free (.inr (.inl rfl)) ha)

theorem inv_blockReserved (hf : s.nextFormat = some .bh) (f : Bool) :
    ((s.openBlock f 3).raise .wrongBlockType).Inv := by
  have ha := not_awaitDist h.phase hf (by decide)
  exact raise_inv (sound_openBlock h hf f 3) _ fun hc => absurd hc ha

theorem inv_storedHdr (hheld : s.rd.held = []) (halign : s.phase = .storedLen → s.rd.brBit = 0) {len nlen : BitVec 16}
    (ht : exec (.storedHdr len nlen) s = .next t) : t.Inv := by
  have hf : s.nextFormat = some .stHdr := (inFormat_next ht).1
  have ha := not_awaitDist h.phase hf (by decide)
  have hsound : Sound { s with storedRem := len } := (sound_of_format h hf).of_outside rfl
    ⟨h.tables.clLens, h.tables.lens, h.tables.tCL, h.tables.tLL, h.tables.tD⟩ rfl rfl
  obtain rfl | ⟨hne, rfl⟩ | rfl := exec_storedHdr_next ht
  · exact endOfBlock_inv hsound ha
  · refine goto_inv hsound (by decide) ⟨nofun, fun _ => ⟨hne, halign (nextFormat_some hf).2.1, by simp [hheld]⟩,
      fun hc => ?_, nofun, nofun, fun hc => absurd hc ha,
      fun hc => absurd hc ha, nofun⟩
    simp at hc
  · exact raise_of_no_length h hf (by decide) _

theorem inv_storedOne (hf : s.nextFormat = some .stData) : s.storedOne.Inv := by
  have ha := not_awaitDist h.phase hf (by decide)
  have htab : s.TablesInv := h.tables
  have hsound : ∀ r, Sound { s with storedRem := r } := fun r => (sound_of_format h hf).of_outside rfl
    ⟨htab.clLens, htab.lens, htab.tCL, htab.tLL, htab.tD⟩ rfl rfl
  unfold State.storedOne
  split
  · exact endOfBlock_inv (hsound _) ha
  · rename_i hmore
    have hs := hsound (s.storedRem - 1)
    have hp := h.phase
    refine ⟨hs.reader, hs.window,
      ⟨h.status.error_iff, h.status.code_none, h.status.code_some, h.status.busy, h.status.done⟩, hs.tables,
      ⟨hp.storedLen, fun hc => ⟨hmore, (hp.storedCopy hc).2⟩, hp.counts, hp.dynCllens, hp.dynLens, hp.await, hp.length,
        hp.copy⟩, hs.edge⟩

theorem inv_storedByte {b : Byte} (ht : exec (.storedByte b) s = .next t) : t.Inv := by
  obtain ⟨hf, -, ⟨-, rfl⟩ | ⟨-, rfl⟩⟩ := exec_storedByte_next ht
  · exact h
  · exact inv_storedOne (emit_inv h b) hf

theorem inv_dynCounts (hf : s.nextFormat = some .dhCounts) {hlit : BitVec 9} {hdist : BitVec 6} {hclen : BitVec 5}
    (hwf : (Instr.dynCounts hlit hdist hclen).wellFormed = true) :
    (State.goto .dynCllens
      { s with
        hlit := hlit, hdist := hdist, hclen := hclen, clLens := List.replicate Config.nCL 0, clIdx := 0
        lenIdx := 0 }).Inv := by
  obtain ⟨h12, h3⟩ := Laws.SelectsRow.and_of hwf
  obtain ⟨h1, h2⟩ := Laws.SelectsRow.and_of h12
  have h1 := Laws.SelectsRow.range_of h1
  have h2 := Laws.SelectsRow.range_of h2
  have h3 := Laws.SelectsRow.range_of h3
  have ha := not_awaitDist h.phase hf (by decide)
  have hsound : Sound { s with
      hlit := hlit, hdist := hdist, hclen := hclen, clLens := List.replicate Config.nCL 0, clIdx := 0, lenIdx := 0 } :=
    (sound_of_format h hf).of_outside rfl
      ⟨List.length_replicate, h.tables.lens, h.tables.tCL, h.tables.tLL, h.tables.tD⟩ rfl rfl
  refine goto_inv hsound (by decide)
    ⟨nofun, nofun, fun _ => ⟨h1.1, h1.2, h2.1, h2.2⟩, fun _ => ⟨?_, h3.2, rfl⟩, nofun,
      fun hc => absurd hc ha, fun hc => absurd hc ha, nofun⟩
  exact Nat.lt_of_lt_of_le (by decide : (0 : BitVec 5).toNat < 4) h3.1

theorem inv_cllen {v : BitVec 3} (ht : exec (.cllen v) s = .next t) : t.Inv := by
  have hf : s.nextFormat = some .dhCllen := (inFormat_next ht).1
  have hphase : s.phase = .dynCllens := (nextFormat_some hf).2.1
  have ha := not_awaitDist h.phase hf (by decide)
  obtain ⟨hidx, hmax, hlen0⟩ := h.phase.dynCllens hphase
  have hcounts := h.phase.counts (.inl hphase)
  obtain ⟨p, -, -, rfl⟩ := exec_cllen_next ht
  have hsucc : (s.clIdx + 1).toNat = s.clIdx.toNat + 1 := by bv_omega
  have hset : (s.clLens.set p v).length = 19 := by rw [List.length_set]; exact h.tables.clLens
  have hsound : Sound { s with clLens := s.clLens.set p v, clIdx := s.clIdx + 1 } :=
    (sound_of_format h hf).of_outside rfl
      ⟨hset, h.tables.lens, h.tables.tCL, h.tables.tLL, h.tables.tD⟩ rfl rfl
  unfold State.closeCllens
  split
  · split
    · rename_i hok
      have hsound' : Sound { s with
          clLens := s.clLens.set p v, clIdx := s.clIdx + 1, tCL := s.clLens.set p v } :=
        hsound.of_outside rfl ⟨hset, h.tables.lens, hok, h.tables.tLL, h.tables.tD⟩ rfl rfl
      refine goto_inv hsound' (by decide)
        ⟨nofun, nofun, fun _ => hcounts, nofun, fun _ => ?_, fun hc => absurd hc ha,
          fun hc => absurd hc ha, nofun⟩
      show s.lenIdx.toNat < s.hlit.toNat + s.hdist.toNat
      rw [hlen0]
      exact Nat.lt_of_lt_of_le (by decide : (0 : BitVec 9).toNat < 257) (hcounts.1.trans (Nat.le_add_right _ _))
    · exact raise_inv hsound _ fun hc => absurd hc ha
  · rename_i hmore
    have hlt : (s.clIdx + 1).toNat < s.hclen.toNat := by
      have : (s.clIdx + 1).toNat ≠ s.hclen.toNat := fun hc => hmore (BitVec.eq_of_toNat_eq hc)
      omega
    have hp := h.phase
    exact ⟨hsound.reader, hsound.window,
      ⟨h.status.error_iff, h.status.code_none, h.status.code_some, h.status.busy, h.status.done⟩, hsound.tables,
      ⟨hp.storedLen, hp.storedCopy, hp.counts, fun _ => ⟨hlt, hmax, hlen0⟩, hp.dynLens, hp.await, hp.length, hp.copy⟩,
      hsound.edge⟩

theorem inv_putLens (hf : s.nextFormat = some .cls) {n : Nat} {v : BitVec 4} (hfit : s.lenIdx.toNat + n ≤ s.lensTotal)
    (ht : s.putLens n v = .next t) : t.Inv := by
  have hphase : s.phase = .dynLens := (nextFormat_some hf).2.1
  have ha := not_awaitDist h.phase hf (by decide)
  have hcounts := h.phase.counts (.inr hphase)
  obtain ⟨hin, hcase⟩ := putLens_next ht
  have hfill : (fillLens s.lens s.lenIdx.toNat n v).length = 320 := (fillLens_length hin).trans h.tables.lens
  have hsound : Sound { s with
      lens := fillLens s.lens s.lenIdx.toNat n v, lenIdx := BitVec.ofNat 9 (s.lenIdx.toNat + n) } :=
    (sound_of_format h hf).of_outside rfl ⟨h.tables.clLens, hfill, h.tables.tCL, h.tables.tLL, h.tables.tD⟩ rfl rfl
  obtain ⟨-, ht⟩ | ⟨hmore, ht⟩ := hcase
  · have hfull : ∀ ll d, buildable (lengthsOf ll) = true → buildable (lengthsOf d) = true → Sound { s with
        lens := fillLens s.lens s.lenIdx.toNat n v, lenIdx := BitVec.ofNat 9 (s.lenIdx.toNat + n), tLL := ll
        tD := d } :=
      fun ll d hll hd => hsound.of_outside rfl ⟨h.tables.clLens, hfill, h.tables.tCL, hll, hd⟩ rfl rfl
    rw [ht]
    unfold State.buildTables
    split
    · rename_i hll
      split
      · rename_i hd
        exact goto_inv (hfull _ _ hll hd) (by decide) (phaseInv_free (.inr (.inr (.inl rfl))) ha)
      · exact raise_inv (hfull _ s.tD hll h.tables.tD) _ fun hc => absurd hc ha
    · exact raise_inv hsound _ fun hc => absurd hc ha
  · have hidx : (BitVec.ofNat 9 (s.lenIdx.toNat + n)).toNat = s.lenIdx.toNat + n :=
      toNat_ofNat_of_lt (by have := h.tables.lens; omega)
    have hp := h.phase
    rw [ht]
    refine ⟨hsound.reader, hsound.window,
      ⟨h.status.error_iff, h.status.code_none, h.status.code_some, h.status.busy, h.status.done⟩, hsound.tables,
      ⟨hp.storedLen, hp.storedCopy, hp.counts, fun hc => absurd (hphase.symm.trans hc) (by decide), fun _ => ?_,
        hp.await, hp.length, hp.copy⟩, hsound.edge⟩
    show (BitVec.ofNat 9 (s.lenIdx.toNat + n)).toNat < s.lensTotal
    omega

theorem inv_repeatLens (hf : s.nextFormat = some .cls) {r : BitVec 8} {v : Option (BitVec 4)}
    (ht : s.repeatLens r v = .next t) : t.Inv := by
  obtain ⟨-, rfl⟩ | ⟨hfit, p, -, hput⟩ := repeatLens_next ht
  · exact raise_of_no_length h hf (by decide) _
  · exact inv_putLens h hf hfit hput

theorem inv_length {i : Instr} {sym : Nat} {x : BitVec 5} (hi : IsLength i sym x) (hwf : i.wellFormed = true)
    (hf : s.nextFormat = some .ll) : ({ s with matchLen := matchLength sym x, awaitDist := true } : State).Inv := by
  have hx : x.toNat < 2 ^ lenExtra sym := of_decide_eq_true (hi.wellFormed ▸ hwf)
  have hbounds := lengthBase_bounds hi.lo hi.hi hx
  rw [← matchLength_toNat hi.lo hi.hi hx] at hbounds
  have hs := sound_of_format h hf
  have hp := h.phase
  have htab := h.tables
  exact ⟨hs.reader, windowInv_of_outside (s := s) rfl hs.window,
    ⟨h.status.error_iff, h.status.code_none, h.status.code_some, h.status.busy, h.status.done⟩,
    ⟨htab.clLens, htab.lens, htab.tCL, htab.tLL, htab.tD⟩,
    ⟨hp.storedLen, hp.storedCopy, hp.counts, hp.dynCllens, hp.dynLens, fun _ => .inl (nextFormat_some hf).2.1,
      fun _ => hbounds, hp.copy⟩, edgeInv_of_outside (s := s) rfl hs.edge⟩

theorem inv_distance {i : Instr} {c : Nat} {y : BitVec 13} (hi : IsDistance i c y) (hwf : i.wellFormed = true)
    (hf : s.nextFormat = some .d) : (s.startCopy (matchDistance c y)).Inv := by
  have hy : y.toNat < 2 ^ distExtra c := of_decide_eq_true (hi.wellFormed ▸ hwf)
  have hbounds := distanceBase_bounds hi.hi hy
  rw [← matchDistance_toNat hi.hi hy] at hbounds
  have hlen := h.phase.length ((nextFormat_some hf).2.2.2 rfl)
  have htab := h.tables
  have hsound : ∀ r, Sound { s with matchDist := matchDistance c y, awaitDist := false, copyRem := r } := fun r =>
    (sound_of_format h hf).of_outside rfl ⟨htab.clLens, htab.lens, htab.tCL, htab.tLL, htab.tD⟩ rfl rfl
  unfold State.startCopy
  dsimp only
  split
  · exact raise_inv (hsound s.copyRem) _ nofun
  · rename_i hnear
    refine goto_inv (hsound s.matchLen) (by decide)
      ⟨nofun, nofun, fun hc => ?_, nofun, nofun, nofun, nofun, fun _ => ⟨?_, hlen.2, hbounds.1, hbounds.2, ?_⟩⟩
    · simp at hc
    · show s.matchLen ≠ 0
      rintro hz
      rw [hz] at hlen
      exact absurd hlen.1 (by decide)
    · exact Nat.not_lt.mp hnear

theorem inv_distInvalid (hf : s.nextFormat = some .d) :
    (State.raise .wrongSymbol { s with awaitDist := false }).Inv := by
  have htab := h.tables
  have hsound : Sound { s with awaitDist := false } :=
    (sound_of_format h hf).of_outside rfl ⟨htab.clLens, htab.lens, htab.tCL, htab.tLL, htab.tD⟩ rfl rfl
  exact raise_inv hsound _ nofun

/-- A well-formed element, its bits consumed, keeps the invariant. -/
theorem exec_inv {i : Instr} (hwf : i.wellFormed = true) (hheld : s.rd.held = [])
    (halign : s.phase = .storedLen → s.rd.brBit = 0) (ht : exec i s = .next t) : t.Inv := by
  induction i using Instr.byShape
  case blockStored f =>
    obtain ⟨hf, ht⟩ := inFormat_next ht
    cases ht
    exact inv_blockStored h hf hheld f
  case blockFixed f =>
    obtain ⟨hf, ht⟩ := inFormat_next ht
    cases ht
    exact inv_blockFixed h hf f
  case blockDynamic f =>
    obtain ⟨hf, ht⟩ := inFormat_next ht
    cases ht
    exact inv_blockDynamic h hf f
  case blockReserved f =>
    obtain ⟨hf, ht⟩ := inFormat_next ht
    cases ht
    exact inv_blockReserved h hf f
  case storedHdr len nlen => exact inv_storedHdr h hheld halign ht
  case storedByte b => exact inv_storedByte h ht
  case dynCounts hlit hdist hclen =>
    obtain ⟨hf, ht⟩ := inFormat_next ht
    cases ht
    exact inv_dynCounts h hf hwf
  case cllen v => exact inv_cllen h ht
  case clLen n =>
    obtain ⟨hf, ht⟩ := inFormat_next ht
    exact inv_putLens h hf (h.phase.dynLens (nextFormat_some hf).2.1) ht
  case clRep r =>
    have hf : s.nextFormat = some .cls := (inFormat_next ht).1
    obtain ⟨-, ht⟩ | ⟨-, rfl⟩ := exec_clRep_next ht
    · exact inv_repeatLens h hf ht
    · exact raise_of_no_length h hf (by decide) _
  case clZero3 r =>
    obtain ⟨hf, ht⟩ := inFormat_next ht
    exact inv_repeatLens h hf ht
  case clZero11 r =>
    obtain ⟨hf, ht⟩ := inFormat_next ht
    exact inv_repeatLens h hf ht
  case lit b =>
    obtain ⟨-, rfl⟩ | ⟨-, rfl⟩ := exec_lit_next ht
    exacts [h, emit_inv h b]
  case eob =>
    obtain ⟨hf, ht⟩ := inFormat_next ht
    cases ht
    exact endOfBlock_inv (sound_of_format h hf) (not_awaitDist h.phase hf (by decide))
  case llInvalid v =>
    obtain ⟨hf, ht⟩ := inFormat_next ht
    cases ht
    exact raise_of_no_length h hf (by decide) _
  case distInvalid v =>
    obtain ⟨hf, ht⟩ := inFormat_next ht
    cases ht
    exact inv_distInvalid h hf
  case length i sym x hi =>
    rw [hi.exec] at ht
    obtain ⟨hf, ht⟩ := inFormat_next ht
    cases ht
    exact inv_length h hi hwf hf
  case distance i c y hi =>
    rw [hi.exec] at ht
    obtain ⟨hf, ht⟩ := inFormat_next ht
    cases ht
    exact inv_distance h hi hwf hf

/-! ### No element stops -/

theorem putLens_total (hf : s.nextFormat = some .cls) {n : Nat} (hfit : s.lenIdx.toNat + n ≤ s.lensTotal)
    (v : BitVec 4) : ∃ t, s.putLens n v = .next t := by
  have hcounts := h.phase.counts (.inr (nextFormat_some hf).2.1)
  have hlens := h.tables.lens
  have hin : s.lenIdx.toNat + n ≤ s.lens.length := by
    unfold State.lensTotal at hfit
    omega
  exact ⟨_, if_pos hin⟩

theorem repeatLens_total (hf : s.nextFormat = some .cls) (r : BitVec 8) (p : BitVec 4) :
    ∃ t, s.repeatLens r (some p) = .next t := by
  by_cases hover : s.lenIdx.toNat + r.toNat > s.lensTotal
  · exact ⟨_, if_pos hover⟩
  · obtain ⟨t, ht⟩ := putLens_total h hf (Nat.not_lt.mp hover) p
    exact ⟨t, (if_neg hover).trans ht⟩

/-- Under the invariant an element of the format asked for answers a next state. -/
theorem exec_total {i : Instr} (hf : s.nextFormat = some i.format) : ∃ t, exec i s = .next t := by
  induction i using Instr.byShape
  case storedHdr len nlen =>
    obtain ⟨hdata, hempty, hbad⟩ := exec_storedHdr hf len nlen
    by_cases hok : (len ^^^ nlen) = 0xFFFF#16
    · by_cases hz : len = 0
      exacts [⟨_, hempty hok hz⟩, ⟨_, hdata hok hz⟩]
    · exact ⟨_, hbad hok⟩
  case storedByte b =>
    have hrem := (h.phase.storedCopy (nextFormat_some hf).2.1).1
    rw [exec_storedByte hf hrem]
    cases hv : s.outValid
    exacts [⟨_, whenPortFree_of_free hv _⟩, ⟨_, whenPortFree_of_occupied hv _⟩]
  case cllen v =>
    obtain ⟨hidx, hmax, -⟩ := h.phase.dynCllens (nextFormat_some hf).2.1
    have hlt : s.clIdx.toNat < clOrder.length := Nat.lt_of_lt_of_le hidx hmax
    exact ⟨_, exec_cllen hf h.tables.clLens (List.getElem?_eq_getElem hlt) v⟩
  case clLen n =>
    obtain ⟨t, ht⟩ := putLens_total h hf (n := 1) (h.phase.dynLens (nextFormat_some hf).2.1) n
    exact ⟨t, (inFormat_of hf _).trans ht⟩
  case clRep r =>
    by_cases hne : s.lenIdx = 0
    · exact ⟨_, (exec_clRep hf r).2 hne⟩
    · have hlt : s.lenIdx.toNat - 1 < s.lens.length := by
        have hcounts := h.phase.counts (.inr (nextFormat_some hf).2.1)
        have hidx := h.phase.dynLens (nextFormat_some hf).2.1
        have hlens := h.tables.lens
        unfold State.lensTotal at hidx
        omega
      rw [(exec_clRep hf r).1 hne, List.getElem?_eq_getElem hlt]
      exact repeatLens_total h hf r _
  case clZero3 r =>
    obtain ⟨t, ht⟩ := repeatLens_total h hf r 0
    exact ⟨t, (exec_clZeros hf r).1.trans ht⟩
  case clZero11 r =>
    obtain ⟨t, ht⟩ := repeatLens_total h hf r 0
    exact ⟨t, (exec_clZeros hf r).2.trans ht⟩
  case lit b =>
    rw [exec_lit hf]
    cases hv : s.outValid
    exacts [⟨_, whenPortFree_of_free hv _⟩, ⟨_, whenPortFree_of_occupied hv _⟩]
  case length i sym x hi => exact ⟨_, exec_length hi (hi.format ▸ hf)⟩
  case distance i c y hi => exact ⟨_, exec_distance hi (hi.format ▸ hf)⟩
  all_goals exact ⟨_, inFormat_of hf _⟩

end Elements

end Sys2Proof.Proofs

/-! The bit reader's primitives (40_bitreader.md), reset and the environment's moves (60_exceptions.md R390). -/

namespace Sys2Proof.Proofs

open Sys2Proof.Machine
open Sys2Proof.Says

/-! ### NeedByte, GetBit, GetByte, GetU16LE -/

theorem needByte_held {r : Reader} (h : r.brHave = true) : r.needByte = some r := if_pos h

theorem needByte_offered {r : Reader} {b : Byte} (h : r.brHave = false) (hb : r.input[r.brIndex]? = some b) :
    r.needByte = some { r with brByte := b, brHave := true, inCnt := r.inCnt + 1 } := by
  simp [Reader.needByte, h, hb]

theorem needByte_none {r : Reader} (h : r.brHave = false) (hb : r.input[r.brIndex]? = none) : r.needByte = none := by
  simp only [Reader.needByte, h, hb]
  rfl

/-- Settles O11: the three answers of NeedByte. -/
theorem needByteSpec : Obligations.NeedByteSpec :=
  fun _ => ⟨needByte_held, fun _ => needByte_offered, needByte_none⟩

/-- Settles O12: GetBit is NeedByte and the cursor one bit on. -/
theorem getBitSpec : Obligations.GetBitSpec := by
  refine fun r => ⟨fun h => ?_, fun q hq => ⟨fun h7 => ?_, fun h7 => ?_⟩, fun b r' h => (Reader.getBit_some h).2.1⟩
  · rw [Reader.getBit, h]; rfl
  · rw [Reader.getBit, hq, Option.map_some, Reader.bump, if_pos h7]
  · rw [Reader.getBit, hq, Option.map_some, Reader.bump, if_neg h7]

/-- On an aligned cursor no byte is held (R22). -/
theorem not_brHave_of_aligned {r : Reader} (hr : r.Inv) (h : r.brBit = 0) : r.brHave = false := by
  rw [hr.have_iff, h]; rfl

theorem getByte_some {r : Reader} {b : Byte} (h : r.brHave = false) (hb : r.input[r.brIndex]? = some b) :
    r.getByte = some (b, { r with brByte := b, brIndex := r.brIndex + 1, inCnt := r.inCnt + 1 }) := by
  simp [Reader.getByte, needByte_offered h hb, h]

theorem getByte_none {r : Reader} (h : r.brHave = false) (hb : r.input[r.brIndex]? = none) : r.getByte = none := by
  rw [Reader.getByte, needByte_none h hb]; rfl

/-- Two bytes, the second one the high one (R147). -/
theorem toNat_append_byte (hi lo : Byte) : (hi ++ lo : BitVec 16).toNat = lo.toNat + 256 * hi.toNat := by
  rw [BitVec.toNat_append, ← Nat.shiftLeft_add_eq_or_of_lt lo.isLt, Nat.shiftLeft_eq]
  omega

/-- Settles O15: GetByte takes the offered byte, GetU16LE two of them. -/
theorem alignedReads : Obligations.AlignedReads := by
  intro r hr h
  have hno := not_brHave_of_aligned hr h
  refine ⟨fun b => getByte_some hno, getByte_none hno, fun lo hi hlo hhi => ⟨hi ++ lo, toNat_append_byte hi lo, ?_⟩,
    fun hnone => ?_⟩
  · simp only [Reader.getU16LE, getByte_some hno hlo]
    rw [getByte_some (r := { r with brByte := lo, brIndex := r.brIndex + 1, inCnt := r.inCnt + 1 }) hno hhi]
    rfl
  · cases hlo : r.input[r.brIndex]? with
    | none => simp only [Reader.getU16LE, getByte_none hno hlo]
    | some lo =>
      simp only [Reader.getU16LE, getByte_some hno hlo]
      rw [getByte_none (r := { r with brByte := lo, brIndex := r.brIndex + 1, inCnt := r.inCnt + 1 }) hno hnone]
      rfl

/-! ### Reset -/

/-- The reset contents with any levels of the neighbours. -/
def freshState (input : List Byte) (eos ready rst edge : Bool) (ctr : Nat) : State :=
  { State.reset with
    rd := { Reader.reset with input := input, inEos := eos }
    outReady := ready
    rst := rst
    rstEdge := edge
    freeCtr := ctr }

theorem afterReset_eq_freshState (s : State) :
    s.afterReset = freshState (s.rd.input.drop s.rd.inCnt) s.rd.inEos s.outReady s.rst true s.freeCtr := rfl

theorem freshState_inv (input : List Byte) (eos ready : Bool) {rst edge : Bool} (he : edge = true → rst = true)
    (ctr : Nat) : (freshState input eos ready rst edge ctr).Inv where
  reader := Tests.reader_inv_fresh input eos
  window := ⟨rfl, rfl, rfl, rfl, fun d h1 h2 => absurd (h1.trans h2) (by show ¬ 1 ≤ min 0 32768; omega)⟩
  status := ⟨rfl, fun _ => rfl, nofun, rfl, rfl⟩
  tables := ⟨rfl, List.length_replicate, Tests.empty_buildable, Tests.empty_buildable, Tests.empty_buildable⟩
  phase := phaseInv_free (.inl rfl) nofun
  edge := ⟨he, fun _ => rfl⟩

/-- Settles O58. -/
theorem invAtReset : Obligations.InvAtReset := freshState_inv [] false true (rst := false) (edge := false) nofun 0

theorem step_reset {s : State} (h : s.rst = true) : step s = .next s.afterReset := if_pos h

/-- Settles O55: every register with a reset value is written out in `State.afterReset`. -/
theorem resetState : Obligations.ResetState :=
  ⟨⟨rfl, rfl, rfl, rfl, rfl, rfl, rfl, rfl, rfl, rfl, rfl, rfl, rfl, rfl, rfl⟩, fun s h =>
    ⟨s.afterReset, step_reset h, rfl, rfl, rfl, rfl, rfl, rfl, rfl, rfl, rfl, rfl, rfl, rfl, rfl, rfl, rfl⟩⟩

/-! ### The moves of the environment -/

/-- The input port may change as long as the reader agrees with it. -/
theorem inv_of_input {s : State} (h : s.Inv) {input : List Byte} {eos : Bool}
    (hr : ({ s.rd with input := input, inEos := eos } : Reader).Inv) :
    ({ s with rd := { s.rd with input := input, inEos := eos } } : State).Inv := by
  obtain ⟨-, hw, hs, ht, hp, he⟩ := h
  refine ⟨hr, ⟨hw.wf, hw.ptr, hw.hist, hw.len, hw.cells⟩,
    ⟨hs.error_iff, hs.code_none, hs.code_some, hs.busy, hs.done⟩, ⟨ht.clLens, ht.lens, ht.tCL, ht.tLL, ht.tD⟩,
    ⟨hp.storedLen, hp.storedCopy, hp.counts, hp.dynCllens, hp.dynLens, hp.await, hp.length, hp.copy⟩,
    ⟨he.rst, fun hedge => ?_⟩⟩
  show ({ s.rd with input := input, inEos := eos } : Reader) = { Reader.reset with input := input, inEos := eos }
  rw [he.reader hedge]

/-- One more byte offered leaves the reader consistent. -/
theorem readerInv_offer {r : Reader} (h : r.Inv) (b : Byte) : ({ r with input := r.input ++ [b] } : Reader).Inv := by
  refine ⟨h.have_iff, h.count, h.bound.trans ?_, fun hh => ?_⟩
  · simp
  · have hbyte := h.byte hh
    show (r.input ++ [b])[r.brIndex]? = some r.brByte
    rw [List.getElem?_append_left (List.getElem?_eq_some_iff.mp hbyte).1, hbyte]

theorem inv_offerByte {s : State} (h : s.Inv) (b : Byte) :
    ({ s with rd := { s.rd with input := s.rd.input ++ [b] } } : State).Inv :=
  inv_of_input h (readerInv_offer h.reader b)

theorem inv_raiseEos {s : State} (h : s.Inv) : ({ s with rd := { s.rd with inEos := true } } : State).Inv :=
  inv_of_input h ⟨h.reader.have_iff, h.reader.count, h.reader.bound, h.reader.byte⟩

theorem inv_setOutReady {s : State} (h : s.Inv) (level : Bool) : ({ s with outReady := level } : State).Inv := by
  obtain ⟨hr, hw, hs, ht, hp, he⟩ := h
  exact ⟨hr, ⟨hw.wf, hw.ptr, hw.hist, hw.len, hw.cells⟩,
    ⟨hs.error_iff, hs.code_none, hs.code_some, hs.busy, hs.done⟩, ⟨ht.clLens, ht.lens, ht.tCL, ht.tLL, ht.tD⟩,
    ⟨hp.storedLen, hp.storedCopy, hp.counts, hp.dynCllens, hp.dynLens, hp.await, hp.length, hp.copy⟩,
    ⟨he.rst, he.reader⟩⟩

theorem inv_rst {s : State} (h : s.Inv) {rst edge : Bool} (h1 : edge = true → rst = true)
    (h2 : edge = true → s.rstEdge = true) : ({ s with rst := rst, rstEdge := edge } : State).Inv := by
  obtain ⟨hr, hw, hs, ht, hp, he⟩ := h
  exact ⟨hr, ⟨hw.wf, hw.ptr, hw.hist, hw.len, hw.cells⟩,
    ⟨hs.error_iff, hs.code_none, hs.code_some, hs.busy, hs.done⟩, ⟨ht.clLens, ht.lens, ht.tCL, ht.tLL, ht.tD⟩,
    ⟨hp.storedLen, hp.storedCopy, hp.counts, hp.dynCllens, hp.dynLens, hp.await, hp.length, hp.copy⟩,
    ⟨h1, fun hedge => he.reader (h2 hedge)⟩⟩

theorem offerByte_next {s t : State} {b : Byte} (h : s.offerByte b = .next t) :
    t = { s with rd := { s.rd with input := s.rd.input ++ [b] } } := by
  unfold State.offerByte at h
  split at h <;> cases h
  rfl

theorem setRst_next {s t : State} {level : Bool} (h : s.setRst level = .next t) :
    t = { s with rst := true, rstEdge := s.rst && s.rstEdge } ∨ t = { s with rst := false, rstEdge := false } := by
  unfold State.setRst at h
  split at h
  · cases h; exact .inl rfl
  · split at h <;> cases h
    exact .inr rfl

theorem presentStream_next {s t : State} {bytes : List Byte} {whole : Bool}
    (h : s.presentStream bytes whole = .next t) :
    s.rstEdge = true ∧ t = { s with rd := { s.rd with input := bytes, inEos := whole } } := by
  unfold State.presentStream at h
  split at h
  · rename_i hc
    cases h
    exact ⟨(Bool.and_eq_true_iff.mp hc).2, rfl⟩
  · cases h

/-- Every move of the environment keeps the invariant. -/
theorem environment_inv {s t : State} {b : Byte} {level : Bool} {bytes : List Byte} (hs : s.Inv)
    (h : s.offerByte b = .next t ∨ s.raiseEos = .next t ∨ s.setOutReady level = .next t ∨ s.setRst level = .next t ∨
      s.presentStream bytes level = .next t) : t.Inv := by
  obtain h | h | h | h | h := h
  · exact offerByte_next h ▸ inv_offerByte hs b
  · cases h; exact inv_raiseEos hs
  · cases h; exact inv_setOutReady hs level
  · obtain rfl | rfl := setRst_next h
    · exact inv_rst hs (fun _ => rfl) fun hc => (Bool.and_eq_true_iff.mp hc).2
    · exact inv_rst hs nofun nofun
  · obtain ⟨hedge, rfl⟩ := presentStream_next h
    refine inv_of_input hs ?_
    rw [hs.edge.reader hedge]
    exact Tests.reader_inv_fresh bytes level

/-- Settles O57: each move by its definition, and `environment_inv`. -/
theorem environmentMoves : Obligations.EnvironmentMoves := by
  refine fun s b level bytes => ⟨fun h => if_neg (by simp [h]), fun h => if_pos h, rfl, rfl, rfl,
    fun h he => ?_, fun h => ?_,
    fun h => if_neg ?_, fun h he => if_pos (by simp [h, he]), fun h => ⟨_, step_reset h, h, rfl⟩,
    fun h t ht => environment_inv h ht⟩
  · simp [State.setRst, h, he]
  · have hc : (s.rst && !s.rstEdge) = false := by cases h with | inl h => simp [h] | inr h => simp [h]
    simp [State.setRst, hc]
  · cases h with | inl h => simp [h] | inr h => simp [h]

end Sys2Proof.Proofs

/-! One step as an equation: what it does to the state whose output port has moved (00_scope.md R11; 44_symbols.md
R250). -/

namespace Sys2Proof.Proofs

open Sys2Proof.Machine
open Sys2Proof.Says

/-! ### The step without an element -/

theorem step_elementStep {s : State} {f : Format} (hr : s.rst = false) (hf : s.nextFormat = some f) :
    step s = s.portTick.elementStep f := by
  have hp : s.portTick.nextFormat = some f := hf
  simp only [step, machineStep, hr, Bool.false_eq_true, if_false, State.blockStep, hp]

theorem step_copyStep {s : State} (hr : s.rst = false) (hp : s.phase = .copy) (he : s.error = false) :
    step s = copyStep s.portTick := by
  have hf : s.portTick.nextFormat = none := by
    show s.nextFormat = none
    simp [State.nextFormat, he, hp]
  have hc : s.portTick.phase = .copy ∧ s.portTick.error = false := ⟨hp, he⟩
  simp only [step, machineStep, hr, Bool.false_eq_true, if_false, State.blockStep, hf, if_pos hc]

theorem step_idle {s : State} (hr : s.rst = false) (hf : s.nextFormat = none)
    (hc : ¬ (s.phase = .copy ∧ s.error = false)) : step s = .next s.portTick := by
  have hf : s.portTick.nextFormat = none := hf
  have hc : ¬ (s.portTick.phase = .copy ∧ s.portTick.error = false) := hc
  simp only [step, machineStep, hr, Bool.false_eq_true, if_false, State.blockStep, hf, if_neg hc]

theorem portTick_eq_portMoved {s : State} (h : isTerminal s.phase = false) : s.portTick = portMoved s := by
  have hd : s.phase ≠ .done := by rintro hp; rw [hp] at h; cases h
  simp [State.portTick, State.settle, State.busyValue, State.doneValue, portMoved, h, hd]

theorem inReady_of_no_format {s : State} (hf : s.nextFormat = none) : s.inReady = false := by
  simp [State.inReady, hf]

/-- Settles O48: no format is asked for in ERROR, so the step is the port's move. -/
theorem errorIsTerminal : Obligations.ErrorIsTerminal := by
  intro s hr hp he
  have hf : s.nextFormat = none := if_pos he
  refine ⟨inReady_of_no_format hf, (step_idle hr hf fun hc => ?_).trans ?_⟩
  · rw [hp] at hc; cases hc.1
  · simp [State.portTick, State.settle, State.busyValue, State.doneValue, isTerminal, hp]

/-- Settles O54: no format is asked for in DONE, so the step is the port's move. -/
theorem doneIsTerminal : Obligations.DoneIsTerminal := by
  intro s hr hp he
  have hf : s.nextFormat = none := by simp [State.nextFormat, he, hp]
  refine ⟨inReady_of_no_format hf, (step_idle hr hf fun hc => ?_).trans ?_⟩
  · rw [hp] at hc; cases hc.1
  · simp [State.portTick, State.settle, State.busyValue, State.doneValue, isTerminal, hp]

/-! ### The step of a format -/

/-- The state an element of format f is fetched from. -/
def fetchStart (f : Format) (s : State) : State := { portMoved s with rd := readerFor f s }

/-- What a step does after its first element: in SYMBOL, the distance code after a length. -/
def afterElement (f : Format) (r : Result) : Result := if f = .ll then State.thenDistance r else r

theorem afterElement_of_ne {f : Format} (h : f ≠ .ll) (r : Result) : afterElement f r = r := if_neg h

/-- A state that asks for no distance code ends the step. -/
theorem afterElement_next {f : Format} {t : State} (h : f = .ll → t.nextFormat ≠ some .d) :
    afterElement f (.next t) = .next t := by
  unfold afterElement
  split
  exacts [thenDistance_of (h ‹_›), rfl]

/-- A step that still asks for the format it began with has not come to a distance code. -/
theorem afterElement_same {f : Format} {t : State} (h : t.nextFormat = some f) : afterElement f (.next t) = .next t :=
  afterElement_next fun hf => by rw [h, hf]; decide

theorem isTerminal_phaseOf (f : Format) : isTerminal (phaseOf f) = false := by cases f <;> rfl

theorem readerFor_of_ne {f : Format} (h : f ≠ .stHdr) (s : State) : readerFor f s = s.rd := if_neg h

theorem readerFor_held (f : Format) (s : State) : (readerFor f s).held = s.rd.held := by
  unfold readerFor
  split
  exacts [s.rd.alignByte_held, rfl]

theorem readerFor_inEos (f : Format) (s : State) : (readerFor f s).inEos = s.rd.inEos := by
  unfold readerFor
  split
  exacts [s.rd.alignByte_inEos, rfl]

theorem fetchStart_of_ne {f : Format} (h : f ≠ .stHdr) (s : State) : fetchStart f s = portMoved s := by
  rw [fetchStart, readerFor_of_ne h]; rfl

/-- A step of a format fetches, and in SYMBOL may go on. -/
theorem step_eq {s : State} {f : Format} (hr : s.rst = false) (hf : s.nextFormat = some f)
    (hal : f = .stData → s.rd.brBit = 0) : step s = afterElement f ((fetchStart f s).fetchRun f) := by
  have hphase : isTerminal s.phase = false := (nextFormat_some hf).2.1 ▸ isTerminal_phaseOf f
  rw [step_elementStep hr hf, portTick_eq_portMoved hphase]
  by_cases hs : f = .stHdr
  · subst hs; rfl
  · have hd : ¬ (f = .stData ∧ (portMoved s).rd.brBit ≠ 0) := fun hc => hc.2 (hal hc.1)
    rw [fetchStart_of_ne hs, State.elementStep, if_neg hs, if_neg hd]
    by_cases hl : f = .ll
    · subst hl; rfl
    · rw [if_neg hl, afterElement_of_ne hl]

section Fetch
variable {s : State} {f : Format} {k : ErrKind}

theorem fetchRun_ok {i : Instr} {n : Nat} (h : decode (s.ctx f) (bitsFor f s) = .ok i n) :
    (fetchStart f s).fetchRun f = (fetchStart f s).runElement i n (bitsFor f s) := by
  have h : decode ((fetchStart f s).ctx f) ((fetchStart f s).rd.held ++ (fetchStart f s).rd.unread) = .ok i n := h
  simp only [State.fetchRun, h]
  rfl

theorem fetchRun_short (h : decode (s.ctx f) (bitsFor f s) = .short k) :
    (fetchStart f s).fetchRun f =
      ((fetchStart f s).fieldsRead f (bitsFor f s)).runShort k (bitsFor f s) := by
  have h : decode ((fetchStart f s).ctx f) ((fetchStart f s).rd.held ++ (fetchStart f s).rd.unread) = .short k := h
  simp only [State.fetchRun, h]
  rfl

theorem fetchRun_reject {used : Nat} (h : decode (s.ctx f) (bitsFor f s) = .reject k used) :
    (fetchStart f s).fetchRun f =
      .next (State.raise k ((fetchStart f s).failCursor k (used - s.rd.held.length))) := by
  rw [← readerFor_held f s]
  have h : decode ((fetchStart f s).ctx f) ((fetchStart f s).rd.held ++ (fetchStart f s).rd.unread) =
      .reject k used := h
  simp only [State.fetchRun, h]
  rfl

theorem nextFormat_raise (k : ErrKind) (s : State) : (s.raise k).nextFormat ≠ some .d := by
  simp [State.nextFormat]

/-- The state past a complete element. -/
def pastElement (f : Format) (n : Nat) (s : State) : State :=
  { portMoved s with rd := { (readerFor f s).consume (n - s.rd.held.length) with held := [] } }

theorem take_readerFor (f : Format) (n : Nat) (s : State) :
    (readerFor f s).take n = (readerFor f s).consume (n - s.rd.held.length) := by
  rw [Reader.take, readerFor_held]

theorem runElement_runs {i : Instr} {n : Nat} (hw : (i.emits && (s.outValid && !s.outReady)) = false) :
    (fetchStart f s).runElement i n (bitsFor f s) = exec i (pastElement f n s) := by
  have hw : ¬ (i.emits && (fetchStart f s).outValid) = true := ne_true_of_eq_false hw
  rw [State.runElement, if_neg hw, pastElement, ← take_readerFor]
  rfl

theorem runElement_waits {i : Instr} {n : Nat} (hw : (i.emits && (s.outValid && !s.outReady)) = true) :
    (fetchStart f s).runElement i n (bitsFor f s) =
      .next { pastElement f n s with rd := { (pastElement f n s).rd with held := (bitsFor f s).take n } } := by
  have hw : (i.emits && (fetchStart f s).outValid) = true := hw
  rw [State.runElement, if_pos hw]
  simp only [pastElement, ← take_readerFor]
  rfl

/-- Of the elements of format LL only a length goes on. -/
theorem afterElement_exec {i : Instr} {p : State} (hp : p.nextFormat = some f) (hl : ¬ lengthElement i) :
    afterElement f (exec i p) = exec i p := by
  by_cases hf : f = .ll
  · subst hf
    have hthen : ∀ r, exec i p = r → State.thenDistance r = r := fun r he => by
      cases r with
      | next t =>
        refine thenDistance_of fun ht => hl ?_
        obtain ⟨sym, x, hi, -⟩ := exec_awaits hp ht he
        obtain ⟨mk, hmk, rfl⟩ := hi.made
        exact ⟨sym - 257, mk, x, hmk, rfl⟩
      | fault e => rfl
      | refused e => rfl
    exact hthen _ rfl
  · exact afterElement_of_ne hf _

variable (hr : s.rst = false) (hf : s.nextFormat = some f) (hal : f = .stData → s.rd.brBit = 0)
include hr hf hal

theorem step_runs {i : Instr} {n : Nat} (h : decode (s.ctx f) (bitsFor f s) = .ok i n) (hl : ¬ lengthElement i)
    (hw : (i.emits && (s.outValid && !s.outReady)) = false) : step s = exec i (pastElement f n s) := by
  rw [step_eq hr hf hal, fetchRun_ok h, runElement_runs hw]
  exact afterElement_exec (p := pastElement f n s) hf hl

theorem step_waits {i : Instr} {n : Nat} (h : decode (s.ctx f) (bitsFor f s) = .ok i n)
    (hw : (i.emits && (s.outValid && !s.outReady)) = true) :
    step s = .next { pastElement f n s with rd := { (pastElement f n s).rd with held := (bitsFor f s).take n } } := by
  rw [step_eq hr hf hal, fetchRun_ok h, runElement_waits hw]
  exact afterElement_same hf

end Fetch

/-- A length element in one of the two spellings of the model. -/
theorem IsLength.of_lengthElement {i : Instr} (h : lengthElement i) : ∃ sym x, IsLength i sym x := by
  obtain ⟨k, mk, x, hmk, rfl⟩ := h
  exact ⟨k + 257, x, .of (by omega) (by rwa [Nat.add_sub_cancel]) x⟩

/-- The state after a length, of which the same step decodes the distance (R250, R254). -/
def afterLengthOf (sym : Nat) (x : BitVec 5) (n : Nat) (s : State) : State :=
  { pastElement .ll n s with matchLen := matchLength sym x, awaitDist := true }

theorem nextFormat_afterLengthOf {s : State} (hf : s.nextFormat = some .ll) (sym : Nat) (x : BitVec 5) (n : Nat) :
    (afterLengthOf sym x n s).nextFormat = some .d := by
  obtain ⟨he, hp, -, -⟩ := nextFormat_some hf
  have he : (afterLengthOf sym x n s).error = false := he
  have hp : (afterLengthOf sym x n s).phase = .symbol := hp
  rw [State.nextFormat, if_neg (by rw [he]; decide), hp]
  rfl

/-- A byte taken from the port, or none, by a level of out_ready: the same level takes nothing more. -/
theorem outValid_moved_twice (valid ready : Bool) : ((valid && !ready) && !ready) = (valid && !ready) := by
  cases valid <;> cases ready <;> rfl

/-- A second move of the port in one step changes nothing. -/
theorem portMoved_afterLengthOf (sym : Nat) (x : BitVec 5) (n : Nat) (s : State) :
    portMoved (afterLengthOf sym x n s) = afterLengthOf sym x n s := by
  simp only [portMoved, afterLengthOf, pastElement, outValid_moved_twice]

/-- After a length the step is what a step from the state after the length is. -/
theorem step_length {s : State} {i : Instr} {sym : Nat} {x : BitVec 5} (hi : IsLength i sym x) {n : Nat}
    (hr : s.rst = false) (hf : s.nextFormat = some .ll) (h : decode (s.ctx .ll) (bitsFor .ll s) = .ok i n) :
    exec i (pastElement .ll n s) = .next (afterLengthOf sym x n s) ∧ step s = step (afterLengthOf sym x n s) := by
  have hexec : exec i (pastElement .ll n s) = .next (afterLengthOf sym x n s) :=
    exec_length hi (s := pastElement .ll n s) hf
  have hd := nextFormat_afterLengthOf hf sym x n
  refine ⟨hexec, ?_⟩
  have hr' : (afterLengthOf sym x n s).rst = false := hr
  have hnext : step (afterLengthOf sym x n s) = (afterLengthOf sym x n s).fetchRun .d := by
    rw [step_eq hr' hd nofun, afterElement_of_ne (by decide), fetchStart_of_ne (by decide),
      portMoved_afterLengthOf]
  rw [step_eq hr hf nofun, fetchRun_ok h, runElement_runs (by rw [hi.emits]; rfl), hexec, hnext]
  exact thenDistance_d hd

/-- Settles O49: `step_runs`, `step_length` and `step_waits`. -/
theorem stepRunsDecoded : Obligations.StepRunsDecoded := by
  refine fun s f i n hr hf hal h => ⟨step_runs hr hf hal h, fun hl => ?_, step_waits hr hf hal h⟩
  obtain ⟨sym, x, hi⟩ := IsLength.of_lengthElement hl
  obtain rfl : f = .ll := ((decode_format h).symm.trans hi.format :)
  obtain ⟨hexec, hstep⟩ := step_length hi hr hf h
  exact ⟨_, hexec, nextFormat_afterLengthOf hf sym x n, hstep⟩

/-! ### The stored header and the whole match -/

/-- Where no bits are held, dropping the held bits changes nothing. -/
theorem consume_no_held {r : Reader} (h : r.held = []) (n : Nat) :
    ({ r.consume n with held := [] } : Reader) = r.consume n := by
  rw [← h, ← Reader.consume_held n r]

/-- A field whose value is made of two is the two fields, the low one first (R9). -/
theorem fieldBits_add (m n : Nat) {lo : Nat} (hlo : lo < 2 ^ m) (hi : Nat) :
    fieldBits (m + n) (lo + 2 ^ m * hi) = fieldBits m lo ++ fieldBits n hi := by
  induction m generalizing lo with
  | zero =>
    obtain rfl : lo = 0 := by omega
    simp [fieldBits]
  | succ m ih =>
    have hdiv : (lo + 2 ^ (m + 1) * hi) / 2 = lo / 2 + 2 ^ m * hi := by
      rw [Nat.pow_succ, Nat.mul_comm (2 ^ m) 2, Nat.mul_assoc, Nat.add_mul_div_left _ _ (by decide)]
    have hmod : (lo + 2 ^ (m + 1) * hi) % 2 = lo % 2 := by
      rw [Nat.pow_succ, Nat.mul_comm (2 ^ m) 2, Nat.mul_assoc, Nat.add_mul_mod_self_left]
    rw [Nat.succ_add]
    simp only [fieldBits, hdiv, Nat.testBit_zero, hmod, List.cons_append]
    rw [ih (by omega)]

theorem streamBits_pair (lo hi : Byte) : streamBits [lo, hi] = fieldBits 16 (hi ++ lo : BitVec 16).toNat := by
  rw [toNat_append_byte]
  refine Eq.trans ?_ (fieldBits_add 8 8 lo.isLt hi.toNat).symm
  rw [← byteBits_eq_fieldBits, ← byteBits_eq_fieldBits]
  simp [streamBits]

/-- Settles O19: the fields are the bytes, low byte first; the step by `step_runs`; the check by `exec_storedHdr`. -/
theorem storedHeader : Obligations.StoredHeader := by
  have hdec : ∀ (c : Ctx) (a b p q : Byte) (rest : List Bool), c.fmt = .stHdr →
      decode c (streamBits [a, b, p, q] ++ rest) = .ok (.storedHdr (b ++ a) (q ++ p)) 32 := fun c a b p q rest hc =>
by
    rw [show [a, b, p, q] = [a, b] ++ [p, q] from rfl, streamBits_append, streamBits_pair, streamBits_pair,
      List.append_assoc]
    exact decode_storedHdr hc _ _ rest
  refine ⟨hdec, fun s a b p q rest hr hf hheld hbits => ?_, fun s len nlen hs => exec_storedHdr hs len nlen⟩
  have hrd : readerFor .stHdr s = s.rd.alignByte := if_pos rfl
  have hb : bitsFor .stHdr s = streamBits [a, b, p, q] ++ rest := by
    rw [bitsFor, readerFor_held, hheld, hrd, hbits, List.nil_append]
  have hnl : ¬ lengthElement (.storedHdr (b ++ a) (q ++ p)) := fun hl => by
    obtain ⟨sym, x, hi⟩ := IsLength.of_lengthElement hl
    cases hi.format
  rw [step_runs hr hf nofun (hb ▸ hdec (s.ctx .stHdr) a b p q rest rfl) hnl rfl, pastElement, hrd, hheld]
  rw [List.length_nil, Nat.sub_zero, consume_no_held (s.rd.alignByte_held.trans hheld)]

/-- Settles O36: `step_length` and `step_runs`, the copy's start or its fault by the distance rule. -/
theorem matchDecodedWhole : Obligations.MatchDecodedWhole := by
  intro s sym c n k mkL mkD x y hr hf hheld hsym hmkL hmkD hL hD
  have hiL := IsLength.of hsym hmkL x
  have hiD := IsDistance.of hmkD y
  have hx : x.toNat < 2 ^ lenExtra sym := of_decide_eq_true (hiL.wellFormed ▸ decode_wellFormed hL)
  have hy : y.toNat < 2 ^ distExtra c := of_decide_eq_true (hiD.wellFormed ▸ decode_wellFormed hD)
  have hbits : bitsFor .ll s = s.rd.unread := by rw [bitsFor, readerFor_held, hheld]; rfl
  obtain ⟨-, hstep⟩ := step_length hiL hr hf (hbits.symm ▸ hL)
  have hfu := nextFormat_afterLengthOf hf sym x n
  have hrd : (afterLengthOf sym x n s).rd = s.rd.consume n := by
    show ({ s.rd.consume (n - s.rd.held.length) with held := [] } : Reader) = _
    rw [hheld]
    exact consume_no_held hheld n
  have hheldu : (s.rd.consume n).held = [] := (Reader.consume_held n s.rd).trans hheld
  have hbitsu : bitsFor .d (afterLengthOf sym x n s) = s.rd.unread.drop n := by
    rw [bitsFor, readerFor_of_ne (by decide), hrd, hheldu, Reader.consume_unread]
    rfl
  have hnl : ¬ lengthElement (mkD y) := fun hl => by
    obtain ⟨sym', x', hi⟩ := IsLength.of_lengthElement hl
    exact absurd (hi.format.symm.trans hiD.format) (by decide)
  have hru : (afterLengthOf sym x n s).rst = false := hr
  have hrun := step_runs hru hfu nofun (hbitsu.symm ▸ hD) hnl (by rw [hiD.emits]; rfl)
  have hpast : pastElement .d k (afterLengthOf sym x n s) =
      { afterLengthOf sym x n s with rd := s.rd.consume (n + k) } := by
    rw [pastElement, portMoved_afterLengthOf, readerFor_of_ne (by decide), hrd, hheldu, consume_no_held hheldu,
      Reader.consume_add]
    rfl
  have ha : s.awaitDist = false := (nextFormat_some hf).2.2.1 rfl
  obtain ⟨d, hd, hnear, hfar⟩ := (distanceRule hmkD rfl rfl).2.2 (pastElement .d k (afterLengthOf sym x n s)) y hy hfu
  refine ⟨matchLength sym x, d, matchLength_toNat hsym hiL.hi hx, hd, fun h => ?_, fun h => ?_⟩
  · rw [hstep, hrun, hnear h, hpast, ← ha]
    rfl
  · rw [hstep, hrun, hfar h, hpast, ← ha]
    rfl

/-! ### The ends and the rejections -/

theorem fieldVal_eq_none {n : Nat} {bits : List Bool} (h : ¬ n ≤ bits.length) : fieldVal n bits = none :=
  fieldVal_none.mpr (Nat.lt_of_not_le h)

/-- The registers an incomplete element has written, in the two spellings of the model. -/
theorem fieldsRead_eq_fieldsWritten (f : Format) (bits : List Bool) (s : State) :
    s.fieldsRead f bits = fieldsWritten f bits s := by
  have hfirst : (fieldVal 1 bits).elim s.bfinal (fun v => v == 1) =
      if 1 ≤ bits.length then bits.headD false else s.bfinal := by
    cases bits with
    | nil => rfl
    | cons b bs => cases b <;> rfl
  have hsecond : (fieldVal 5 bits).elim s.hlit (fun v => BitVec.ofNat 9 (v + 257)) =
      if 5 ≤ bits.length then BitVec.ofNat 9 (bitsVal (bits.take 5) + 257) else s.hlit := by
    split
    · rw [fieldVal_eq_bitsVal ‹_›]; rfl
    · rw [fieldVal_eq_none ‹_›]; rfl
  have hthird : (fieldVal 5 (bits.drop 5)).elim s.hdist (fun v => BitVec.ofNat 6 (v + 1)) =
      if 10 ≤ bits.length then BitVec.ofNat 6 (bitsVal ((bits.drop 5).take 5) + 1) else s.hdist := by
    split
    · rw [fieldVal_eq_bitsVal (by rw [List.length_drop]; omega)]; rfl
    · rw [fieldVal_eq_none (by rw [List.length_drop]; omega)]; rfl
  rw [State.fieldsRead, fieldsWritten, hfirst, hsecond, hthird]
  simp only [ite_and]

/-- The cursor after a fault is past the bits read, or, for SymbolNotFound, a free number of bits on. -/
theorem failCursor_eq (k : ErrKind) (most : Nat) (s : State) :
    ∃ m n, m ≤ most ∧ (k ≠ .symbolNotFound → m = most ∧ n = s.freeCtr) ∧
      s.failCursor k most = { s with rd := { s.rd.consume m with held := [] }, freeCtr := n } := by
  cases k
  case symbolNotFound =>
    exact ⟨Config.freeNat s.freeCtr % (most + 1), s.freeCtr + 1,
      Nat.lt_succ_iff.mp (Nat.mod_lt _ (Nat.succ_pos most)), nofun, rfl⟩
  all_goals exact ⟨most, s.freeCtr, Nat.le_refl _, fun _ => ⟨rfl, rfl⟩, rfl⟩

/-- A fault found before the element is complete, as the statements write it. -/
theorem raise_failCursor {s : State} (he : s.error = false) (k : ErrKind) (most : Nat) :
    ∃ m n, m ≤ most ∧ (k ≠ .symbolNotFound → m = most ∧ n = s.freeCtr) ∧
      State.raise k (s.failCursor k most) =
        raised (errCodeOf k) { s with rd := { s.rd.consume m with held := [] }, freeCtr := n } := by
  obtain ⟨m, n, hm, hk, heq⟩ := failCursor_eq k most s
  refine ⟨m, n, hm, hk, ?_⟩
  rw [heq]
  exact raise_eq_raised (s := { s with rd := { s.rd.consume m with held := [] }, freeCtr := n }) he k

theorem length_bitsFor_sub (f : Format) (s : State) :
    (bitsFor f s).length - (readerFor f s).held.length = (readerFor f s).unread.length := by
  rw [bitsFor, List.length_append, Nat.add_sub_cancel_left]

/-- The state in which a fault is taken or the step holds: the registers whose fields were read are written. -/
def shortStart (f : Format) (s : State) : State := fieldsWritten f (bitsFor f s) (fetchStart f s)

section Short
variable {s : State} {f : Format} {k : ErrKind} (hr : s.rst = false) (hf : s.nextFormat = some f)
  (hal : f = .stData → s.rd.brBit = 0)
include hr hf hal

theorem step_ends (h : decode (s.ctx f) (bitsFor f s) = .short k) (he : s.rd.inEos = true) :
    step s = .next (State.raise k ((shortStart f s).failCursor k (readerFor f s).unread.length)) := by
  have heos : (shortStart f s).rd.inEos = true := (readerFor_inEos f s).trans he
  rw [step_eq hr hf hal, fetchRun_short h, fieldsRead_eq_fieldsWritten, ← length_bitsFor_sub]
  refine Eq.trans (congrArg (afterElement f) (if_pos heos)) (afterElement_next fun _ => nextFormat_raise k _)

theorem step_holds (h : decode (s.ctx f) (bitsFor f s) = .short k) (he : s.rd.inEos = false) :
    step s = .next { shortStart f s with
      rd := { (readerFor f s).consume (readerFor f s).unread.length with held := bitsFor f s } } := by
  have heos : ¬ (shortStart f s).rd.inEos = true := ne_true_of_eq_false ((readerFor_inEos f s).trans he)
  rw [step_eq hr hf hal, fetchRun_short h, fieldsRead_eq_fieldsWritten, ← length_bitsFor_sub]
  refine Eq.trans (congrArg (afterElement f) (if_neg heos)) (afterElement_same hf)

theorem step_rejects {used : Nat} (h : decode (s.ctx f) (bitsFor f s) = .reject k used) :
    step s = .next (State.raise k ((fetchStart f s).failCursor k (used - s.rd.held.length))) := by
  rw [step_eq hr hf hal, fetchRun_reject h]
  exact afterElement_next fun _ => nextFormat_raise k _

end Short

/-- Settles O45: `step_ends` and `step_holds`. -/
theorem stepAtTheEndOfTheBits : Obligations.StepAtTheEndOfTheBits := by
  refine fun s f k hr hf hal h => ⟨fun he => ?_, fun he => step_holds hr hf hal h he⟩
  have herr : (shortStart f s).error = false := (nextFormat_some hf).1
  obtain ⟨m, n, -, hk, heq⟩ := raise_failCursor herr k (readerFor f s).unread.length
  refine ⟨{ (readerFor f s).consume m with held := [] }, n, fun ht => ?_, ?_⟩
  · obtain ⟨rfl, rfl⟩ := hk (by rw [ht]; decide)
    exact ⟨rfl, rfl⟩
  · rw [step_ends hr hf hal h he, heq]
    rfl

theorem withField_eq_reject {n : Nat} {bits : List Bool} {g : Nat → Decoded} {k : ErrKind} {used : Nat}
    (h : withField n bits g = .reject k used) : ∃ v, g v = .reject k used := by
  unfold withField at h
  split at h
  · cases h
  · exact ⟨_, h⟩

/-- Only Huffman codes are rejected. -/
theorem huffman_of_reject {c : Ctx} {bits : List Bool} {k : ErrKind} {used : Nat}
    (h : decode c bits = .reject k used) : c.fmt = .cls ∨ c.fmt = .ll ∨ c.fmt = .d := by
  cases hc : c.fmt <;> simp only [decode, hc] at h
  case bh =>
    obtain ⟨v, h⟩ := withField_eq_reject h
    obtain ⟨w, h⟩ := withField_eq_reject h
    cases h
  case stHdr =>
    obtain ⟨v, h⟩ := withField_eq_reject h
    obtain ⟨w, h⟩ := withField_eq_reject h
    cases h
  case stData =>
    obtain ⟨v, h⟩ := withField_eq_reject h
    cases h
  case dhCounts =>
    obtain ⟨v, h⟩ := withField_eq_reject h
    obtain ⟨w, h⟩ := withField_eq_reject h
    obtain ⟨x, h⟩ := withField_eq_reject h
    cases h
  case dhCllen =>
    obtain ⟨v, h⟩ := withField_eq_reject h
    cases h
  case cls => exact .inl rfl
  case ll => exact .inr (.inl rfl)
  case d => exact .inr (.inr rfl)

/-- Settles O46: `step_rejects`. -/
theorem stepAtAnUnassignedCode : Obligations.StepAtAnUnassignedCode := by
  intro s f k used hr hf h
  obtain ⟨hhdr, hdata⟩ : f ≠ .stHdr ∧ f ≠ .stData := by
    obtain hc | hc | hc : f = .cls ∨ f = .ll ∨ f = .d := huffman_of_reject h <;> rw [hc] <;> decide
  have hb : bitsFor f s = s.rd.held ++ s.rd.unread := by rw [bitsFor, readerFor_of_ne hhdr]
  have herr : (fetchStart f s).error = false := (nextFormat_some hf).1
  obtain ⟨m, n, hm, hk, heq⟩ := raise_failCursor herr k (used - s.rd.held.length)
  refine ⟨m, n, hm, hk, ?_⟩
  rw [step_rejects hr hf (fun hc => absurd hc hdata) (hb ▸ h), heq, fetchStart_of_ne hhdr]
  rfl

/-! ### The stops of the model -/

/-- An element of another format than the one asked for is refused (log 17). -/
theorem exec_wrongPhase {i : Instr} {s : State} (h : s.nextFormat ≠ some i.format) :
    exec i s = .refused .wrongPhase := by
  induction i using Instr.byShape
  case length i sym x hi => exact (hi.exec s).trans (if_neg (hi.format ▸ h))
  case distance i c y hi => exact (hi.exec s).trans (if_neg (hi.format ▸ h))
  all_goals exact if_neg h

theorem putLens_stops {s : State} {n : Nat} (h : s.lens.length < s.lenIdx.toNat + n) (v : BitVec 4) :
    s.putLens n v = .fault .tableIndex := if_neg (Nat.not_le.mpr h)

/-- The address of the byte match_dist back (R345). -/
theorem winBack_address (p : BitVec 15) (d : BitVec 16) :
    (p - d.setWidth 15).toNat = (p.toNat + 32768 - d.toNat % 32768) % 32768 := by
  rw [BitVec.toNat_sub, BitVec.toNat_setWidth]
  omega

theorem copyStep_reads {s : State} {b : Byte} (hrem : s.copyRem ≠ 0) (hb : s.winBack = some b) :
    copyStep s = whenPortFree s fun s => (s.emit b).copied := by
  rw [copyStep, if_neg hrem]
  simp only [hb]

/-- Settles O50: each stop by the branch of the definition that answers it. -/
theorem modelStops : Obligations.ModelStops := by
  refine ⟨fun i s h => exec_wrongPhase h, fun s b hs hz => ?_, fun s v hs hidx => ?_, fun s v hs hidx => ?_,
    fun s hr hs hb => ?_, fun s hr hp he => ⟨fun hz => ?_, fun hz hw => ?_⟩⟩
  · exact (inFormat_of hs _).trans (if_pos hz)
  · have hnone : clOrder[s.clIdx.toNat]? = none := List.getElem?_eq_none hidx
    refine (inFormat_of hs _).trans ?_
    rw [hnone]
  · exact (inFormat_of hs _).trans (putLens_stops (by omega) v)
  · have hc : Format.stData = .stData ∧ s.portTick.rd.brBit ≠ 0 := ⟨rfl, hb⟩
    rw [step_elementStep hr hs, State.elementStep, if_neg (by decide), if_pos hc]
  · rw [step_copyStep hr hp he]
    exact if_pos hz
  · have hnone : s.portTick.winBack = none := by
      show s.win.read (s.wrPtr - s.matchDist.setWidth 15).toNat = none
      rw [winBack_address, hw]
    have hz : s.portTick.copyRem ≠ 0 := hz
    rw [step_copyStep hr hp he, copyStep, if_neg hz]
    simp only [hnone]

end Sys2Proof.Proofs

/-! What a step does to the reader and to the output, from any state (10_state.md R24; 20_memory.md R61, R66;
60_exceptions.md R383). -/

namespace Sys2Proof.Proofs

open Sys2Proof.Machine
open Sys2Proof.Says

/-! ### The reader -/

/-- No element touches the reader. -/
theorem exec_rd {i : Instr} {s t : State} (h : exec i s = .next t) : t.rd = s.rd := by
  cases he : i.emits
  · exact congrArg Outside.rd (outside_exec he h)
  · obtain ⟨-, -, hrd, -⟩ := frameOfEmitting i s t he h
    exact hrd

/-- The state past a complete element of the cases of a step. -/
def afterFetch (f : Format) (used : Nat) (p : State) : State :=
  { p with rd := { (p.fetchReader f).take used with held := [] } }

/-- An element consumes bits and holds some, or none. -/
theorem elementCase_rd {f : Format} {p t : State} (h : ElementCase f p t) :
    ∃ m held, t.rd = { (p.fetchReader f).consume m with held := held } := by
  cases h with
  | runs i used h free next => exact ⟨_, [], exec_rd next⟩
  | waits i used h emits full next => exact ⟨_, _, congrArg State.rd next⟩
  | ends k h eos next =>
    obtain ⟨m, c, -, hc⟩ := failCursor_cases k (p.fetchReader f).unread.length (p.fieldsRead f (p.fetchBits f))
      (p.fetchReader f)
    rw [next, hc]
    exact ⟨m, [], rfl⟩
  | holds k h eos next => exact ⟨_, _, congrArg State.rd next⟩
  | rejects k used h next =>
    obtain ⟨m, c, -, hc⟩ := failCursor_cases k (used - (p.fetchReader f).held.length) p (p.fetchReader f)
    rw [next, hc]
    exact ⟨m, [], rfl⟩

/-- r' is r with the cursor not moved back and the input only read. -/
def MovesOn (r r' : Reader) : Prop := r.pos ≤ r'.pos ∧ r'.input = r.input ∧ r'.inEos = r.inEos

theorem MovesOn.refl (r : Reader) : MovesOn r r := ⟨Nat.le_refl _, rfl, rfl⟩

theorem MovesOn.trans {a b c : Reader} (h1 : MovesOn a b) (h2 : MovesOn b c) : MovesOn a c := by
  obtain ⟨hpos1, hin1, heos1⟩ := h1
  obtain ⟨hpos2, hin2, heos2⟩ := h2
  exact ⟨hpos1.trans hpos2, hin2.trans hin1, heos2.trans heos1⟩

theorem movesOn_consume (r : Reader) (n : Nat) (held : List Bool) :
    MovesOn r { r.consume n with held := held } := by
  obtain ⟨-, hpos, hin, heos, -⟩ := Reader.consume_spec n r
  exact ⟨hpos ▸ Nat.le_add_right _ _, hin, heos⟩

theorem movesOn_alignByte (r : Reader) : MovesOn r r.alignByte := by
  refine ⟨?_, r.alignByte_input, r.alignByte_inEos⟩
  rw [alignByte_pos]
  omega

theorem movesOn_fetchReader (f : Format) (p : State) : MovesOn p.rd (p.fetchReader f) := by
  unfold State.fetchReader
  split
  exacts [movesOn_alignByte _, .refl _]

theorem elementCase_movesOn {f : Format} {p t : State} (h : ElementCase f p t) : MovesOn p.rd t.rd := by
  obtain ⟨m, held, hrd⟩ := elementCase_rd h
  rw [hrd]
  exact (movesOn_fetchReader f p).trans (movesOn_consume _ m held)

theorem outside_copied (s : State) : outside s.copied = outside s := by
  unfold State.copied
  split <;> rfl

theorem copyStep_rd {s t : State} (h : copyStep s = .next t) : t.rd = s.rd := by
  obtain ⟨-, b, -, ⟨-, rfl⟩ | ⟨-, rfl⟩⟩ := copyStep_next h
  · rfl
  · exact congrArg Outside.rd (outside_copied (s.emit b))

/-- Settles O17: each case of the step moves on. -/
theorem posNeverDecreases : Obligations.PosNeverDecreases := by
  intro s t hr h
  show MovesOn s.portTick.rd t.rd
  obtain ⟨hrst, -⟩ | ⟨-, ⟨f, -, hcase, -⟩ | ⟨-, -, hcopy⟩ | ⟨-, -, rfl⟩⟩ := step_cases h
  · exact absurd (hr.symm.trans hrst) (by decide)
  · obtain ⟨-, hcase⟩ | ⟨-, i, used, sym, x, -, -, -, hcase⟩ := hcase
    · exact elementCase_movesOn hcase
    · exact (movesOn_consume s.rd _ []).trans (elementCase_movesOn hcase)
  · rw [copyStep_rd hcopy]
    exact .refl _
  · exact .refl _

/-! ### The output -/

/-- The window, the output and the port, without the reader and the free values. -/
def outputSide (s : State) : Outside := { outside s with rd := Reader.reset, freeCtr := 0 }

theorem outputSide_of_outside {s t : State} (h : outside t = outside s) : outputSide t = outputSide s :=
  congrArg (fun o : Outside => { o with rd := Reader.reset, freeCtr := 0 }) h

theorem outside_storedOne (s : State) : outside s.storedOne = outside s := by
  unfold State.storedOne
  split <;> rfl

theorem storedOne_error (s : State) : s.storedOne.error = s.error := by
  unfold State.storedOne
  split <;> rfl

/-- t is p with nothing emitted, or with one byte emitted on a free port and no fault. -/
def EmitsAtMostOne (p t : State) : Prop :=
  outputSide t = outputSide p ∨ ∃ b, p.outValid = false ∧ outputSide t = outputSide (p.emit b) ∧ t.error = p.error

theorem exec_emitsAtMostOne {i : Instr} {s t : State} (h : exec i s = .next t) : EmitsAtMostOne s t := by
  cases he : i.emits
  · exact .inl (outputSide_of_outside (outside_exec he h))
  · obtain ⟨b, rfl⟩ | ⟨b, rfl⟩ := emits_cases he
    · obtain ⟨-, rfl⟩ | ⟨hfree, rfl⟩ := exec_lit_next h
      exacts [.inl rfl, .inr ⟨b, hfree, rfl, rfl⟩]
    · obtain ⟨-, -, ⟨-, rfl⟩ | ⟨hfree, rfl⟩⟩ := exec_storedByte_next h
      · exact .inl rfl
      · exact .inr ⟨b, hfree, outputSide_of_outside (outside_storedOne _), storedOne_error _⟩

theorem elementCase_emitsAtMostOne {f : Format} {p t : State} (h : ElementCase f p t) : EmitsAtMostOne p t := by
  cases h with
  | runs i used h free next => exact exec_emitsAtMostOne (s := afterFetch f used p) next
  | waits i used h emits full next => subst next; exact .inl rfl
  | ends k h eos next =>
    obtain ⟨m, c, -, hc⟩ := failCursor_cases k (p.fetchReader f).unread.length (p.fieldsRead f (p.fetchBits f))
      (p.fetchReader f)
    rw [next, hc]
    exact .inl rfl
  | holds k h eos next => subst next; exact .inl rfl
  | rejects k used h next =>
    obtain ⟨m, c, -, hc⟩ := failCursor_cases k (used - (p.fetchReader f).held.length) p (p.fetchReader f)
    rw [next, hc]
    exact .inl rfl

theorem copyStep_emitsAtMostOne {s t : State} (h : copyStep s = .next t) : EmitsAtMostOne s t := by
  obtain ⟨-, b, -, ⟨-, rfl⟩ | ⟨hfree, rfl⟩⟩ := copyStep_next h
  · exact .inl rfl
  · refine .inr ⟨b, hfree, outputSide_of_outside (outside_copied _), ?_⟩
    unfold State.copied
    split <;> rfl

/-- A step that is no reset emits at most one byte, after the port's move. -/
theorem step_emitsAtMostOne {s t : State} (hr : s.rst = false) (h : step s = .next t) :
    EmitsAtMostOne s.portTick t := by
  obtain ⟨hrst, -⟩ | ⟨-, ⟨f, -, hcase, -⟩ | ⟨-, -, hcopy⟩ | ⟨-, -, rfl⟩⟩ := step_cases h
  · exact absurd (hr.symm.trans hrst) (by decide)
  · obtain ⟨-, hcase⟩ | ⟨-, i, used, sym, x, -, -, -, hcase⟩ := hcase
    · exact elementCase_emitsAtMostOne hcase
    · exact elementCase_emitsAtMostOne (p := s.portTick.afterLength sym x used) hcase
  · exact copyStep_emitsAtMostOne hcopy
  · exact .inl rfl

/-- Settles O53: the two answers of `step_emitsAtMostOne`. -/
theorem outputOnlyGrows : Obligations.OutputOnlyGrows := by
  intro s t hr h
  obtain hsame | ⟨b, hfree, hemit, -⟩ := step_emitsAtMostOne hr h
  · exact .inl ⟨congrArg Outside.out hsame, congrArg Outside.outLen hsame, congrArg Outside.outData hsame,
      congrArg Outside.outValid hsame⟩
  · refine .inr ⟨b, congrArg Outside.out hemit, congrArg Outside.outLen hemit, congrArg Outside.outData hemit,
      congrArg Outside.outValid hemit, ?_⟩
    have hfree : (s.outValid && !s.outReady) = false := hfree
    cases hv : s.outValid
    · exact .inl rfl
    · exact .inr (by simpa [hv] using hfree)

/-! ### The fault -/

/-- A fault flagged in t is one of the nine, in ERROR. -/
def FaultShown (t : State) : Prop := t.error = true → t.phase = .error ∧ 1 ≤ t.errCode.toNat ∧ t.errCode.toNat ≤ 9

theorem faultShown_of_none {t : State} (h : t.error = false) : FaultShown t := fun ht =>
  absurd (h.symm.trans ht) (by decide)

theorem faultShown_raise {s : State} (h : s.error = false) (k : ErrKind) : FaultShown (s.raise k) := fun _ => by
  rw [State.raise_errCode_first k s h]
  exact ⟨rfl, errCodeOf_bounds k⟩

theorem faultShown_buildTables {s : State} (h : s.error = false) : FaultShown s.buildTables := by
  unfold State.buildTables
  split
  · split
    · exact faultShown_of_none h
    · exact faultShown_raise (s := { s with tLL := s.litLens }) h _
  · exact faultShown_raise h _

theorem faultShown_putLens {s t : State} (h : s.error = false) {n : Nat} {v : BitVec 4} (ht : s.putLens n v = .next t) :
    FaultShown t := by
  obtain ⟨-, ht⟩ | ⟨-, ht⟩ := (putLens_next ht).2
  · rw [ht]; exact faultShown_buildTables h
  · rw [ht]; exact faultShown_of_none h

theorem faultShown_repeatLens {s t : State} (h : s.error = false) {r : BitVec 8} {v : Option (BitVec 4)}
    (ht : s.repeatLens r v = .next t) : FaultShown t := by
  obtain ⟨-, rfl⟩ | ⟨-, p, -, hput⟩ := repeatLens_next ht
  exacts [faultShown_raise h _, faultShown_putLens h hput]

theorem faultShown_closeCllens {s : State} (h : s.error = false) : FaultShown s.closeCllens := by
  unfold State.closeCllens
  split
  · split
    exacts [faultShown_of_none h, faultShown_raise h _]
  · exact faultShown_of_none h

theorem faultShown_startCopy {s : State} (h : s.error = false) (d : BitVec 16) : FaultShown (s.startCopy d) := by
  unfold State.startCopy
  dsimp only
  split
  · exact faultShown_raise (s := { s with matchDist := d, awaitDist := false }) h _
  · exact faultShown_of_none h

theorem exec_faultShown {i : Instr} {s t : State} (he : s.error = false) (h : exec i s = .next t) : FaultShown t := by
  induction i using Instr.byShape
  case storedHdr len nlen =>
    obtain rfl | ⟨-, rfl⟩ | rfl := exec_storedHdr_next h
    exacts [faultShown_of_none he, faultShown_of_none he, faultShown_raise he _]
  case storedByte b =>
    obtain ⟨-, -, ⟨-, rfl⟩ | ⟨-, rfl⟩⟩ := exec_storedByte_next h
    exacts [faultShown_of_none he, faultShown_of_none ((storedOne_error _).trans he)]
  case lit b => obtain ⟨-, rfl⟩ | ⟨-, rfl⟩ := exec_lit_next h <;> exact faultShown_of_none he
  case cllen v =>
    obtain ⟨p, -, -, rfl⟩ := exec_cllen_next h
    exact faultShown_closeCllens he
  case clLen n => exact faultShown_putLens he (inFormat_next h).2
  case clRep r =>
    obtain ⟨-, h⟩ | ⟨-, rfl⟩ := exec_clRep_next h
    exacts [faultShown_repeatLens he h, faultShown_raise he _]
  case clZero3 r => exact faultShown_repeatLens he (inFormat_next h).2
  case clZero11 r => exact faultShown_repeatLens he (inFormat_next h).2
  case length i sym x hi =>
    rw [hi.exec] at h
    cases (inFormat_next h).2
    exact faultShown_of_none he
  case distance i c y hi =>
    rw [hi.exec] at h
    cases (inFormat_next h).2
    exact faultShown_startCopy he _
  case blockReserved f =>
    cases (inFormat_next h).2
    exact faultShown_raise (s := s.openBlock f 3) he _
  case llInvalid v =>
    cases (inFormat_next h).2
    exact faultShown_raise he _
  case distInvalid v =>
    cases (inFormat_next h).2
    exact faultShown_raise (s := { s with awaitDist := false }) he _
  all_goals
    cases (inFormat_next h).2
    exact faultShown_of_none he

theorem elementCase_faultShown {f : Format} {p t : State} (he : p.error = false) (h : ElementCase f p t) :
    FaultShown t := by
  cases h with
  | runs i used h free next => exact exec_faultShown (s := afterFetch f used p) he next
  | waits i used h emits full next => subst next; exact faultShown_of_none he
  | ends k h eos next =>
    obtain ⟨m, c, -, hc⟩ := failCursor_cases k (p.fetchReader f).unread.length (p.fieldsRead f (p.fetchBits f))
      (p.fetchReader f)
    rw [next, hc]
    exact faultShown_raise he k
  | holds k h eos next => subst next; exact faultShown_of_none he
  | rejects k used h next =>
    obtain ⟨m, c, -, hc⟩ := failCursor_cases k (used - (p.fetchReader f).held.length) p (p.fetchReader f)
    rw [next, hc]
    exact faultShown_raise he k

theorem step_faultShown {s t : State} (hr : s.rst = false) (he : s.error = false) (h : step s = .next t) :
    FaultShown t := by
  obtain ⟨hrst, -⟩ | ⟨-, ⟨f, -, hcase, -⟩ | ⟨-, -, hcopy⟩ | ⟨-, -, rfl⟩⟩ := step_cases h
  · exact absurd (hr.symm.trans hrst) (by decide)
  · obtain ⟨-, hcase⟩ | ⟨-, i, used, sym, x, -, -, -, hcase⟩ := hcase
    · exact elementCase_faultShown (p := s.portTick) he hcase
    · exact elementCase_faultShown (p := s.portTick.afterLength sym x used) he hcase
  · obtain ⟨-, b, -, ⟨-, rfl⟩ | ⟨-, rfl⟩⟩ := copyStep_next hcopy
    · exact faultShown_of_none he
    · refine faultShown_of_none ?_
      unfold State.copied
      split <;> exact he
  · exact faultShown_of_none he

/-- Settles O47: a step that emits takes no fault, and a fault is shown. -/
theorem faultingStepEmitsNothing : Obligations.FaultingStepEmitsNothing := by
  intro s t hr he h ht
  obtain hsame | ⟨b, -, -, herr⟩ := step_emitsAtMostOne hr h
  · exact ⟨congrArg Outside.out hsame, congrArg Outside.outLen hsame, congrArg Outside.win hsame,
      congrArg Outside.wrPtr hsame, congrArg Outside.histCnt hsame, congrArg Outside.outData hsame,
      congrArg Outside.outValid hsame, step_faultShown hr he h ht⟩
  · exact absurd (he.symm.trans (herr.symm.trans ht)) (by decide)

end Sys2Proof.Proofs

/-! Every step keeps the invariant. -/

namespace Sys2Proof.Proofs

open Sys2Proof.Machine
open Sys2Proof.Says

/-! ### The aligned cursor of a stored block -/

theorem brBit_eq_zero_iff (r : Reader) : r.brBit = 0 ↔ r.pos % 8 = 0 := by
  have hlt := r.brBit.isLt
  rw [Reader.pos]
  constructor
  · intro h
    rw [h]
    show (8 * r.brIndex + 0) % 8 = 0
    omega
  · intro h
    exact BitVec.eq_of_toNat_eq (show r.brBit.toNat = 0 by omega)

/-- Whole bytes read from an aligned cursor leave it aligned. -/
theorem aligned_consume {r : Reader} (h : r.brBit = 0) {n : Nat} (hn : n % 8 = 0) (hle : n ≤ r.unread.length) :
    (r.consume n).brBit = 0 := by
  rw [brBit_eq_zero_iff] at h ⊢
  obtain ⟨-, hpos, -⟩ := Reader.consume_spec n r
  rw [hpos, Nat.min_eq_left hle]
  omega

/-- At an aligned cursor whole bytes are to come. -/
theorem length_unread_aligned {r : Reader} (hr : r.Inv) (h : r.brBit = 0) : r.unread.length % 8 = 0 := by
  have hu : r.unread = streamBits (r.input.drop r.brIndex) := by
    rw [Reader.unread, not_brHave_of_aligned hr h, h]
    rfl
  rw [hu, streamBits_length]
  omega

/-- The bits of a stored element are those of whole bytes, and no more than there are. -/
theorem used_of_stored {c : Ctx} {bits : List Bool} {i : Instr} {n : Nat} (h : decode c bits = .ok i n)
    (hc : c.fmt = .stHdr ∨ c.fmt = .stData) : n % 8 = 0 := by
  obtain hc | hc := hc
  · simp only [decode, hc, decodeStoredHdr] at h
    obtain ⟨v, h, -⟩ := withField_eq_ok h
    obtain ⟨w, h, -⟩ := withField_eq_ok h
    cases h
    rfl
  · simp only [decode, hc, decodeStoredByte] at h
    obtain ⟨v, h, -⟩ := withField_eq_ok h
    cases h
    rfl

theorem used_le_length {c : Ctx} {bits : List Bool} {i : Instr} {n : Nat} (h : decode c bits = .ok i n) :
    n ≤ bits.length := by
  obtain ⟨-, -, hle, -⟩ := encodeOfDecode c bits i n h
  exact hle

theorem format_of_storedLen {f : Format} (h : phaseOf f = .storedLen) : f = .stHdr := by
  cases f <;> cases h
  rfl

theorem format_of_storedCopy {f : Format} (h : phaseOf f = .storedCopy) : f = .stData := by
  cases f <;> cases h
  rfl

/-! ### The readers of the cases of a step -/

/-- A state whose reader alone changes. -/
theorem inv_of_reader {s : State} (h : s.Inv) (he : s.rstEdge = false) {rd : Reader} (hr : rd.Inv)
    (hlen : s.phase = .storedLen → rd.held.length % 8 = 0 ∧ (rd.held ≠ [] → rd.brBit = 0))
    (hcopy : s.phase = .storedCopy → rd.brBit = 0 ∧ rd.held.length % 8 = 0) : ({ s with rd := rd } : State).Inv := by
  obtain ⟨-, hw, hs, ht, hp, -⟩ := h
  exact ⟨hr, ⟨hw.wf, hw.ptr, hw.hist, hw.len, hw.cells⟩,
    ⟨hs.error_iff, hs.code_none, hs.code_some, hs.busy, hs.done⟩, ⟨ht.clLens, ht.lens, ht.tCL, ht.tLL, ht.tD⟩,
    ⟨hlen, fun hc => ⟨(hp.storedCopy hc).1, hcopy hc⟩, hp.counts, hp.dynCllens, hp.dynLens, hp.await, hp.length,
      hp.copy⟩,
    edgeInv_of_no_edge he⟩

theorem Sound.of_reader {s : State} (h : Sound s) (he : s.rstEdge = false) {rd : Reader} (hr : rd.Inv) (c : Nat) :
    Sound { s with rd := rd, freeCtr := c } :=
  ⟨hr, ⟨h.window.wf, h.window.ptr, h.window.hist, h.window.len, h.window.cells⟩,
    ⟨h.tables.clLens, h.tables.lens, h.tables.tCL, h.tables.tLL, h.tables.tD⟩, edgeInv_of_no_edge he, h.error, h.code⟩

/-- A fault whose cursor is free keeps the invariant. -/
theorem raise_failCursor_inv {s : State} (h : Sound s) (he : s.rstEdge = false)
    (hlen : s.awaitDist = true → 3 ≤ s.matchLen.toNat ∧ s.matchLen.toNat ≤ 258) {rd : Reader} (hr : rd.Inv)
    (k : ErrKind) (n : Nat) : (State.raise k (State.failCursor k n { s with rd := rd })).Inv := by
  obtain ⟨m, c, -, hc⟩ := failCursor_cases k n s rd
  rw [hc]
  have hs : Sound { s with rd := { rd.consume m with held := [] }, freeCtr := c } :=
    h.of_reader he (Reader.inv_held (Reader.consume_inv hr m) []) c
  exact raise_inv hs k hlen

theorem fetchReader_inv {p : State} (h : p.Inv) (f : Format) : (p.fetchReader f).Inv := by
  unfold State.fetchReader
  split
  exacts [Reader.alignByte_inv h.reader, h.reader]

theorem fetchReader_held (f : Format) (p : State) : (p.fetchReader f).held = p.rd.held := by
  unfold State.fetchReader
  split
  exacts [p.rd.alignByte_held, rfl]

theorem length_fetchBits (f : Format) (p : State) :
    (p.fetchBits f).length = p.rd.held.length + (p.fetchReader f).unread.length := by
  rw [State.fetchBits, List.length_append, fetchReader_held]

/-- What is written of an incomplete header or of incomplete counts breaks nothing. -/
theorem inv_fieldsRead {s : State} (h : s.Inv) {f : Format} (hf : s.nextFormat = some f) (bits : List Bool) :
    (s.fieldsRead f bits).Inv := by
  have hphase := (nextFormat_some hf).2.1
  have ha := fun hd => not_awaitDist h.phase hf hd
  obtain ⟨hr, hw, hs, ht, hp, he⟩ := h
  have hpre : f ≠ .bh → f ≠ .dhCounts → s.fieldsRead f bits = s := fun h1 h2 => State.fieldsRead_of h1 h2 bits s
  by_cases h1 : f = .bh ∨ f = .dhCounts
  · have hfree : s.phase = .header ∨ s.phase = .dynCounts := by
      obtain rfl | rfl := h1
      exacts [.inl hphase, .inr hphase]
    have ha : ¬ s.awaitDist = true := ha (by rintro rfl; simp at h1)
    refine ⟨hr, ⟨hw.wf, hw.ptr, hw.hist, hw.len, hw.cells⟩,
      ⟨hs.error_iff, hs.code_none, hs.code_some, hs.busy, hs.done⟩, ⟨ht.clLens, ht.lens, ht.tCL, ht.tLL, ht.tD⟩,
      phaseInv_free ?_ ha, ⟨he.rst, he.reader⟩⟩
    obtain hfree | hfree := hfree
    exacts [.inl hfree, .inr (.inl hfree)]
  · rw [hpre (fun hc => h1 (.inl hc)) (fun hc => h1 (.inr hc))]
    exact ⟨hr, hw, hs, ht, hp, he⟩

section Step
variable {p : State} (h : p.Inv) {f : Format} (hf : p.nextFormat = some f) (hal : f = .stData → p.rd.brBit = 0)
include h hf hal

/-- In a stored block the cursor of the fetch is aligned, and whole bytes are held. -/
theorem aligned_fetch (hst : f = .stHdr ∨ f = .stData) :
    (p.fetchReader f).brBit = 0 ∧ p.rd.held.length % 8 = 0 := by
  have hphase := (nextFormat_some hf).2.1
  obtain rfl | rfl := hst
  · exact ⟨p.rd.alignByte_brBit, (h.phase.storedLen hphase).1⟩
  · exact ⟨hal rfl, (h.phase.storedCopy hphase).2.2⟩

/-- Past the element, or past all of the bits, the cursor is still aligned in a stored block. -/
theorem aligned_take (hst : f = .stHdr ∨ f = .stData) {n : Nat} (hn : n % 8 = 0) (hle : n ≤ (p.fetchBits f).length) :
    ((p.fetchReader f).take n).brBit = 0 := by
  obtain ⟨hbit, hheld⟩ := aligned_fetch h hf hal hst
  rw [length_fetchBits] at hle
  rw [Reader.take, fetchReader_held]
  exact aligned_consume hbit (by omega) (by omega)

theorem length_fetchBits_aligned (hst : f = .stHdr ∨ f = .stData) : (p.fetchBits f).length % 8 = 0 := by
  obtain ⟨hbit, hheld⟩ := aligned_fetch h hf hal hst
  have hun := length_unread_aligned (fetchReader_inv h f) hbit
  rw [length_fetchBits]
  omega

variable (hedge : p.rstEdge = false)
include hedge

/-- The bits of an element consumed up to bit n, whole bytes in a stored block. -/
theorem inv_take {n : Nat} {held : List Bool} (hn : f = .stHdr ∨ f = .stData → n % 8 = 0 ∧ held.length % 8 = 0)
    (hle : n ≤ (p.fetchBits f).length) :
    ({ p with rd := { (p.fetchReader f).take n with held := held } } : State).Inv := by
  have hphase := (nextFormat_some hf).2.1
  have hrd : ({ (p.fetchReader f).take n with held := held } : Reader).Inv :=
    Reader.inv_held (Reader.consume_inv (fetchReader_inv h f) _) held
  refine inv_of_reader h hedge hrd (fun hp => ?_) fun hp => ?_
  · have hst : f = .stHdr ∨ f = .stData := .inl (format_of_storedLen (hphase.symm.trans hp))
    exact ⟨(hn hst).2, fun _ => aligned_take h hf hal hst (hn hst).1 hle⟩
  · have hst : f = .stHdr ∨ f = .stData := .inr (format_of_storedCopy (hphase.symm.trans hp))
    exact ⟨aligned_take h hf hal hst (hn hst).1 hle, (hn hst).2⟩

/-- The step of one element keeps the invariant. -/
theorem elementCase_inv {t : State} (ht : ElementCase f p t) : t.Inv := by
  have hsound := sound_of_format h hf
  cases ht with
  | runs i used hd free next =>
    have hst := fun hc => used_of_stored hd hc
    have hq : (afterFetch f used p).Inv :=
      inv_take h hf hal hedge (fun hc => ⟨hst hc, rfl⟩) (used_le_length hd)
    refine exec_inv hq (decode_wellFormed hd) rfl (fun hp => ?_) next
    have hfmt : f = .stHdr := format_of_storedLen ((nextFormat_some hf).2.1.symm.trans hp)
    exact aligned_take h hf hal (.inl hfmt) (hst (.inl hfmt)) (used_le_length hd)
  | waits i used hd emits full next =>
    subst next
    refine inv_take h hf hal hedge (fun hc => ⟨used_of_stored hd hc, ?_⟩) (used_le_length hd)
    rw [List.length_take, Nat.min_eq_left (used_le_length hd)]
    exact used_of_stored hd hc
  | ends k hd eos next =>
    subst next
    exact raise_failCursor_inv (sound_of_format (inv_fieldsRead h hf _) hf) hedge h.phase.length (fetchReader_inv h f)
      k _
  | holds k hd eos next =>
    subst next
    have hlen := fun hst => length_fetchBits_aligned h hf hal hst
    have hq : State.Inv { p with
        rd := { (p.fetchReader f).take (p.fetchBits f).length with held := p.fetchBits f } } :=
      inv_take h hf hal hedge (fun hc => ⟨hlen hc, hlen hc⟩) (Nat.le_refl _)
    exact inv_fieldsRead hq hf _
  | rejects k used hd next =>
    subst next
    exact raise_failCursor_inv hsound hedge h.phase.length (fetchReader_inv h f) k _

end Step

/-- The state between length and distance keeps the invariant. -/
theorem afterLength_inv {p : State} (h : p.Inv) (hf : p.nextFormat = some .ll) (hedge : p.rstEdge = false) {i : Instr}
    {used sym : Nat} {x : BitVec 5} (hi : IsLength i sym x) (hd : decode (p.ctx .ll) (p.fetchBits .ll) = .ok i used) :
    (p.afterLength sym x used).Inv := by
  have hq : ({ p with rd := { p.rd.take used with held := [] } } : State).Inv :=
    inv_take h hf nofun hedge (fun hc => by simp at hc) (used_le_length hd)
  exact inv_length hq hi (decode_wellFormed hd) hf

theorem stepCase_inv {p t : State} (h : p.Inv) {f : Format} (hf : p.nextFormat = some f)
    (hal : f = .stData → p.rd.brBit = 0) (hedge : p.rstEdge = false) (ht : StepCase f p t) : t.Inv := by
  obtain ⟨-, ht⟩ | ⟨rfl, i, used, sym, x, hi, hd, hnext, ht⟩ := ht
  · exact elementCase_inv h hf hal hedge ht
  · exact elementCase_inv (afterLength_inv h hf hedge hi hd) hnext nofun hedge ht

/-- The port's move keeps the invariant. -/
theorem portTick_inv {s : State} (h : s.Inv) : s.portTick.Inv := by
  obtain ⟨hr, hw, hs, ht, hp, he⟩ := h
  exact ⟨hr, ⟨hw.wf, hw.ptr, hw.hist, hw.len, hw.cells⟩, ⟨hs.error_iff, hs.code_none, hs.code_some, rfl, rfl⟩,
    ⟨ht.clLens, ht.lens, ht.tCL, ht.tLL, ht.tD⟩,
    ⟨hp.storedLen, hp.storedCopy, hp.counts, hp.dynCllens, hp.dynLens, hp.await, hp.length, hp.copy⟩,
    ⟨he.rst, he.reader⟩⟩

theorem error_false_of_phase {s : State} (h : s.Inv) (hp : s.phase ≠ .error) : s.error = false := by
  rw [h.status.error_iff, decide_eq_false hp]

/-- The count of a COPY step keeps the invariant. -/
theorem copied_inv {s : State} (h : s.Inv) (hp : s.phase = .copy) : s.copied.Inv := by
  have ha : ¬ s.awaitDist = true := fun ha => by
    have hor := h.phase.await ha
    rw [hp] at hor
    simp at hor
  have hs := Sound.of_inv h (error_false_of_phase h (by rw [hp]; decide))
  obtain ⟨hne, hmax, hd1, hd2, hd3⟩ := h.phase.copy hp
  have htab := h.tables
  have hsound : Sound { s with copyRem := s.copyRem - 1 } :=
    hs.of_outside rfl ⟨htab.clLens, htab.lens, htab.tCL, htab.tLL, htab.tD⟩ rfl rfl
  unfold State.copied
  split
  · exact goto_inv hsound (by decide) (phaseInv_free (.inr (.inr (.inl rfl))) ha)
  · rename_i hmore
    have hle : (s.copyRem - 1).toNat ≤ 258 := by bv_omega
    exact ⟨hsound.reader, hsound.window,
      ⟨h.status.error_iff, h.status.code_none, h.status.code_some, h.status.busy, h.status.done⟩, hsound.tables,
      ⟨h.phase.storedLen, h.phase.storedCopy, h.phase.counts, h.phase.dynCllens, h.phase.dynLens, h.phase.await,
        h.phase.length, fun _ => ⟨hmore, hle, hd1, hd2, hd3⟩⟩, hsound.edge⟩

theorem copyStep_inv {s t : State} (h : s.Inv) (hp : s.phase = .copy) (ht : copyStep s = .next t) : t.Inv := by
  obtain ⟨-, b, -, ⟨-, rfl⟩ | ⟨-, rfl⟩⟩ := copyStep_next ht
  exacts [h, copied_inv (emit_inv h b) hp]

theorem rstEdge_false {s : State} (h : s.Inv) (hr : s.rst = false) : s.rstEdge = false := by
  cases he : s.rstEdge
  · rfl
  · exact absurd (hr.symm.trans (h.edge.rst he)) (by decide)

/-- Settles O59: reset, the step of a format, a COPY step and the port's move each keep the invariant. -/
theorem invKept : Obligations.InvKept := by
  intro s t h hstep
  have hp := portTick_inv h
  obtain ⟨hrst, rfl⟩ | ⟨hrst, ⟨f, hf, hcase, hal⟩ | ⟨hphase, -, hcopy⟩ | ⟨-, -, rfl⟩⟩ := step_cases hstep
  · rw [afterReset_eq_freshState]
    exact freshState_inv _ _ _ (fun _ => hrst) _
  · exact stepCase_inv hp hf hal (rstEdge_false hp hrst) hcase
  · exact copyStep_inv hp hphase hcopy
  · exact hp

/-! ### What the invariant says at every step -/

/-- Settles O16: in a state of the invariant the bytes taken are those of the bits consumed. -/
theorem bytesTaken : Obligations.BytesTaken := by
  intro s t h hstep
  have hr := (invKept s t h hstep).reader
  exact ⟨Reader.inCnt_eq hr, hr.bound⟩

/-- Settles O40: hist_cnt is out_len up to the size of the window. -/
theorem distanceCheckForms : Obligations.DistanceCheckForms := by
  intro s d h hd
  have hhist := h.window.hist
  omega

/-- Settles O56: the status of the invariant, read out. -/
theorem statusPorts : Obligations.StatusPorts := by
  intro s t h hstep
  obtain ⟨herr, hnone, -, hbusy, hdone⟩ := (invKept s t h hstep).status
  refine ⟨?_, ?_, ?_, ?_, hnone⟩
  · rw [hbusy, State.busyValue]
    cases t.phase <;> simp [isTerminal]
  · rw [hdone, State.doneValue]
    simp
  · rw [herr, decide_eq_true_iff]
  · rintro ⟨h1, h2⟩
    rw [hdone, State.doneValue] at h1
    rw [herr, decide_eq_true_iff] at h2
    rw [h2] at h1
    exact absurd h1 (by simp)

end Sys2Proof.Proofs

/-! Where the invariant holds no step stops; the COPY step (45_window_copy.md R345, R346, R348). -/

namespace Sys2Proof.Proofs

open Sys2Proof.Machine
open Sys2Proof.Says

/-! ### The copy -/

/-- The byte a COPY step reads (R345): it is in the output and in the window. -/
theorem copy_source {s : State} (h : s.Inv) (hp : s.phase = .copy) :
    ∃ b, s.out[s.outLen - s.matchDist.toNat]? = some b ∧
      s.win.read ((s.wrPtr.toNat + 32768 - s.matchDist.toNat) % 32768) = some b ∧ s.winBack = some b := by
  obtain ⟨-, -, hd1, hd2, hd3⟩ := h.phase.copy hp
  have hlt : s.outLen - s.matchDist.toNat < s.out.length := by
    rw [h.window.len]
    omega
  have hout := List.getElem?_eq_getElem hlt
  have hcell := (h.window.cells s.matchDist.toNat hd1 (by omega)).trans hout
  refine ⟨_, hout, hcell, ?_⟩
  rw [State.winBack, winBack_address, ← hcell]
  congr 1
  omega

/-- A COPY step on a free port (R345). -/
theorem copyStep_free {s : State} {b : Byte} (hp : s.phase = .copy) (hrem : s.copyRem ≠ 0) (hb : s.winBack = some b)
    (hfree : s.outValid = false) :
    copyStep s = .next
      { emitted b s with
        copyRem := s.copyRem - 1
        phase := if s.copyRem - 1 = 0 then .symbol else .copy } := by
  rw [copyStep_reads hrem hb, whenPortFree_of_free hfree, emit_eq_emitted, State.copied]
  by_cases hz : s.copyRem - 1 = 0
  · have hz' : (emitted b s).copyRem - 1 = 0 := hz
    rw [if_pos hz', if_pos hz]
    rfl
  · have hz' : ¬ (emitted b s).copyRem - 1 = 0 := hz
    rw [if_neg hz', if_neg hz, ← hp]
    rfl

/-- In a state of the invariant a move of the port that takes nothing changes nothing. -/
theorem portTick_of_occupied {s : State} (h : s.Inv) (hv : s.outValid = true) (hready : s.outReady = false) :
    s.portTick = s := by
  have hkeep : (s.outValid && !s.outReady) = s.outValid := by rw [hv, hready]; rfl
  have hset : s.portTick = { s with busy := s.busyValue, done := s.doneValue } := by
    rw [State.portTick, hkeep]
    rfl
  rw [hset, ← h.status.busy, ← h.status.done]

/-- Settles O38: the byte by `copy_source`, the step by the state of the port. -/
theorem copyStepEmits : Obligations.CopyStepEmits := by
  intro s h hr hp
  have hrem := (h.phase.copy hp).1
  obtain ⟨b, hout, hwin, hb⟩ := copy_source h hp
  have hstep := step_copyStep hr hp (error_false_of_phase h (by rw [hp]; decide))
  refine ⟨fun hfree => ⟨b, hout, hwin, ?_⟩, fun hv hready => ?_⟩
  · have hfree : s.portTick.outValid = false := by
      show (s.outValid && !s.outReady) = false
      obtain hv | hready := hfree
      · rw [hv]; rfl
      · rw [hready, Bool.not_true, Bool.and_false]
    exact hstep.trans (copyStep_free (s := s.portTick) hp hrem hb hfree)
  · rw [hstep, portTick_of_occupied h hv hready, copyStep_reads hrem hb, whenPortFree_of_occupied hv]

/-- t is s after n bytes of the copy have repeated the last match_dist bytes (R346). -/
def CopiedCyclically (n : Nat) (s t : State) : Prop :=
  t.phase = .symbol ∧ t.rd = s.rd ∧ t.outLen = s.outLen + n ∧ (∀ k, k < s.outLen → t.out[k]? = s.out[k]?) ∧
    ∀ i, i < n → t.out[s.outLen + i]? = s.out[s.outLen - s.matchDist.toNat + i % s.matchDist.toNat]?

/-- One more byte in front of a cyclic copy: what it reads is the byte match_dist back, or the one that byte became. -/
theorem copiedCyclically_cons {n : Nat} {s u t : State} {b : Byte} (hlen : s.out.length = s.outLen)
    (hd : 1 ≤ s.matchDist.toNat) (hle : s.matchDist.toNat ≤ s.outLen)
    (hb : s.out[s.outLen - s.matchDist.toNat]? = some b) (hrd : u.rd = s.rd) (hout : u.out = s.out ++ [b])
    (hcnt : u.outLen = s.outLen + 1) (hdist : u.matchDist = s.matchDist) (h : CopiedCyclically n u t) :
    CopiedCyclically (n + 1) s t := by
  obtain ⟨hphase, hrd', hcnt', hold, hnew⟩ := h
  have hu : ∀ k, k < s.outLen → u.out[k]? = s.out[k]? := fun k hk => by
    rw [hout, List.getElem?_append_left (by omega)]
  have hlast : u.out[s.outLen]? = some b := by
    rw [hout, List.getElem?_append_right (by omega), hlen, Nat.sub_self]
    rfl
  refine ⟨hphase, hrd'.trans hrd, by omega, fun k hk => ?_, fun i hi => ?_⟩
  · rw [hold k (by omega), hu k hk]
  · cases i with
    | zero => rw [Nat.zero_mod, Nat.add_zero, Nat.add_zero, hold _ (by omega), hlast, hb]
    | succ i =>
      have hmod : i % s.matchDist.toNat < s.matchDist.toNat := Nat.mod_lt _ hd
      have hnew := hnew i (by omega)
      rw [hcnt, hdist] at hnew
      rw [show s.outLen + (i + 1) = s.outLen + 1 + i by omega, hnew]
      by_cases hwrap : i % s.matchDist.toNat + 1 = s.matchDist.toNat
      · have hzero : (i + 1) % s.matchDist.toNat = 0 := by
          rw [← Nat.mod_add_mod, hwrap, Nat.mod_self]
        rw [hzero, Nat.add_zero (s.outLen - _), hb, ← hlast]
        congr 1
        omega
      · have hsucc : (i + 1) % s.matchDist.toNat = i % s.matchDist.toNat + 1 := by
          rw [← Nat.mod_add_mod, Nat.mod_eq_of_lt (by omega)]
        rw [hsucc, ← hu _ (by omega)]
        congr 1
        omega

/-- A copy of n bytes, the downstream ready, is n steps. -/
theorem run_copy (n : Nat) {s : State} (h : s.Inv) (hr : s.rst = false) (hp : s.phase = .copy)
    (hready : s.outReady = true) (hn : s.copyRem.toNat = n) :
    ∃ t, Host.Core.run core n s = .next t ∧ CopiedCyclically n s t := by
  induction n generalizing s with
  | zero => exact absurd (BitVec.eq_of_toNat_eq hn) (h.phase.copy hp).1
  | succ n ih =>
    obtain ⟨-, -, hd1, -, hd3⟩ := h.phase.copy hp
    obtain ⟨b, hb, -, hstep⟩ := (copyStepEmits s h hr hp).1 (.inr hready)
    have hu := invKept s _ h hstep
    have hcount : (s.copyRem - 1).toNat = n := by bv_omega
    have hcons := fun {t} => copiedCyclically_cons (n := n) (t := t) h.window.len hd1 hd3 hb
      (u := { emitted b s with copyRem := s.copyRem - 1, phase := if s.copyRem - 1 = 0 then .symbol else .copy })
      rfl rfl rfl rfl
    rw [run_next hstep]
    by_cases hz : s.copyRem - 1 = 0
    · obtain rfl : n = 0 := by rw [← hcount, hz]; rfl
      exact ⟨_, rfl, hcons ⟨if_pos hz, rfl, rfl, fun _ _ => rfl, nofun⟩⟩
    · obtain ⟨t, hrun, hcopied⟩ := ih hu hr (if_neg hz) hready hcount
      exact ⟨t, hrun, hcons hcopied⟩

/-- Settles O39. -/
theorem copyIsCyclic : Obligations.CopyIsCyclic := fun _ h hr hp hready => run_copy _ h hr hp hready rfl

/-! ### No step stops -/

/-- A stored data byte is read from an aligned cursor. -/
theorem aligned_of_inv {s : State} (h : s.Inv) {f : Format} (hf : s.nextFormat = some f) :
    f = .stData → s.rd.brBit = 0 := by
  rintro rfl
  exact (h.phase.storedCopy (nextFormat_some hf).2.1).2.1

theorem portTick_of_format {s : State} {f : Format} (hf : s.nextFormat = some f) : s.portTick = portMoved s :=
  portTick_eq_portMoved ((nextFormat_some hf).2.1 ▸ isTerminal_phaseOf f)

section Total
variable {s : State} (h : s.Inv) (hr : s.rst = false) {f : Format} (hf : s.nextFormat = some f)
include h hr hf

/-- Past a complete element the invariant holds. -/
theorem pastElement_inv {i : Instr} {n : Nat} (hd : decode (s.ctx f) (bitsFor f s) = .ok i n) :
    (pastElement f n s).Inv := by
  have hp := portTick_inv h
  have hq : (afterFetch f n s.portTick).Inv :=
    inv_take hp hf (aligned_of_inv h hf) (rstEdge_false hp hr) (fun hc => ⟨used_of_stored hd hc, rfl⟩)
      (used_le_length hd)
  have heq : afterFetch f n s.portTick = pastElement f n s := by
    rw [portTick_of_format hf, pastElement, ← take_readerFor]
    rfl
  exact heq ▸ hq

theorem afterLengthOf_inv {i : Instr} {n sym : Nat} {x : BitVec 5} (hi : IsLength i sym x)
    (hd : decode (s.ctx f) (bitsFor f s) = .ok i n) : (afterLengthOf sym x n s).Inv := by
  obtain rfl : f = .ll := ((decode_format hd).symm.trans hi.format :)
  exact inv_length (pastElement_inv h hr hf hd) hi (decode_wellFormed hd) hf

/-- A step whose first element is no length answers a next state. -/
theorem step_total_of_no_length (hnl : ∀ i n, decode (s.ctx f) (bitsFor f s) = .ok i n → ¬ lengthElement i) :
    ∃ t, step s = .next t := by
  have hal := aligned_of_inv h hf
  cases hd : decode (s.ctx f) (bitsFor f s) with
  | ok i n =>
    cases hw : i.emits && (s.outValid && !s.outReady)
    · rw [step_runs hr hf hal hd (hnl i n hd) hw]
      exact exec_total (pastElement_inv h hr hf hd) (hf.trans (congrArg some (decode_format hd).symm))
    · exact ⟨_, step_waits hr hf hal hd hw⟩
  | short k =>
    cases he : s.rd.inEos
    · exact ⟨_, step_holds hr hf hal hd he⟩
    · exact ⟨_, step_ends hr hf hal hd he⟩
  | reject k used => exact ⟨_, step_rejects hr hf hal hd⟩

end Total

/-- No element of format D is a length. -/
theorem not_lengthElement_of_format {i : Instr} (h : i.format ≠ .ll) : ¬ lengthElement i := fun hl => by
  obtain ⟨sym, x, hi⟩ := IsLength.of_lengthElement hl
  exact h hi.format

/-- A step of a format answers a next state; after a length the distance code does. -/
theorem step_total_of_format {s : State} (h : s.Inv) (hr : s.rst = false) {f : Format} (hf : s.nextFormat = some f) :
    ∃ t, step s = .next t := by
  by_cases hl : ∃ i n, decode (s.ctx f) (bitsFor f s) = .ok i n ∧ lengthElement i
  · obtain ⟨i, n, hd, hl⟩ := hl
    obtain ⟨sym, x, hi⟩ := IsLength.of_lengthElement hl
    obtain rfl : f = .ll := ((decode_format hd).symm.trans hi.format :)
    rw [(step_length hi hr hf hd).2]
    refine step_total_of_no_length (afterLengthOf_inv h hr hf hi hd) hr (nextFormat_afterLengthOf hf sym x n)
      fun j m hj => not_lengthElement_of_format ?_
    rw [decode_format hj]
    exact (by decide : Format.d ≠ .ll)
  · exact step_total_of_no_length h hr hf fun i n hd hi => hl ⟨i, n, hd, hi⟩

/-- Settles O60: by what the step does. -/
theorem invNeverStops : Obligations.InvNeverStops := by
  intro s h
  cases hr : s.rst
  · cases hf : s.nextFormat with
    | some f => exact step_total_of_format h hr hf
    | none =>
      by_cases hc : s.phase = .copy ∧ s.error = false
      · cases hv : s.outValid
        · obtain ⟨b, -, -, hstep⟩ := (copyStepEmits s h hr hc.1).1 (.inl hv)
          exact ⟨_, hstep⟩
        · cases hready : s.outReady
          · exact ⟨_, (copyStepEmits s h hr hc.1).2 hv hready⟩
          · obtain ⟨b, -, -, hstep⟩ := (copyStepEmits s h hr hc.1).1 (.inr hready)
            exact ⟨_, hstep⟩
      · exact ⟨_, step_idle hr hf hc⟩
  · exact ⟨_, step_reset hr⟩

end Sys2Proof.Proofs

/-! A step that waits, for the output port or for a byte of input, resumes where it was (20_memory.md R63, R66;
44_symbols.md R323). -/

namespace Sys2Proof.Proofs

open Sys2Proof.Machine
open Sys2Proof.Says

/-! ### The output port -/

/-- The formats of the elements that emit. -/
theorem format_of_emits {i : Instr} (h : i.emits = true) : i.format = .ll ∨ i.format = .stData := by
  obtain ⟨b, rfl⟩ | ⟨b, rfl⟩ := emits_cases h
  exacts [.inl rfl, .inr rfl]

/-- The state in which a complete element waits for the output port (log 5). -/
def waitingState (f : Format) (n : Nat) (s : State) : State :=
  { pastElement f n s with rd := { (pastElement f n s).rd with held := (bitsFor f s).take n } }

/-- The waiting element is decoded again from the bits held. -/
theorem bitsFor_waitingState {f : Format} (hf : f ≠ .stHdr) {s : State} {n : Nat} (hheld : s.rd.held.length ≤ n) :
    bitsFor f (waitingState f n s) = bitsFor f s := by
  have hun : (waitingState f n s).rd.unread = (bitsFor f s).drop n := by
    show ((readerFor f s).consume (n - s.rd.held.length)).unread = _
    rw [Reader.consume_unread, bitsFor, readerFor_held, List.drop_append, List.drop_eq_nil_of_le hheld, List.nil_append]
  rw [bitsFor, readerFor_of_ne hf, hun]
  exact List.take_append_drop n _

/-- The bits of the element are consumed already. -/
theorem pastElement_waitingState {f : Format} (hf : f ≠ .stHdr) {s : State} {n : Nat} (hle : n ≤ (bitsFor f s).length) :
    pastElement f n { waitingState f n s with outReady := true } = pastElement f n { s with outReady := true } := by
  have hheld : n - (waitingState f n s).rd.held.length = 0 := by
    show n - ((bitsFor f s).take n).length = 0
    rw [List.length_take, Nat.min_eq_left hle, Nat.sub_self]
  have hrd : (waitingState f n s).rd = { s.rd.consume (n - s.rd.held.length) with held := (bitsFor f s).take n } := by
    rw [waitingState, pastElement, readerFor_of_ne hf]
  have hport : ∀ v : Bool, (v && !true) = false := by simp
  simp only [pastElement, portMoved, readerFor_of_ne hf, hport, hheld]
  rw [hrd]
  rfl

/-- Settles O52: the waiting element holds the bits of the element, so the next step decodes and runs the same one. -/
theorem slowDownstreamOnlyDelays : Obligations.SlowDownstreamOnlyDelays := by
  intro s f i n h hr hf hd hemits hheld hv hready
  have hne : f ≠ .stHdr := by
    have hfmt : i.format = f := decode_format hd
    obtain hc | hc := format_of_emits hemits <;> rw [← hfmt, hc] <;> decide
  have hnl : ¬ lengthElement i := fun hl => by
    obtain ⟨sym, x, hi⟩ := IsLength.of_lengthElement hl
    exact absurd (hi.emits.symm.trans hemits) (by decide)
  have hb : bitsFor f s = s.rd.held ++ s.rd.unread := by rw [bitsFor, readerFor_of_ne hne]
  rw [← hb] at hd
  have hwait : (i.emits && (s.outValid && !s.outReady)) = true := by rw [hemits, hv, hready]; rfl
  have hstep := step_waits hr hf (aligned_of_inv h hf) hd hwait
  have hinv := invKept s _ h hstep
  obtain ⟨u, hu⟩ : ∃ u, u = waitingState f n s := ⟨_, rfl⟩
  have hstep : step s = .next u := hu ▸ hstep
  have hinv : u.Inv := hu ▸ hinv
  refine ⟨u, hstep, hu ▸ rfl, hu ▸ rfl, ?_, hu ▸ rfl, ?_⟩
  · rw [hu]
    show (s.outValid && !s.outReady) = true
    rw [hv, hready]
    rfl
  have hbits : bitsFor f { u with outReady := true } = bitsFor f s := hu ▸ bitsFor_waitingState hne hheld
  have hru : ({ u with outReady := true } : State).rst = false := hu ▸ hr
  have hfu : ({ u with outReady := true } : State).nextFormat = some f := hu ▸ hf
  have hdu : decode (({ u with outReady := true } : State).ctx f) (bitsFor f { u with outReady := true }) =
      .ok i n := by
    rw [hbits, hu]
    exact hd
  have hfree : ∀ v, (i.emits && (v && !true)) = false := by simp
  rw [step_runs hru hfu (aligned_of_inv (inv_setOutReady hinv true) hfu) hdu hnl (hfree _),
    step_runs (s := { s with outReady := true }) hr hf (aligned_of_inv h hf) hd hnl (hfree _), hu,
    pastElement_waitingState hne (used_le_length hd)]

/-! ### One more byte of input -/

/-- The upstream has offered one more byte (the move `State.offerByte`). -/
def offered (b : Byte) (s : State) : State := { s with rd := { s.rd with input := s.rd.input ++ [b] } }

theorem bump_input (r : Reader) (l : List Byte) :
    ({ r with input := l } : Reader).bump = { r.bump with input := l } := by
  unfold Reader.bump
  dsimp only
  split <;> rfl

theorem bump_held (r : Reader) (l : List Bool) : ({ r with held := l } : Reader).bump = { r.bump with held := l } := by
  unfold Reader.bump
  dsimp only
  split <;> rfl

theorem needByte_offer {r q : Reader} (h : r.needByte = some q) (b : Byte) :
    ({ r with input := r.input ++ [b] } : Reader).needByte = some { q with input := q.input ++ [b] } := by
  by_cases hh : r.brHave = true
  · rw [needByte_held hh] at h
    cases h
    exact needByte_held (r := { r with input := r.input ++ [b] }) hh
  · have hh : r.brHave = false := eq_false_of_ne_true hh
    cases hb : r.input[r.brIndex]? with
    | none => rw [needByte_none hh hb] at h; cases h
    | some c =>
      rw [needByte_offered hh hb] at h
      cases h
      refine needByte_offered (r := { r with input := r.input ++ [b] }) hh ?_
      show (r.input ++ [b])[r.brIndex]? = some c
      rw [List.getElem?_append_left (List.getElem?_eq_some_iff.mp hb).1, hb]

theorem needByte_hold (r : Reader) (l : List Bool) :
    ({ r with held := l } : Reader).needByte = r.needByte.map fun q => { q with held := l } := by
  unfold Reader.needByte
  dsimp only
  split
  · rfl
  · split <;> rfl

theorem getBit_of_needByte {r q : Reader} (h : r.needByte = some q) :
    r.getBit = some (q.brByte.getLsbD q.brBit.toNat, q.bump) := by
  rw [Reader.getBit, h]; rfl

theorem consume_of_needByte {r q : Reader} (h : r.needByte = some q) (n : Nat) :
    r.consume (n + 1) = q.bump.consume n := by
  simp only [Reader.consume, getBit_of_needByte h]

theorem needByte_of_unread {r : Reader} (h : r.unread ≠ []) : ∃ q, r.needByte = some q := by
  cases hn : r.needByte with
  | none => exact absurd (Reader.getBit_none.mp (by rw [Reader.getBit, hn]; rfl)) h
  | some q => exact ⟨q, rfl⟩

/-- Bits that are there are read alike with one more byte behind them. -/
theorem consume_offer {r : Reader} {n : Nat} (h : n ≤ r.unread.length) (b : Byte) :
    ({ r with input := r.input ++ [b] } : Reader).consume n = { r.consume n with input := r.input ++ [b] } := by
  induction n generalizing r with
  | zero => rfl
  | succ n ih =>
    obtain ⟨q, hq⟩ := needByte_of_unread (r := r) (by rintro hu; rw [hu] at h; cases h)
    obtain ⟨hu, -, hin, -⟩ := Reader.getBit_some (getBit_of_needByte hq)
    rw [consume_of_needByte hq, consume_of_needByte (needByte_offer hq b), bump_input]
    rw [hu] at h
    have hrec := ih (r := q.bump) (Nat.le_of_succ_le_succ h)
    rw [hin] at hrec
    rw [← hrec, ← hin, Reader.bump_input]

/-- The bits held play no part in reading. -/
theorem consume_hold (r : Reader) (l : List Bool) (n : Nat) :
    ({ r with held := l } : Reader).consume n = { r.consume n with held := l } := by
  induction n generalizing r with
  | zero => rfl
  | succ n ih =>
    cases hq : r.needByte with
    | none =>
      have hn : r.getBit = none := by rw [Reader.getBit, hq]; rfl
      have hn' : ({ r with held := l } : Reader).getBit = none := by rw [Reader.getBit, needByte_hold, hq]; rfl
      simp only [Reader.consume, hn, hn']
    | some q =>
      have hq' : ({ r with held := l } : Reader).needByte = some { q with held := l } := by rw [needByte_hold, hq]; rfl
      rw [consume_of_needByte hq, consume_of_needByte hq', bump_held, ih]

theorem unread_offer {r : Reader} (hr : r.Inv) (b : Byte) :
    ({ r with input := r.input ++ [b] } : Reader).unread = r.unread ++ byteBits b := by
  have hle := hr.bound
  rw [hr.count] at hle
  unfold Reader.unread
  dsimp only
  split
  · rename_i hh
    have hle : r.brIndex + 1 ≤ r.input.length := by rwa [hh] at hle
    rw [List.drop_append_of_le_length hle, streamBits_append, List.append_assoc]
    simp [streamBits]
  · rename_i hh
    have hbit : r.brBit = 0 := by
      have hiff := hr.have_iff
      rw [eq_false_of_ne_true hh] at hiff
      simpa using hiff
    rw [List.drop_append_of_le_length (by omega), hbit, streamBits_append]
    simp [streamBits]

theorem alignByte_offer (r : Reader) (b : Byte) :
    ({ r with input := r.input ++ [b] } : Reader).alignByte = { r.alignByte with input := r.input ++ [b] } := by
  unfold Reader.alignByte
  dsimp only
  split <;> rfl

theorem readerFor_offered (f : Format) (b : Byte) (s : State) :
    readerFor f (offered b s) = { readerFor f s with input := (readerFor f s).input ++ [b] } := by
  unfold readerFor
  split
  · rw [Reader.alignByte_input]
    exact alignByte_offer s.rd b
  · rfl

theorem readerFor_inv {s : State} (h : s.Inv) (f : Format) : (readerFor f s).Inv := fetchReader_inv h f

theorem bitsFor_offered {s : State} (h : s.Inv) (f : Format) (b : Byte) :
    bitsFor f (offered b s) = bitsFor f s ++ byteBits b := by
  rw [bitsFor, readerFor_offered, unread_offer (readerFor_inv h f), ← List.append_assoc]
  rfl

/-! ### The step that holds -/

/-- The state a step of format f holds in when its element is not all there (log 4). -/
def heldState (f : Format) (s : State) : State :=
  { shortStart f s with rd := { (readerFor f s).consume (readerFor f s).unread.length with held := bitsFor f s } }

/-- Holding, the step has consumed all bits there are. -/
theorem unread_heldState (f : Format) (s : State) : (heldState f s).rd.unread = [] := by
  show ((readerFor f s).consume (readerFor f s).unread.length).unread = []
  rw [Reader.consume_unread, List.drop_length]

section Held
variable {s : State} (h : s.Inv) (f : Format) (b : Byte)
include h

/-- All bits consumed, an aligned cursor is aligned: STORED_LEN aligns it once. -/
theorem readerFor_heldState : readerFor f (heldState f s) = (heldState f s).rd := by
  by_cases hf : f = .stHdr
  · subst hf
    have hbit : (readerFor .stHdr s).brBit = 0 := s.rd.alignByte_brBit
    have hlen := length_unread_aligned (readerFor_inv h .stHdr) hbit
    exact alignByte_of_aligned (r := (heldState .stHdr s).rd) (aligned_consume hbit hlen (Nat.le_refl _))
  · exact readerFor_of_ne hf _

/-- With one more byte, the bits of the resumed step are those of the step that has the byte from the start. -/
theorem bitsFor_offered_heldState : bitsFor f (offered b (heldState f s)) = bitsFor f (offered b s) := by
  have hrd : (heldState f s).rd.Inv := Reader.inv_held (Reader.consume_inv (readerFor_inv h f) _) _
  rw [bitsFor_offered h, bitsFor, readerFor_offered, readerFor_heldState h, unread_offer hrd, unread_heldState]
  rfl

/-- So are the cursors. -/
theorem consume_offered_heldState (m : Nat) :
    (readerFor f (offered b (heldState f s))).consume m =
      { (readerFor f (offered b s)).consume ((readerFor f s).unread.length + m) with held := bitsFor f s } := by
  rw [readerFor_offered, readerFor_heldState h, readerFor_offered, Reader.consume_add, consume_offer (Nat.le_refl _)]
  have hin : (heldState f s).rd.input = (readerFor f s).input := Reader.consume_input _ _
  rw [hin]
  exact consume_hold
    { (readerFor f s).consume (readerFor f s).unread.length with input := (readerFor f s).input ++ [b] } (bitsFor f s) m

end Held

/-- The port's second move in a resumed step changes nothing, and the fields read are written. -/
theorem portMoved_offered_heldState (s : State) (f : Format) (b : Byte) (rd : Reader) :
    ({ portMoved (offered b (heldState f s)) with rd := rd } : State) =
      fieldsWritten f (bitsFor f s) { portMoved (offered b s) with rd := rd } := by
  show ({ portMoved (offered b (heldState f s)) with
    rd := rd, outValid := (s.outValid && !s.outReady) && !s.outReady } : State) = _
  rw [outValid_moved_twice]
  rfl

theorem fieldsWritten_of {f : Format} (h1 : f ≠ .bh) (h2 : f ≠ .dhCounts) (bits : List Bool) (s : State) :
    fieldsWritten f bits s = s := by
  rw [← fieldsRead_eq_fieldsWritten, State.fieldsRead_of h1 h2]

theorem ite_override {α : Type} {p q : Prop} [Decidable p] [Decidable q] (h : q → p) (a b c : α) :
    (if p then a else if q then b else c) = if p then a else c := by
  by_cases hp : p
  · rw [if_pos hp, if_pos hp]
  · rw [if_neg hp, if_neg hp, if_neg fun hq => hp (h hq)]

/-- The fields read from more bits are written over those read before. -/
theorem fieldsWritten_fieldsWritten (f : Format) {bits more : List Bool} (h : bits.length ≤ more.length) (s : State) :
    fieldsWritten f more (fieldsWritten f bits s) = fieldsWritten f more s := by
  simp only [fieldsWritten]
  rw [ite_override fun hq => ⟨hq.1, hq.2.trans h⟩, ite_override fun hq => ⟨hq.1, hq.2.trans h⟩,
    ite_override fun hq => ⟨hq.1, hq.2.trans h⟩]

theorem fieldsWritten_bh (bits : List Bool) (p : State) :
    ∃ v, fieldsWritten .bh bits p = { p with bfinal := v } :=
  ⟨(fieldsWritten .bh bits p).bfinal, by simp [fieldsWritten]⟩

theorem fieldsWritten_dhCounts (bits : List Bool) (p : State) :
    ∃ v w, fieldsWritten .dhCounts bits p = { p with hlit := v, hdist := w } :=
  ⟨(fieldsWritten .dhCounts bits p).hlit, (fieldsWritten .dhCounts bits p).hdist, by simp [fieldsWritten]⟩

/-- A header element writes bfinal itself. -/
theorem exec_bfinal {i : Instr} (hi : i.format = .bh) (v : Bool) (p : State) :
    exec i { p with bfinal := v } = exec i p := by
  induction i using Instr.byShape
  case blockStored g => rfl
  case blockFixed g => rfl
  case blockDynamic g => rfl
  case blockReserved g => rfl
  case length i sym x hx => exact absurd (hx.format.symm.trans hi) (by decide)
  case distance i c y hy => exact absurd (hy.format.symm.trans hi) (by decide)
  all_goals cases hi

/-- The counts element writes hlit and hdist itself. -/
theorem exec_hlit_hdist {i : Instr} (hi : i.format = .dhCounts) (v : BitVec 9) (w : BitVec 6) (p : State) :
    exec i { p with hlit := v, hdist := w } = exec i p := by
  induction i using Instr.byShape
  case dynCounts l d c => rfl
  case length i sym x hx => exact absurd (hx.format.symm.trans hi) (by decide)
  case distance i c y hy => exact absurd (hy.format.symm.trans hi) (by decide)
  all_goals cases hi

/-- A complete element writes its own fields, whatever stood there. -/
theorem exec_fieldsWritten {i : Instr} {f : Format} (hi : i.format = f) (bits : List Bool) (p : State) :
    exec i (fieldsWritten f bits p) = exec i p := by
  by_cases hbh : f = .bh
  · subst hbh
    obtain ⟨v, hv⟩ := fieldsWritten_bh bits p
    rw [hv, exec_bfinal hi]
  · by_cases hdh : f = .dhCounts
    · subst hdh
      obtain ⟨v, w, hvw⟩ := fieldsWritten_dhCounts bits p
      rw [hvw, exec_hlit_hdist hi]
    · rw [fieldsWritten_of hbh hdh]

theorem heldState_eq (f : Format) (s : State) :
    heldState f s = fieldsWritten f (bitsFor f s)
      { portMoved s with
        rd := { (readerFor f s).consume (readerFor f s).unread.length with held := bitsFor f s } } := rfl

/-- The condition under which an element waits is the same after the port has moved once more. -/
theorem waits_offered_heldState (s : State) (f : Format) (b : Byte) (i : Instr) :
    (i.emits && ((offered b (heldState f s)).outValid && !(offered b (heldState f s)).outReady)) =
      (i.emits && (s.outValid && !s.outReady)) := by
  show (i.emits && ((s.outValid && !s.outReady) && !s.outReady)) = _
  rw [outValid_moved_twice]

/-- A fault found in the element leaves the same state in both orders, the cursor aside. -/
theorem fetchStart_offered_heldState (s : State) {f : Format} (b : Byte) (hbh : f ≠ .bh) (hdh : f ≠ .dhCounts) :
    ∃ (p : State) (r r' : Reader), fetchStart f (offered b (heldState f s)) = { p with rd := r } ∧
      fetchStart f (offered b s) = { p with rd := r' } :=
  ⟨portMoved (offered b s), readerFor f (offered b (heldState f s)), readerFor f (offered b s),
    (portMoved_offered_heldState s f b _).trans (fieldsWritten_of hbh hdh _ _), rfl⟩

section Resume
variable {s : State} {f : Format} {b : Byte} (h : s.Inv)
include h

/-- A complete element past which both orders come to the same state, the fields read earlier aside. -/
theorem pastElement_offered_heldState {n : Nat} (hn : (bitsFor f s).length ≤ n) :
    pastElement f n (offered b (heldState f s)) = fieldsWritten f (bitsFor f s) (pastElement f n (offered b s)) := by
  have hlen : n - s.rd.held.length = (readerFor f s).unread.length + (n - (bitsFor f s).length) := by
    rw [bitsFor, readerFor_held, List.length_append] at hn ⊢
    omega
  have hrd : ({ (readerFor f (offered b (heldState f s))).consume (n - (bitsFor f s).length) with
      held := [] } : Reader) = { (readerFor f (offered b s)).consume (n - s.rd.held.length) with held := [] } := by
    rw [consume_offered_heldState h, hlen]
  exact (portMoved_offered_heldState s f b _).trans (congrArg
    (fun rd => fieldsWritten f (bitsFor f s) { portMoved (offered b s) with rd := rd }) hrd)

/-- The byte is unread in both orders. -/
theorem length_unread_offered_heldState :
    (readerFor f (offered b s)).unread.length =
      (readerFor f s).unread.length + (readerFor f (offered b (heldState f s))).unread.length := by
  have hlen := congrArg List.length (bitsFor_offered_heldState h f b)
  have hheld : (offered b (heldState f s)).rd.held.length = s.rd.held.length + (readerFor f s).unread.length := by
    show (bitsFor f s).length = _
    rw [bitsFor, readerFor_held, List.length_append]
  rw [bitsFor, bitsFor, List.length_append, List.length_append, readerFor_held, readerFor_held, hheld] at hlen
  have hs : (offered b s).rd.held.length = s.rd.held.length := rfl
  omega

/-- Where the byte does not complete the element, both orders hold in the same state. -/
theorem heldState_offered_heldState : heldState f (offered b (heldState f s)) = heldState f (offered b s) := by
  have hle : (bitsFor f s).length ≤ (bitsFor f (offered b s)).length := by
    rw [bitsFor_offered h, List.length_append]
    exact Nat.le_add_right _ _
  rw [heldState_eq f (offered b (heldState f s)), heldState_eq f (offered b s), bitsFor_offered_heldState h,
    portMoved_offered_heldState, fieldsWritten_fieldsWritten f hle, consume_offered_heldState h,
    length_unread_offered_heldState h]

variable (hr : s.rst = false) (hf : s.nextFormat = some f) (hq : (offered b (heldState f s)).Inv)
include hr hf hq

/-- Steps that begin the same element in the same state, up to registers it writes, answer the same. -/
theorem step_resumed_ok {k : ErrKind} (hd : decode (s.ctx f) (bitsFor f s) = .short k) {i : Instr} {n : Nat}
    (hi : decode (s.ctx f) (bitsFor f (offered b s)) = .ok i n) :
    step (offered b (heldState f s)) = step (offered b s) := by
  have hi' : decode (s.ctx f) (bitsFor f (offered b (heldState f s))) = .ok i n := by
    rwa [bitsFor_offered_heldState h]
  have hn : (bitsFor f s).length ≤ n := by
    rw [bitsFor_offered h] at hi
    exact (decode_short_append hd hi).le
  have hpast := pastElement_offered_heldState (b := b) h hn
  have hp : (offered b s).Inv := inv_offerByte h b
  have hfmt : i.format = f := decode_format hi
  by_cases hl : lengthElement i
  · obtain ⟨sym, x, hx⟩ := IsLength.of_lengthElement hl
    obtain rfl : f = .ll := (hfmt.symm.trans hx.format :)
    rw [fieldsWritten_of (by decide) (by decide)] at hpast
    rw [(step_length (s := offered b (heldState .ll s)) hx hr hf hi').2, (step_length (s := offered b s) hx hr hf hi).2,
      afterLengthOf, hpast]
    rfl
  · have hport := waits_offered_heldState s f b i
    cases hw : i.emits && (s.outValid && !s.outReady)
    · rw [step_runs (s := offered b (heldState f s)) hr hf (aligned_of_inv hq hf) hi' hl (hport.trans hw),
        step_runs (s := offered b s) hr hf (aligned_of_inv hp hf) hi hl hw, hpast, exec_fieldsWritten hfmt]
    · have hplain : f ≠ .bh ∧ f ≠ .dhCounts := by
        obtain hc | hc := format_of_emits (Bool.and_eq_true_iff.mp hw).1 <;> rw [← hfmt, hc] <;>
          exact ⟨by decide, by decide⟩
      rw [fieldsWritten_of hplain.1 hplain.2] at hpast
      rw [step_waits (s := offered b (heldState f s)) hr hf (aligned_of_inv hq hf) hi' (hport.trans hw),
        step_waits (s := offered b s) hr hf (aligned_of_inv hp hf) hi hw, hpast, bitsFor_offered_heldState h]

end Resume

/-- Two answers that are the same but, after a fault, for the cursor (U6). -/
def SameButCursor (t t' : State) : Prop :=
  t = t' ∨ t.error = true ∧ t'.error = true ∧ t = { t' with rd := t.rd }

theorem sameButCursor_raise (k : ErrKind) (p : State) (r r' : Reader) (m m' : Nat) :
    SameButCursor (State.raise k (State.failCursor k m { p with rd := r }))
      (State.raise k (State.failCursor k m' { p with rd := r' })) := by
  cases k <;> exact .inr ⟨rfl, rfl, rfl⟩

/-- Holding and then a byte is the byte first, where the first element of the step is not all there. -/
theorem hold_then_byte {s : State} {f : Format} {k : ErrKind} (b : Byte) (h : s.Inv) (hr : s.rst = false)
    (hf : s.nextFormat = some f) (he : s.rd.inEos = false) (hd : decode (s.ctx f) (bitsFor f s) = .short k) :
    ∃ u t t', step s = .next u ∧ step (offered b u) = .next t ∧ step (offered b s) = .next t' ∧ SameButCursor t t' := by
  have hhold : step s = .next (heldState f s) := step_holds hr hf (aligned_of_inv h hf) hd he
  have hq : (offered b (heldState f s)).Inv := inv_offerByte (invKept s _ h hhold) b
  have hp : (offered b s).Inv := inv_offerByte h b
  have same (hsame : step (offered b (heldState f s)) = step (offered b s)) :
      ∃ u t t', step s = .next u ∧ step (offered b u) = .next t ∧ step (offered b s) = .next t' ∧
        SameButCursor t t' := by
    obtain ⟨t, ht⟩ := invNeverStops _ hp
    exact ⟨_, t, t, hhold, hsame.trans ht, ht, .inl rfl⟩
  have hbits := bitsFor_offered_heldState h f b
  cases hi : decode (s.ctx f) (bitsFor f (offered b s)) with
  | ok i n => exact same (step_resumed_ok h hr hf hq hd hi)
  | short k' =>
    have heq : (offered b (heldState f s)).rd.inEos = false := by
      show ((readerFor f s).consume _).inEos = false
      rw [Reader.consume_inEos, readerFor_inEos, he]
    refine same ?_
    rw [step_holds (s := offered b s) hr hf (aligned_of_inv hp hf) hi he,
      step_holds (s := offered b (heldState f s)) hr hf (aligned_of_inv hq hf) (hbits.symm ▸ hi) heq]
    exact congrArg _ (heldState_offered_heldState h)
  | reject k' used =>
    have hplain : f ≠ .bh ∧ f ≠ .dhCounts := by
      obtain hc | hc | hc : f = .cls ∨ f = .ll ∨ f = .d := huffman_of_reject hi <;> rw [hc] <;>
        exact ⟨by decide, by decide⟩
    obtain ⟨p, r, r', hstart, hstart'⟩ := fetchStart_offered_heldState s b hplain.1 hplain.2
    refine ⟨_, _, _, hhold,
      step_rejects (s := offered b (heldState f s)) hr hf (aligned_of_inv hq hf) (hbits.symm ▸ hi),
      step_rejects (s := offered b s) hr hf (aligned_of_inv hp hf) hi, ?_⟩
    rw [hstart, hstart']
    exact sameButCursor_raise k' p r r' _ _

/-- The state after a length, with one more byte offered. -/
theorem afterLengthOf_offered {s : State} {n : Nat} (hn : n - s.rd.held.length ≤ s.rd.unread.length) (sym : Nat)
    (x : BitVec 5) (b : Byte) : afterLengthOf sym x n (offered b s) = offered b (afterLengthOf sym x n s) := by
  have hrd : ({ ({ s.rd with input := s.rd.input ++ [b] } : Reader).consume (n - s.rd.held.length) with
      held := [] } : Reader) = { s.rd.consume (n - s.rd.held.length) with
        input := (s.rd.consume (n - s.rd.held.length)).input ++ [b], held := [] } := by
    rw [consume_offer hn, Reader.consume_input]
  exact congrArg (fun rd => ({ afterLengthOf sym x n s with rd := rd } : State)) hrd

/-- The distance code begins where the length ends. -/
theorem bitsFor_afterLengthOf {s : State} {n : Nat} (hheld : s.rd.held.length ≤ n) (sym : Nat) (x : BitVec 5) :
    bitsFor .d (afterLengthOf sym x n s) = (bitsFor .ll s).drop n := by
  show (s.rd.consume (n - s.rd.held.length)).unread = (s.rd.held ++ s.rd.unread).drop n
  rw [Reader.consume_unread, List.drop_append, List.drop_eq_nil_of_le hheld, List.nil_append]

/-- Settles O51: `hold_then_byte` at the element that is short, after the length if that is whole. -/
theorem holdingThenByteIsByteFirst : Obligations.HoldingThenByteIsByteFirst := by
  intro s f k b h hr hf he hshort
  obtain hd | ⟨rfl, i, n, hl, hheld, hi, hd⟩ := hshort
  · exact hold_then_byte b h hr hf he hd
  · obtain ⟨sym, x, hx⟩ := IsLength.of_lengthElement hl
    have hle := used_le_length hi
    have hi' : decode (s.ctx .ll) (bitsFor .ll (offered b s)) = .ok i n := by
      rw [bitsFor_offered h]
      exact (decode_ok_append hi _).2
    have hfit : n - s.rd.held.length ≤ s.rd.unread.length := by
      rw [bitsFor, List.length_append, readerFor_of_ne (by decide)] at hle
      omega
    have heu : (afterLengthOf sym x n s).rd.inEos = false := (Reader.consume_inEos _ _).trans he
    have hstep' := (step_length (s := offered b s) hx hr hf hi').2
    rw [afterLengthOf_offered hfit] at hstep'
    obtain ⟨u, t, t', hu, ht, ht', hsame⟩ := hold_then_byte b (afterLengthOf_inv h hr hf hx hi) hr
      (nextFormat_afterLengthOf hf sym x n) heu (bitsFor_afterLengthOf hheld sym x ▸ hd)
    exact ⟨u, t, t', (step_length hx hr hf hi).2.trans hu, ht, hstep'.trans ht', hsame⟩

end Sys2Proof.Proofs
